-- ==== Sys2Proof/Word.lean ====
section
/-! DEFINITION. The word types of STEG-CORE. Bits are numbered from the least significant one (00_scope.md R11);
registers hold exactly their width (R13). -/

namespace Sys2Proof

/-- A memory cell, a channel, a command word: 8 bits (20_memory.md R50, 30_encoding.md R70). -/
abbrev Byte := BitVec 8

/-- A length, cursor or capacity register, and one slot of the register window: `XLEN = 64` bits
(00_scope.md R9, 10_state.md R21). -/
abbrev Word := BitVec 64

end Sys2Proof
end

