-- ==== Sys2Proof/Config.lean ====
section
/-! DEFINITION. What an implementation fixes (`MAXLEN`, `ALPHA_BLANK`), the names of the memory spaces, and the
values the spec leaves free. -/

namespace Sys2Proof

/-- The five disjoint memory spaces (10_state.md R30, 20_memory.md R67). -/
inductive Space where
  | chan
  | pay
  | pkt
  | name
  | cont
deriving DecidableEq, Repr

/-- The open parameters of 00_scope.md R9. No step changes them; a statement over every state holds for every value
of them (log entry 2). -/
structure Params where
  /-- `MAXLEN`: the size of every memory space and the largest legal length. -/
  maxLen : Nat
  /-- `ALPHA_BLANK`: the byte written to every alpha channel the write cursor passes (42_cursor_write.md R133). -/
  alphaBlank : Byte
deriving DecidableEq, Repr

/-- The defaults of the spec's vectors: `MAXLEN = 2^48`, `ALPHA_BLANK = 0x00` (00_scope.md R9). -/
def Params.default : Params := { maxLen := 2 ^ 48, alphaBlank := 0 }

/-- The answer of `Draw()` number `n` where no script fixed one (00_scope.md R16): free. Log entry 3. -/
opaque Config.drawByte : Nat → Byte

/-- What cell `i` of a space holds, after reset number `n`, until something is written to it
(10_state.md R35, 70_reset_and_hazards.md R241, 93_implementation_defined.md U7): free. Log entry 4. -/
opaque Config.unwrittenByte : Nat → Space → Nat → Byte

/-- What channel `i` holds after a `CursorMismatch` in the period of reset number `n` (42_cursor_write.md R146,
93_implementation_defined.md U3): free. Log entry 5. -/
opaque Config.partialByte : Nat → Nat → Byte

end Sys2Proof
end

