-- ==== Sys2Proof/Machine/State.lean ====
section
/-! DEFINITION. The state of STEG-CORE as plain data: exactly the registers and spaces of 10_state.md R20, and beside
them the parameters and the environment (host moves, draws), which R33 (c) and R34 keep out of the block's own state.
The machine's ways to stop are here too. -/

namespace Sys2Proof.Machine

/-- The registers of the window (10_state.md R21). -/
inductive Reg where
  | cmd
  | status
  | bits
  | chLen
  | payLen
  | nameLen
  | contLen
  | reqLen
  | pktLen
  | capBits
  | capBytes
  | cur
deriving DecidableEq, Repr

/-- What the host does while no command runs (10_state.md R21, R22; 20_memory.md R66; 30_encoding.md R80, R81). -/
inductive HostAction where
  /-- `SET reg, v` and `CMD x`: a write of the 64-bit slot at byte offset `off` of the register window. -/
  | write (off : Nat) (v : Word)
  /-- `SET dst, src`: the host reads the slot at `src` and writes what it read to the slot at `dst` (R81). -/
  | copy (dst src : Nat)
  /-- `LOAD space, bytes` (with `start = 0`): the host writes bytes to `space[start ..)`. -/
  | store (sp : Space) (start : Nat) (bytes : List Byte)
  /-- `DRAWS bytes`: fixes the answers `Draw()` gives to the following WRITE_PAYLOAD, first answer first (log entry 3). -/
  | draws (answers : List Byte)
  /-- The host reads `STATUS` and gives up the rest of its sequence unless `ERR` is `OK` (R81, R184, R187). The sequence
  is all that is left of the script, whatever macro the moves came from (DESIGN CHOICE, log entry 15). -/
  | stopUnlessOk
  /-- `RESET`: the platform applies reset (70_reset_and_hazards.md R240). -/
  | reset
deriving DecidableEq, Repr

/-- `STATUS.PHASE`: 0 `IDLE`, 1 `HDR` (10_state.md R23). -/
inductive Phase where
  | idle
  | hdr
deriving DecidableEq, Repr

/-- The values of `STATUS.ERR` (60_exceptions.md R200). The codes 0x08 to 0xFF are never produced. -/
inductive ErrCode where
  | ok
  | bitsOutOfRange
  | invalidName
  | lengthTooSmall
  | corruptHeader
  | cursorMismatch
  | lengthInvalid
  | illegalCommand
deriving DecidableEq, Repr

/-- The fields of `STATUS` (10_state.md R23). Bits 7:4 are always 0 and are no field (log entry 10). -/
structure Status where
  busy  : Bool
  done  : Bool
  fatal : Bool
  phase : Phase
  err   : ErrCode
deriving DecidableEq, Repr

/-- A memory space: the cells that hold a known byte, indices strictly rising (log entry 4). -/
abbrev Memory := List Host.Cell

/-- What stands outside the block (log entries 1, 3 and 4): the host's next moves, the answers fixed for the next
command's draws, how many draws and how many resets there have been. -/
structure Env where
  script    : List HostAction
  draws     : List Byte
  drawCount : Nat
  resets    : Nat
deriving DecidableEq, Repr

/-- The machine (10_state.md R20). `CMD` holds nothing (R22) and is no field. -/
structure State where
  status   : Status
  bits     : BitVec 8
  chLen    : Word
  payLen   : Word
  nameLen  : Word
  contLen  : BitVec 32
  reqLen   : Word
  pktLen   : Word
  capBits  : Word
  capBytes : Word
  cur      : Word
  bt       : BitVec 4
  acc      : BitVec 16
  accBits  : BitVec 5
  chan     : Memory
  pay      : Memory
  pkt      : Memory
  name     : Memory
  cont     : Memory
  params   : Params
  env      : Env
deriving DecidableEq, Repr

/-- Why the machine stops with a fault. -/
inductive Fault where
  /-- Raised by a host store to an index at or above `MAXLEN`: the cell does not exist (20_memory.md R50). Safe. -/
  | noSuchCell
deriving DecidableEq, Repr

/-- Why the machine gives a move no meaning. -/
inductive Refusal where
  /-- An instruction whose meaning is not written. No arm of `exec` raises it. Safe. -/
  | notModelled (mnemonic : String)
  /-- Raised by a host access while `STATUS.BUSY` is 1: the spec defines no behaviour (70_reset_and_hazards.md R250,
  93_implementation_defined.md U2). Safe here; a real host that does it gets no guarantee (log entry 6). -/
  | hostAccessWhileBusy
  /-- Raised by a window access below 0x60 at an offset that is no 8-byte slot: registers are accessed whole
  (10_state.md R21). Safe (log entry 9). -/
  | notASlot
deriving DecidableEq, Repr

/-- `STATUS` after reset: every field 0 (10_state.md R35). -/
def Status.reset : Status := { busy := false, done := false, fatal := false, phase := .idle, err := .ok }

/-- The machine right after reset (10_state.md R35, 70_reset_and_hazards.md R240): every register at the value the spec
gives, no cell of memory with a known byte, no move of the host pending, the parameters at the spec's defaults. -/
def State.reset : State where
  status   := Status.reset
  bits     := 1
  chLen    := 0
  payLen   := 0
  nameLen  := 0
  contLen  := 0
  reqLen   := 0
  pktLen   := 0
  capBits  := 0
  capBytes := 0
  cur      := 0
  bt       := 0
  acc      := 0
  accBits  := 0
  chan     := []
  pay      := []
  pkt      := []
  name     := []
  cont     := []
  params   := Params.default
  env      := { script := [], draws := [], drawCount := 0, resets := 0 }

/-- The contents of a space. -/
def State.mem (s : State) : Space → Memory
  | .chan => s.chan
  | .pay  => s.pay
  | .pkt  => s.pkt
  | .name => s.name
  | .cont => s.cont

/-! ### Updates of one field -/

def State.withStatus (s : State) (v : Status) : State := { s with status := v }
def State.withBits (s : State) (v : BitVec 8) : State := { s with bits := v }
def State.withChLen (s : State) (v : Word) : State := { s with chLen := v }
def State.withPayLen (s : State) (v : Word) : State := { s with payLen := v }
def State.withNameLen (s : State) (v : Word) : State := { s with nameLen := v }
def State.withContLen (s : State) (v : BitVec 32) : State := { s with contLen := v }
def State.withReqLen (s : State) (v : Word) : State := { s with reqLen := v }
def State.withPktLen (s : State) (v : Word) : State := { s with pktLen := v }
def State.withCap (s : State) (capBits capBytes : Word) : State := { s with capBits := capBits, capBytes := capBytes }
def State.withCur (s : State) (v : Word) : State := { s with cur := v }
def State.withBt (s : State) (v : BitVec 4) : State := { s with bt := v }
def State.withAcc (s : State) (acc : BitVec 16) (accBits : BitVec 5) : State := { s with acc := acc, accBits := accBits }
def State.withEnv (s : State) (v : Env) : State := { s with env := v }
def State.withScript (s : State) (v : List HostAction) : State := { s with env := { s.env with script := v } }
def State.withDraws (s : State) (v : List Byte) : State := { s with env := { s.env with draws := v } }

def State.withMem (s : State) (sp : Space) (m : Memory) : State :=
  match sp with
  | .chan => { s with chan := m }
  | .pay  => { s with pay := m }
  | .pkt  => { s with pkt := m }
  | .name => { s with name := m }
  | .cont => { s with cont := m }

end Sys2Proof.Machine
end

