-- ==== Sys2Proof/Syntax.lean ====
section
/-! DEFINITION. The command set STEG-CMD version 1 (00_scope.md R3): one constructor per row of the opcode table.
A command word has no operand field; the operands are the fixed registers and spaces of 30_encoding.md R72. -/

namespace Sys2Proof

/-- The nine commands (30_encoding.md R71). WRITE_CHANNEL has no code and is no constructor (42_cursor_write.md R130). -/
inductive Instr where
  | validateBits
  | capacity
  | pack
  | packPad
  | unpack
  | writeHeader
  | writePayload
  | readHeader
  | readPayload
deriving DecidableEq, Repr

end Sys2Proof
end

