-- ==== Sys2Proof/WellFormed.lean ====
section
/-! DEFINITION. What counts as well formed: the legal parameters, the command words, the commands, the host's moves. -/

namespace Sys2Proof

/-- The legal parameters: `4 <= MAXLEN <= 2^56` (00_scope.md R9). -/
def Params.wf (p : Params) : Bool := decide (4 ≤ p.maxLen) && decide (p.maxLen ≤ 2 ^ 56)

/-- A command word that is not reserved: bits 7:4 are zero, bits 3:0 are 0x1 to 0x9 (30_encoding.md R70, R78). -/
def commandWordWf (w : Byte) : Bool :=
  decide (w.toNat / 16 = 0) && decide (1 ≤ w.toNat % 16) && decide (w.toNat % 16 ≤ 9)

/-- A command has no operand field (30_encoding.md R70), so every term of `Instr` is well formed. -/
def Instr.wf : Instr → Bool
  | .validateBits => true
  | .capacity     => true
  | .pack         => true
  | .packPad      => true
  | .unpack       => true
  | .writeHeader  => true
  | .writePayload => true
  | .readHeader   => true
  | .readPayload  => true

/-- An offset of the register window the host may access: a whole 8-byte slot, or the reserved space from 0x60 on
(10_state.md R21). -/
def windowOffsetWf (off : Nat) : Bool := decide (off % 8 = 0) || decide (0x60 ≤ off)

/-- A move of the host that the block gives a meaning: window accesses name a slot, stores stay below `MAXLEN`
(10_state.md R21, 20_memory.md R50). -/
def Machine.HostAction.wf (p : Params) : Machine.HostAction → Bool
  | .write off _          => windowOffsetWf off
  | .copy dst src         => windowOffsetWf dst && windowOffsetWf src
  | .store _ start bytes  => bytes.isEmpty || decide (start + bytes.length ≤ p.maxLen)
  | .draws _              => true
  | .stopUnlessOk         => true
  | .reset                => true

end Sys2Proof
end

