-- ==== Sys2Proof/Decode.lean ====
section
/-! DEFINITION. From a command word to a command, total, and the encoder beside it (30_encoding.md R70, R71, R78). -/

namespace Sys2Proof

/-- Why a byte string holds no command: there is no byte, the reserved field `rsv` (bits 7:4) is not zero, or the
opcode field `op` (bits 3:0) is one of the reserved values 0x0, 0xA to 0xF (30_encoding.md R71, R78). -/
inductive DecodeError where
  | noByte
  | reservedField
  | reservedOpcode
deriving DecidableEq, Repr

/-- Bits 7:4 of a command word (30_encoding.md R70). -/
def rsvField (w : Byte) : Nat := w.toNat / 16

/-- Bits 3:0 of a command word (30_encoding.md R70). -/
def opField (w : Byte) : Nat := w.toNat % 16

/-- The opcode map (30_encoding.md R71): the whole byte is decoded. -/
def decode (w : Byte) : Except DecodeError Instr :=
  if rsvField w ≠ 0 then .error .reservedField
  else match opField w with
    | 0x1 => .ok .validateBits
    | 0x2 => .ok .capacity
    | 0x3 => .ok .pack
    | 0x4 => .ok .packPad
    | 0x5 => .ok .unpack
    | 0x6 => .ok .writeHeader
    | 0x7 => .ok .writePayload
    | 0x8 => .ok .readHeader
    | 0x9 => .ok .readPayload
    | _   => .error .reservedOpcode

/-- A program is the sequence of bytes written to `CMD` (30_encoding.md R80): the first command and the rest. -/
def decodeBytes : List Byte → Except DecodeError (Instr × List Byte)
  | [] => .error .noByte
  | w :: rest =>
    match decode w with
    | .ok i => .ok (i, rest)
    | .error e => .error e

/-- A whole program's bytes as its commands (30_encoding.md R80); rejected at its first reserved byte. -/
def decodeProgram : List Byte → Except DecodeError (List Instr)
  | [] => .ok []
  | w :: rest =>
    match decode w with
    | .error e => .error e
    | .ok i =>
      match decodeProgram rest with
      | .error e => .error e
      | .ok is => .ok (i :: is)

/-- The command word of a command (30_encoding.md R71, spec/opcode_table.json). -/
def encode : Instr → Byte
  | .validateBits => 0x01
  | .capacity     => 0x02
  | .pack         => 0x03
  | .packPad      => 0x04
  | .unpack       => 0x05
  | .writeHeader  => 0x06
  | .writePayload => 0x07
  | .readHeader   => 0x08
  | .readPayload  => 0x09

/-- The byte that reaches `CMD` when an instruction whose bits are `w`, `nbits` of them, is written to slot 0x00: the
register is 8 bits wide and the bits of a slot above a register's width ignore writes (10_state.md R21). -/
def commandByte (nbits w : Nat) : Byte := BitVec.ofNat 8 (w % 2 ^ nbits)

/-- The command the decoder reads from a row's word, numbered as spec/opcode_table.json numbers it. -/
def decodeTableWord (nbits w : Nat) : Option Instr :=
  match decode (commandByte nbits w) with
  | .ok i => some i
  | .error _ => none

end Sys2Proof
end

