-- ==== Sys2Proof/Machine/Flags.lean ====
section
/-! DEFINITION. Every write of `STATUS`, and `STATUS` as the host reads it (10_state.md R23, R27, R32). -/

namespace Sys2Proof.Machine

/-- The numeric error code of 60_exceptions.md R200. -/
def ErrCode.code : ErrCode → BitVec 8
  | .ok             => 0x00
  | .bitsOutOfRange => 0x01
  | .invalidName    => 0x02
  | .lengthTooSmall => 0x03
  | .corruptHeader  => 0x04
  | .cursorMismatch => 0x05
  | .lengthInvalid  => 0x06
  | .illegalCommand => 0x07

/-- `PHASE` as its bit (10_state.md R23). -/
def Phase.bit : Phase → Bool
  | .idle => false
  | .hdr  => true

/-- `STATUS` as a 16-bit word: `ERR` in 15:8, zeros in 7:4, `PHASE` 3, `FATAL` 2, `DONE` 1, `BUSY` 0 (10_state.md R23). -/
def Status.word (st : Status) : BitVec 16 :=
  st.err.code ++ (0 : BitVec 4) ++ BitVec.ofBool st.phase.bit ++ BitVec.ofBool st.fatal ++ BitVec.ofBool st.done
    ++ BitVec.ofBool st.busy

/-- The `CMD` write that starts a command: `BUSY <- 1`, and `DONE` is clear until the command ends (10_state.md R23). -/
def Status.start (st : Status) : Status := { st with busy := true, done := false }

/-- The end of a command: `BUSY <- 0`, `DONE <- 1`, `ERR <- e` (10_state.md R27). -/
def Status.finish (st : Status) (e : ErrCode) : Status := { st with busy := false, done := true, err := e }

/-- `PHASE <- p` (10_state.md R28). -/
def Status.withPhase (st : Status) (p : Phase) : Status := { st with phase := p }

/-- The status part of the fatal entry: `FATAL <- 1`, `PHASE <- 0` (60_exceptions.md R207). -/
def Status.setFatal (st : Status) : Status := { st with fatal := true, phase := .idle }

end Sys2Proof.Machine
end

