-- ==== Sys2Proof/Machine/Operands.lean ====
section
/-! DEFINITION. The arithmetic of the operands: masks, byte order, the legality checks on registers, the capacity
formulas and the index map of `CHAN`. All of it over the natural numbers and the integers (40_capacity.md R102). -/

namespace Sys2Proof.Machine

/-- `mask(w) = 2^w - 1`, at a width of `n` bits (00_scope.md R10). -/
def mask (n w : Nat) : BitVec n := BitVec.ofNat n (2 ^ w - 1)

/-- `be32(v)`: four bytes, the most significant first (00_scope.md R14, 20_memory.md R52). -/
def be32 (v : Nat) : List Byte :=
  [BitVec.ofNat 8 (v / 2 ^ 24), BitVec.ofNat 8 (v / 2 ^ 16), BitVec.ofNat 8 (v / 2 ^ 8), BitVec.ofNat 8 v]

/-- `unbe32(s0, s1, s2, s3)` (00_scope.md R14, 30_encoding.md R74). -/
def unbe32 (s0 s1 s2 s3 : Byte) : Nat :=
  s0.toNat * 2 ^ 24 + s1.toNat * 2 ^ 16 + s2.toNat * 2 ^ 8 + s3.toNat

/-- The test of `ValidateBits(v)`: `1 <= v <= 8` (40_capacity.md R100). -/
def bitsLegal (v : Nat) : Bool := decide (1 ≤ v) && decide (v ≤ 8)

/-- The test of CAPACITY on `CHLEN` (40_capacity.md R103): a multiple of 4, at most `MAXLEN`; 0 is accepted. -/
def bufferLegal (maxLen len : Nat) : Bool := decide (len % 4 = 0) && decide (len ≤ maxLen)

/-- The test of the four cursor commands on `CHLEN` (20_memory.md R54): also at least 4. -/
def cursorBufferLegal (maxLen len : Nat) : Bool :=
  decide (len % 4 = 0) && decide (4 ≤ len) && decide (len ≤ maxLen)

/-- The test of PACK and PACK_PAD on `NAMELEN` (41_filepacker.md R110). -/
def nameLegal (n : Nat) : Bool := decide (1 ≤ n) && decide (n ≤ 255)

/-- `T = 1 + NAMELEN + 4 + CONTLEN` (41_filepacker.md R110, R111). -/
def packedLength (n m : Nat) : Nat := 1 + n + 4 + m

/-- `P(L) = L div 4 - 1`, signed (40_capacity.md R101). -/
def usablePixels (len : Nat) : Int := (len : Int) / 4 - 1

/-- `N(L) = 3 * P(L)`, signed (40_capacity.md R101). -/
def usableChannels (len : Nat) : Int := 3 * usablePixels len

/-- `bits(L, b) = P(L) * 3 * b` (40_capacity.md R101). -/
def capacityBits (len b : Nat) : Int := usablePixels len * 3 * (b : Int)

/-- `bytes(L, b) = bits(L, b) div 8`, rounded toward minus infinity (40_capacity.md R101, R102). -/
def capacityBytes (len b : Nat) : Int := capacityBits len b / 8

/-- A channel index is alpha iff `i mod 4 == 3` (20_memory.md R56). -/
def isAlpha (i : Nat) : Bool := decide (i % 4 = 3)

/-- `idx(j) = 4 + 4 * (j div 3) + (j mod 3)`: the index of usable channel `j` (20_memory.md R57). -/
def usableIndex (j : Nat) : Nat := 4 + 4 * (j / 3) + j % 3

/-- Bit `k` of a 3-bit header value as a channel value, 0 or 1 (42_cursor_write.md R136). -/
def headerBit (h k : Nat) : Byte := BitVec.ofNat 8 (h / 2 ^ k % 2)

/-- The 3-bit value of bit 0 of three channels, the first the most significant (43_cursor_read.md R160). -/
def headerValue (c0 c1 c2 : Byte) : Nat := (c0.toNat % 2) * 4 + (c1.toNat % 2) * 2 + c2.toNat % 2

end Sys2Proof.Machine
end

