-- ==== Sys2Proof/Machine/Ops.lean ====
section
/-! DEFINITION. The shared operations: memory, draws, how a command starts and ends, how an error is raised, reset,
and the micro-operation WRITE_CHANNEL. -/

namespace Sys2Proof.Machine

/-! ### Memory -/

/-- The canonical form: indices strictly rising (log entry 4). -/
abbrev Memory.wf (m : Memory) : Prop := m.Pairwise (fun x y => x.1 < y.1)

/-- The byte listed for cell `i`; none where the cell holds no known byte. -/
def Memory.read : Memory → Nat → Option Byte
  | [], _ => none
  | (j, v) :: m, i => if i = j then some v else Memory.read m i

/-- Store one byte, keeping the indices rising. -/
def Memory.write : Memory → Nat → Byte → Memory
  | [], i, v => [(i, v)]
  | (j, w) :: m, i, v =>
    if i < j then (i, v) :: (j, w) :: m
    else if i = j then (i, v) :: m
    else (j, w) :: Memory.write m i v

/-- `SPACE[i]` in an expression (00_scope.md R14). A cell nothing has written since reset reads as a free value
(70_reset_and_hazards.md R242; log entry 4). -/
def readCell (s : State) (sp : Space) (i : Nat) : Byte :=
  match Memory.read (s.mem sp) i with
  | some v => v
  | none   => Config.unwrittenByte s.env.resets sp i

/-- `SPACE[i] <- v` (00_scope.md R14). -/
def writeCell (s : State) (sp : Space) (i : Nat) (v : Byte) : State :=
  s.withMem sp (Memory.write (s.mem sp) i v)

/-- `MemRead(SPACE[start], n)` (00_scope.md R14). -/
def readBytes (s : State) (sp : Space) : (start n : Nat) → List Byte
  | _, 0 => []
  | start, n + 1 => readCell s sp start :: readBytes s sp (start + 1) n

/-- `MemWrite(SPACE[start], n, v)`, `n` the length of `v` (00_scope.md R14). -/
def writeBytes (s : State) (sp : Space) : (start : Nat) → List Byte → State
  | _, [] => s
  | start, v :: vs => writeBytes (writeCell s sp start v) sp (start + 1) vs

/-! ### Random draws -/

/-- The answer of the next `Draw()`: the script's next fixed answer, or else a free value (00_scope.md R16; log entry 3). -/
def nextDraw (s : State) : Byte :=
  match s.env.draws with
  | v :: _ => v
  | []     => Config.drawByte s.env.drawCount

/-- One `Draw()` is made: its fixed answer is used up and the draw is counted. -/
def afterDraw (s : State) : State :=
  s.withEnv { s.env with draws := s.env.draws.tail, drawCount := s.env.drawCount + 1 }

/-! ### The start and the end of a command, errors, reset -/

/-- How the pseudocode of a command ends: it ran through, or it raised an error in the state it had reached
(00_scope.md R15). -/
inductive CmdResult where
  | done   (s : State)
  | raised (e : ErrCode) (s : State)
deriving DecidableEq, Repr

/-- Sequence: an error ends the command, nothing further runs (00_scope.md R15). -/
def CmdResult.andThen (r : CmdResult) (k : State → CmdResult) : CmdResult :=
  match r with
  | .done s     => k s
  | .raised e s => .raised e s

/-- Channels 4 .. `CHLEN` hold unspecified bytes after `CursorMismatch` (42_cursor_write.md R146; log entry 5). -/
def forgetPayload (s : State) : State :=
  writeBytes s .chan 4 ((List.range (s.chLen.toNat - 4)).map (fun k => Config.partialByte s.env.resets (4 + k)))

/-- The entry of every error (60_exceptions.md R206, R207): `ERR`, `DONE`, `BUSY`; for the fatal `CursorMismatch` also
`FATAL <- 1`, `PHASE <- 0`, `BT <- 0`, and the payload channels are unspecified. Nothing is saved and control goes
nowhere; there is no return command (R209). -/
def raiseError (e : ErrCode) (s : State) : State :=
  match e with
  | .cursorMismatch =>
    ((forgetPayload s).withBt 0).withStatus (s.status.setFatal.finish .cursorMismatch)
  | .ok | .bitsOutOfRange | .invalidName | .lengthTooSmall | .corruptHeader | .lengthInvalid | .illegalCommand =>
    s.withStatus (s.status.finish e)

/-- Reset (70_reset_and_hazards.md R240, 10_state.md R35), the one way out of `FATAL` (60_exceptions.md R209): registers
at their reset values, no cell with a known byte. The parameters stay; so do the host's moves (log entry 11). -/
def applyReset (s : State) : State :=
  { State.reset with params := s.params, env := { s.env with resets := s.env.resets + 1 } }

/-- A command from the write of `CMD` to its end (10_state.md R27): one atomic transition. While `FATAL` is 1 nothing
starts and nothing changes (60_exceptions.md R208; log entry 7). -/
def runCommand (body : State → CmdResult) (s : State) : Host.Outcome State Fault Refusal :=
  if s.status.fatal then .next s
  else match body (s.withStatus s.status.start) with
    | .done t     => .next (t.withStatus (t.status.finish .ok))
    | .raised e t => .next (raiseError e t)

/-! ### WRITE_CHANNEL -/

/-- WRITE_CHANNEL(`value`, `width`) (42_cursor_write.md R130): replace the low `width` bits of `CHAN[CUR]`, step the
cursor, blank an alpha channel it lands on and step over it. -/
def writeChannel (value : Byte) (width : Nat) (s : State) : CmdResult :=
  if s.cur.toNat < s.chLen.toNat then
    let c := s.cur.toNat
    let s₁ := (writeCell s .chan c ((readCell s .chan c &&& ~~~ mask 8 width) ||| value)).withCur (BitVec.ofNat 64 (c + 1))
    if isAlpha (c + 1) then
      .done ((writeCell s₁ .chan (c + 1) s.params.alphaBlank).withCur (BitVec.ofNat 64 (c + 2)))
    else .done s₁
  else .raised .cursorMismatch s

end Sys2Proof.Machine
end

