-- ==== Sys2Proof/Machine/Capacity.lean ====
section
/-! DEFINITION. CapacityModel: VALIDATE_BITS and CAPACITY (40_capacity.md). -/

namespace Sys2Proof.Machine

/-- The pseudocode of VALIDATE_BITS (40_capacity.md R100). -/
def validateBitsBody (s : State) : CmdResult :=
  if bitsLegal s.bits.toNat then .done s else .raised .bitsOutOfRange s

/-- VALIDATE_BITS (0x01). -/
def execValidateBits (s : State) : Host.Outcome State Fault Refusal := runCommand validateBitsBody s

/-- The pseudocode of CAPACITY (40_capacity.md R103). -/
def capacityBody (s : State) : CmdResult :=
  if ! bitsLegal s.bits.toNat then .raised .bitsOutOfRange s
  else if ! bufferLegal s.params.maxLen s.chLen.toNat then .raised .lengthInvalid s
  else .done (s.withCap (BitVec.ofInt 64 (capacityBits s.chLen.toNat s.bits.toNat))
    (BitVec.ofInt 64 (capacityBytes s.chLen.toNat s.bits.toNat)))

/-- CAPACITY (0x02). -/
def execCapacity (s : State) : Host.Outcome State Fault Refusal := runCommand capacityBody s

end Sys2Proof.Machine
end

