-- ==== Sys2Proof/Machine/CursorRead.lean ====
section
/-! DEFINITION. ChannelCursor, read side: READ_HEADER and READ_PAYLOAD (43_cursor_read.md). -/

namespace Sys2Proof.Machine

/-- The pseudocode of READ_HEADER (43_cursor_read.md R160). Its `BitsOutOfRange` is kept although no buffer can raise it
(R162, 90_conflicts.md C2). -/
def readHeaderBody (s : State) : CmdResult :=
  if ! cursorBufferLegal s.params.maxLen s.chLen.toNat then .raised .lengthInvalid s
  else
    let v := headerValue (readCell s .chan 0) (readCell s .chan 1) (readCell s .chan 2)
    if ! bitsLegal (v + 1) then .raised .bitsOutOfRange s
    else .done (s.withBits (BitVec.ofNat 8 (v + 1)))

/-- READ_HEADER (0x08). -/
def execReadHeader (s : State) : Host.Outcome State Fault Refusal := runCommand readHeaderBody s

/-- Byte number `n` of the payload has been assembled: stored while `n < PAYLEN`, else discarded (43_cursor_read.md R165). -/
def emitByte (n : Nat) (v : Byte) (s : State) : State :=
  if n < s.payLen.toNat then writeCell s .pay n v else s

/-- One pass of the loop of 43_cursor_read.md R164, at depth `b` with `n` bytes produced so far: skip an alpha channel,
or shift a channel's low `b` bits in and emit a byte when 8 bits are there. -/
def readPass (b n : Nat) (s : State) : Nat × State :=
  let c := s.cur.toNat
  let s₁ := s.withCur (BitVec.ofNat 64 (c + 1))
  if isAlpha c then (n, s₁)
  else
    let acc := (s.acc <<< b) ||| (readCell s .chan c &&& mask 8 b).setWidth 16
    let k := s.accBits.toNat + b
    if 8 ≤ k then
      (n + 1, emitByte n ((acc >>> (k - 8)).setWidth 8)
        (s₁.withAcc (acc &&& mask 16 (k - 8)) (BitVec.ofNat 5 (k - 8))))
    else (n, s₁.withAcc acc (BitVec.ofNat 5 k))

/-- The loop `while CUR < CHLEN` (43_cursor_read.md R164); each pass moves the cursor by 1, so `fuel = CHLEN - CUR`
passes end it (R168). -/
def readLoop (b : Nat) : (fuel n : Nat) → State → State
  | 0, _, s => s
  | fuel + 1, n, s =>
    if s.cur.toNat < s.chLen.toNat then
      let p := readPass b n s
      readLoop b fuel p.1 p.2
    else s

/-- The pseudocode of READ_PAYLOAD (43_cursor_read.md R164). -/
def readPayloadBody (s : State) : CmdResult :=
  if ! bitsLegal s.bits.toNat then .raised .bitsOutOfRange s
  else if ! cursorBufferLegal s.params.maxLen s.chLen.toNat then .raised .lengthInvalid s
  else if ! decide ((s.payLen.toNat : Int) ≤ capacityBytes s.chLen.toNat s.bits.toNat) then .raised .lengthInvalid s
  else
    let t := readLoop s.bits.toNat (s.chLen.toNat - 4) 0 ((s.withCur 4).withAcc 0 0)
    .done ((t.withBt 0).withStatus (t.status.withPhase .idle))

/-- READ_PAYLOAD (0x09). -/
def execReadPayload (s : State) : Host.Outcome State Fault Refusal := runCommand readPayloadBody s

end Sys2Proof.Machine
end

