-- ==== Sys2Proof/Machine/CursorWrite.lean ====
section
/-! DEFINITION. ChannelCursor, write side: WRITE_HEADER and WRITE_PAYLOAD (42_cursor_write.md). -/

namespace Sys2Proof.Machine

/-- The header phase: the three WRITE_CHANNEL calls of 42_cursor_write.md R136. -/
def headerPhase (h : Nat) (s : State) : CmdResult :=
  ((writeChannel (headerBit h 2) 1 s).andThen (writeChannel (headerBit h 1) 1)).andThen (writeChannel (headerBit h 0) 1)

/-- The pseudocode of WRITE_HEADER (42_cursor_write.md R136). -/
def writeHeaderBody (s : State) : CmdResult :=
  if ! bitsLegal s.bits.toNat then .raised .bitsOutOfRange s
  else if ! cursorBufferLegal s.params.maxLen s.chLen.toNat then .raised .lengthInvalid s
  else (headerPhase (s.bits.toNat - 1) (s.withCur 0)).andThen fun t =>
    .done ((t.withBt (BitVec.ofNat 4 t.bits.toNat)).withStatus (t.status.withPhase .hdr))

/-- WRITE_HEADER (0x06). -/
def execWriteHeader (s : State) : Host.Outcome State Fault Refusal := runCommand writeHeaderBody s

/-- One bit enters the accumulator, and a full group is written (42_cursor_write.md R140, R143). -/
def pushBit (b : Nat) (bit : Bool) (s : State) : CmdResult :=
  let acc := (s.acc <<< 1) ||| (BitVec.ofBool bit).setWidth 16
  let k := s.accBits.toNat + 1
  let s₁ := s.withAcc acc (BitVec.ofNat 5 k)
  if k = b then (writeChannel (acc.setWidth 8) b s₁).andThen fun t => .done (t.withAcc 0 0)
  else .done s₁

/-- Bits `k-1` down to 0 of a payload byte, in that order. -/
def pushBits (b : Nat) (v : Byte) : Nat → State → CmdResult
  | 0, s => .done s
  | k + 1, s => (pushBit b (v.getLsbD k) s).andThen (pushBits b v k)

/-- The payload phase (42_cursor_write.md R143): `todo` payload bytes from index `i` on, each MSB first. -/
def payloadPhase (b : Nat) : (todo i : Nat) → State → CmdResult
  | 0, _, s => .done s
  | todo + 1, i, s => (pushBits b (readCell s .pay i) 8 s).andThen (payloadPhase b todo (i + 1))

/-- The partial flush (42_cursor_write.md R144): one draw, whose low `b - ACCBITS` bits are the filler. -/
def partialFlush (b : Nat) (s : State) : CmdResult :=
  if s.accBits.toNat = 0 then .done s
  else
    let f := b - s.accBits.toNat
    let r := nextDraw s
    (writeChannel (((s.acc <<< f).setWidth 8) ||| (r &&& mask 8 f)) b (afterDraw s)).andThen fun t =>
      .done (t.withAcc 0 0)

/-- The trailing phase (42_cursor_write.md R145): while `CUR < CHLEN`, one draw per channel. `fuel` bounds the passes; a
pass moves the cursor by at least 1 (R151). -/
def trailingPhase (b : Nat) : (fuel : Nat) → State → CmdResult
  | 0, s => .done s
  | fuel + 1, s =>
    if s.cur.toNat < s.chLen.toNat then
      (writeChannel (nextDraw s &&& mask 8 b) b (afterDraw s)).andThen (trailingPhase b fuel)
    else .done s

/-- The postcondition and the end of the write sequence (42_cursor_write.md R142, R146). -/
def closeWrite (s : State) : CmdResult :=
  if s.cur = s.chLen then .done ((s.withBt 0).withStatus (s.status.withPhase .idle))
  else .raised .cursorMismatch s

/-- The pseudocode of WRITE_PAYLOAD (42_cursor_write.md R140). The depth is the latched `BT`, not `BITS`. -/
def writePayloadBody (s : State) : CmdResult :=
  if s.status.phase ≠ .hdr then .raised .illegalCommand s
  else if ! cursorBufferLegal s.params.maxLen s.chLen.toNat then .raised .lengthInvalid s
  else if ! decide (s.payLen.toNat ≤ s.params.maxLen) then .raised .lengthInvalid s
  else
    let b := s.bt.toNat
    (((payloadPhase b s.payLen.toNat 0 (s.withAcc 0 0)).andThen (partialFlush b)).andThen fun t =>
      trailingPhase b (t.chLen.toNat - t.cur.toNat) t).andThen closeWrite

/-- WRITE_PAYLOAD (0x07). -/
def execWritePayload (s : State) : Host.Outcome State Fault Refusal := runCommand writePayloadBody s

end Sys2Proof.Machine
end

