-- ==== Sys2Proof/Machine/FilePacker.lean ====
section
/-! DEFINITION. FilePacker: PACK, PACK_PAD and UNPACK (41_filepacker.md); the byte layout is 30_encoding.md R73. -/

namespace Sys2Proof.Machine

/-- `T`, the packed length of the operands (41_filepacker.md R110). -/
def packTotal (s : State) : Nat := packedLength s.nameLen.toNat s.contLen.toNat

/-- The error `PackCheck()` raises, if any (41_filepacker.md R110). -/
def packCheck (s : State) : Option ErrCode :=
  if ! nameLegal s.nameLen.toNat then some .invalidName
  else if ! decide (packTotal s ≤ s.params.maxLen) then some .lengthInvalid
  else none

/-- `PackBody()` (41_filepacker.md R110). -/
def packBody (s : State) : State :=
  let n := s.nameLen.toNat
  let m := s.contLen.toNat
  let s₁ := writeCell s .pkt 0 (BitVec.ofNat 8 n)
  let s₂ := writeBytes s₁ .pkt 1 (readBytes s₁ .name 0 n)
  let s₃ := writeBytes s₂ .pkt (1 + n) (be32 m)
  writeBytes s₃ .pkt (5 + n) (readBytes s₃ .cont 0 m)

/-- The pseudocode of PACK (41_filepacker.md R110). -/
def packCommandBody (s : State) : CmdResult :=
  match packCheck s with
  | some e => .raised e s
  | none   => .done ((packBody s).withPktLen (BitVec.ofNat 64 (packTotal s)))

/-- PACK (0x03). -/
def execPack (s : State) : Host.Outcome State Fault Refusal := runCommand packCommandBody s

/-- The pseudocode of PACK_PAD (41_filepacker.md R114); `REQLEN` is signed. -/
def packPadBody (s : State) : CmdResult :=
  match packCheck s with
  | some e => .raised e s
  | none   =>
    if ! decide ((packTotal s : Int) ≤ s.reqLen.toInt) then .raised .lengthTooSmall s
    else if ! decide (s.reqLen.toInt ≤ (s.params.maxLen : Int)) then .raised .lengthInvalid s
    else
      let padded := writeBytes (packBody s) .pkt (packTotal s) (List.replicate (s.reqLen.toInt.toNat - packTotal s) 0)
      .done (padded.withPktLen s.reqLen)

/-- PACK_PAD (0x04). -/
def execPackPad (s : State) : Host.Outcome State Fault Refusal := runCommand packPadBody s

/-- `content_len` of a packed file whose `name_len` is `n` (30_encoding.md R74). -/
def packedContentLength (s : State) (n : Nat) : Nat :=
  unbe32 (readCell s .pkt (1 + n)) (readCell s .pkt (2 + n)) (readCell s .pkt (3 + n)) (readCell s .pkt (4 + n))

/-- The writes of UNPACK, once its checks have passed (41_filepacker.md R118). -/
def unpackStore (s : State) (n m : Nat) : State :=
  let s₁ := (writeBytes s .name 0 (readBytes s .pkt 1 n)).withNameLen (BitVec.ofNat 64 n)
  (writeBytes s₁ .cont 0 (readBytes s₁ .pkt (5 + n) m)).withContLen (BitVec.ofNat 32 m)

/-- The pseudocode of UNPACK (41_filepacker.md R118). -/
def unpackBody (s : State) : CmdResult :=
  let len := s.pktLen.toNat
  if ! decide (len ≤ s.params.maxLen) then .raised .lengthInvalid s
  else if ! decide (1 ≤ len) then .raised .corruptHeader s
  else
    let n := (readCell s .pkt 0).toNat
    if n = 0 then .raised .corruptHeader s
    else if ! decide (n + 5 ≤ len) then .raised .corruptHeader s
    else
      let m := packedContentLength s n
      if ! decide (n + 5 + m ≤ len) then .raised .corruptHeader s
      else .done (unpackStore s n m)

/-- UNPACK (0x05). -/
def execUnpack (s : State) : Host.Outcome State Fault Refusal := runCommand unpackBody s

end Sys2Proof.Machine
end

