-- ==== Sys2Proof/Machine/Dispatch.lean ====
section
/-! DEFINITION. One arm per command of STEG-CMD (30_encoding.md R71). -/

namespace Sys2Proof.Machine

def exec (i : Instr) (s : State) : Host.Outcome State Fault Refusal :=
  match i with
  | .validateBits => Sys2Proof.Machine.execValidateBits s
  | .capacity => Sys2Proof.Machine.execCapacity s
  | .pack => Sys2Proof.Machine.execPack s
  | .packPad => Sys2Proof.Machine.execPackPad s
  | .unpack => Sys2Proof.Machine.execUnpack s
  | .writeHeader => Sys2Proof.Machine.execWriteHeader s
  | .writePayload => Sys2Proof.Machine.execWritePayload s
  | .readHeader => Sys2Proof.Machine.execReadHeader s
  | .readPayload => Sys2Proof.Machine.execReadPayload s

end Sys2Proof.Machine
end

