-- ==== Sys2Proof/Machine/HostMoves.lean ====
section
/-! DEFINITION. The register window and what each move of the host does (10_state.md R21, R22; 30_encoding.md R80). -/

namespace Sys2Proof.Machine

/-- The byte offset of a register's slot (10_state.md R21). -/
def Reg.offset : Reg → Nat
  | .cmd      => 0x00
  | .status   => 0x08
  | .bits     => 0x10
  | .chLen    => 0x18
  | .payLen   => 0x20
  | .nameLen  => 0x28
  | .contLen  => 0x30
  | .reqLen   => 0x38
  | .pktLen   => 0x40
  | .capBits  => 0x48
  | .capBytes => 0x50
  | .cur      => 0x58

/-- Every register of the window, in the order of their slots. -/
def Reg.all : List Reg :=
  [.cmd, .status, .bits, .chLen, .payLen, .nameLen, .contLen, .reqLen, .pktLen, .capBits, .capBytes, .cur]

/-- The register at a byte offset; none from 0x60 on (reserved) and between slots. -/
def Reg.atOffset (off : Nat) : Option Reg := Reg.all.find? (fun r => r.offset == off)

/-- A register as the host reads its 64-bit slot: bits above the register's width read as zero, `CMD` reads 0
(10_state.md R21, R22). -/
def readReg (s : State) : Reg → Word
  | .cmd      => 0
  | .status   => s.status.word.setWidth 64
  | .bits     => s.bits.setWidth 64
  | .chLen    => s.chLen
  | .payLen   => s.payLen
  | .nameLen  => s.nameLen
  | .contLen  => s.contLen.setWidth 64
  | .reqLen   => s.reqLen
  | .pktLen   => s.pktLen
  | .capBits  => s.capBits
  | .capBytes => s.capBytes
  | .cur      => s.cur

/-- A host read of the slot at an offset; reserved offsets read as zero (10_state.md R21). No side effect (20_memory.md R55). -/
def hostRead (s : State) (off : Nat) : Word :=
  match Reg.atOffset off with
  | some r => readReg s r
  | none   => 0

/-- A host read of a cell (20_memory.md R50, R55). At an index at or above `MAXLEN` there is no cell and the spec gives the
read no result: it has no bound here and answers the free value of an unwritten cell (DESIGN CHOICE, log entry 9). -/
def hostReadCell (s : State) (sp : Space) (i : Nat) : Byte := readCell s sp i

/-- A write of `CMD` (10_state.md R22): the decoded command runs; a reserved value ends at once with `IllegalCommand`
(60_exceptions.md R203). -/
def startCommand (w : Byte) (s : State) : Host.Outcome State Fault Refusal :=
  match decode w with
  | .ok i    => exec i s
  | .error _ => runCommand (fun t => .raised .illegalCommand t) s

/-- The answers a `DRAWS` line fixed are for the following command that draws, and only WRITE_PAYLOAD draws (00_scope.md
R16); surplus answers are unused (30_encoding.md R80; log entry 3). `w` is the byte written to `CMD`. -/
def dropDraws (w : Byte) : Host.Outcome State Fault Refusal → Host.Outcome State Fault Refusal
  | .next s    => .next (if w = encode .writePayload then s.withDraws [] else s)
  | .fault r   => .fault r
  | .refused r => .refused r

/-- A host write of a register's slot (10_state.md R21): bits above the register's width are ignored, a write to a
read-only register is ignored, a write of `CMD` starts a command. -/
def writeReg (s : State) (v : Word) : Reg → Host.Outcome State Fault Refusal
  | .cmd      => dropDraws (v.setWidth 8) (startCommand (v.setWidth 8) s)
  | .status   => .next s
  | .bits     => .next (s.withBits (v.setWidth 8))
  | .chLen    => .next (s.withChLen v)
  | .payLen   => .next (s.withPayLen v)
  | .nameLen  => .next (s.withNameLen v)
  | .contLen  => .next (s.withContLen (v.setWidth 32))
  | .reqLen   => .next (s.withReqLen v)
  | .pktLen   => .next (s.withPktLen v)
  | .capBits  => .next s
  | .capBytes => .next s
  | .cur      => .next s

/-- A host write at a byte offset of the window: offsets from 0x60 on ignore writes, an offset that is no slot is
refused (10_state.md R21; log entry 9). -/
def hostWrite (off : Nat) (v : Word) (s : State) : Host.Outcome State Fault Refusal :=
  if ! windowOffsetWf off then .refused .notASlot
  else match Reg.atOffset off with
    | some r => writeReg s v r
    | none   => .next s

/-- The host reads a slot and writes what it read to another (30_encoding.md R81). -/
def hostCopy (dst src : Nat) (s : State) : Host.Outcome State Fault Refusal :=
  if ! windowOffsetWf src then .refused .notASlot
  else hostWrite dst (hostRead s src) s

/-- A host store to `space[start ..)` (20_memory.md R50): cells at and above `MAXLEN` do not exist (log entry 9). -/
def hostStore (sp : Space) (start : Nat) (bytes : List Byte) (s : State) : Host.Outcome State Fault Refusal :=
  if bytes.isEmpty || decide (start + bytes.length ≤ s.params.maxLen) then .next (writeBytes s sp start bytes)
  else .fault .noSuchCell

/-- A move that accesses a register (other than a read of `STATUS`) or a cell; the host has none while `BUSY` is 1
(70_reset_and_hazards.md R250; log entry 6). -/
def whenIdle (s : State) (r : Host.Outcome State Fault Refusal) : Host.Outcome State Fault Refusal :=
  if s.status.busy then .refused .hostAccessWhileBusy else r

/-- What one move of the host does, the move already taken off the script. A `stopUnlessOk` that stops takes every later
move off too (DESIGN CHOICE, log entry 15). -/
def perform (a : HostAction) (s : State) : Host.Outcome State Fault Refusal :=
  match a with
  | .write off v          => whenIdle s (hostWrite off v s)
  | .copy dst src         => whenIdle s (hostCopy dst src s)
  | .store sp start bytes => whenIdle s (hostStore sp start bytes s)
  | .draws answers        => .next (s.withDraws answers)
  | .stopUnlessOk         => .next (if s.status.err = .ok then s else s.withScript [])
  | .reset                => .next (applyReset s)

end Sys2Proof.Machine
end

