-- ==== Sys2Proof/Machine/Step.lean ====
section
/-! DEFINITION. One step: the host's next move, or nothing while the host does nothing. -/

namespace Sys2Proof.Machine

/-- The next move of the host's script is taken and performed. The block executes nothing until the host writes `CMD`
(70_reset_and_hazards.md R241), so with no move pending the state stays as it is (log entry 1). -/
def step (s : State) : Host.Outcome State Fault Refusal :=
  match s.env.script with
  | []        => .next s
  | a :: rest => perform a (s.withScript rest)

/-- The state whose very next step is the write of the word `w` to `CMD` (10_state.md R22; log entry 1). -/
def State.withFetchWord (s : State) (nbits w : Nat) : State :=
  s.withScript (.write 0x00 (BitVec.ofNat 64 (w % 2 ^ nbits)) :: s.env.script)

end Sys2Proof.Machine
end

