-- ==== Sys2Proof/Machine/HostSequences.lean ====
section
/-! DEFINITION. The host's side: the script notation and macros of 30_encoding.md R80 and R81, and the procedures `hide`
and `reveal` of 45_host_sequences.md, as functions that play scripts on the machine. Nothing here is hardware. -/

namespace Sys2Proof.Machine

/-! ### Script lines (30_encoding.md R80) -/

/-- `SET reg, v`. -/
def setReg (r : Reg) (v : Word) : HostAction := .write r.offset v

/-- `LOAD space, bytes`. -/
def load (sp : Space) (bytes : List Byte) : HostAction := .store sp 0 bytes

/-- `CMD mnemonic`. -/
def issue (i : Instr) : HostAction := .write Reg.cmd.offset ((encode i).setWidth 64)

/-- `CMD 0xNN`. -/
def issueByte (w : Byte) : HostAction := .write Reg.cmd.offset (w.setWidth 64)

/-- The macro `WRITE b` (30_encoding.md R81). -/
def macroWrite (b : Byte) : List HostAction := [setReg .bits (b.setWidth 64), issue .writeHeader, issue .writePayload]

/-- The macro `READ` (30_encoding.md R81); it stops at the first command that ends with an error. -/
def macroRead : List HostAction :=
  [issue .readHeader, .stopUnlessOk, issue .capacity, .stopUnlessOk, .copy Reg.payLen.offset Reg.capBytes.offset,
    issue .readPayload]

/-- `k` steps of the machine, ended by the first stop. -/
def runSteps : Nat → State → Host.Outcome State Fault Refusal
  | 0, s => .next s
  | k + 1, s =>
    match step s with
    | .next t    => runSteps k t
    | .fault r   => .fault r
    | .refused r => .refused r

/-- The host plays a script: its moves become the pending ones, and the machine takes as many steps. -/
def play (moves : List HostAction) (s : State) : Host.Outcome State Fault Refusal :=
  runSteps moves.length (s.withScript moves)

/-! ### The external collaborators (45_host_sequences.md R182, R183) -/

/-- The AEAD provider: two uninterpreted functions of the key and a byte string. -/
structure Aead where
  encrypt : List Byte → List Byte → List Byte
  decrypt : List Byte → List Byte → Option (List Byte)

/-- The provider's contract (45_host_sequences.md R182), for a 32-byte key. -/
def Aead.Lawful (a : Aead) : Prop :=
  ∀ key plain, key.length = 32 →
    (a.encrypt key plain).length = plain.length + 28 ∧ a.decrypt key (a.encrypt key plain) = some plain

/-- How a host procedure fails: an error of the hardware (60_exceptions.md R200), one of the host's own
(60_exceptions.md R201), or the machine stopped on a move. -/
inductive HostFailure where
  | hardware (e : ErrCode)
  | fileTooLarge
  | encryptionSizeMismatch
  | roundtripVerificationFailed
  | authenticationFailed
  | stopped
deriving DecidableEq, Repr

/-- What a host procedure gives: the machine it leaves, and its result or its failure. -/
structure HostRun (α : Type) where
  state  : State
  result : Except HostFailure α

/-- Play a script whose last move is a command; go on with `k` if the command ended with `OK`, else fail with the
error under the host's name for it ("stopping at the first error"). Where the machine stops on a move of the script (a
load past `MAXLEN`), the spec does not say which machine is left: it is the one the script began on (DESIGN CHOICE, log
entry 12). -/
def HostRun.after {α : Type} (moves : List HostAction) (rename : ErrCode → HostFailure) (s : State)
    (k : State → HostRun α) : HostRun α :=
  match play moves s with
  | .next t    => if t.status.err = .ok then k t else { state := t, result := .error (rename t.status.err) }
  | .fault _   => { state := s, result := .error .stopped }
  | .refused _ => { state := s, result := .error .stopped }

/-- `LengthTooSmall` from PACK_PAD is reported as `FileTooLarge` (45_host_sequences.md R189). -/
def renameInHide : ErrCode → HostFailure
  | .lengthTooSmall => .fileTooLarge
  | e               => .hardware e

/-! ### hide (45_host_sequences.md R184) -/

/-- Step 1 of `hide`. -/
def hideStep1 (pixels : List Byte) (bitsTaken : Byte) : List HostAction :=
  [load .chan pixels, setReg .chLen (BitVec.ofNat 64 pixels.length), setReg .bits (bitsTaken.setWidth 64), issue .capacity]

/-- Step 2 of `hide`; `cap` is the `CAP_BYTES` of step 1, and `cap - 28` may be negative. -/
def hideStep2 (name content : List Byte) (cap : Int) : List HostAction :=
  [load .name name, setReg .nameLen (BitVec.ofNat 64 name.length), load .cont content,
    setReg .contLen (BitVec.ofNat 64 content.length), setReg .reqLen (BitVec.ofInt 64 (cap - 28)), issue .packPad]

/-- The first half of step 4 of `hide`. -/
def hideStep4a (ciphertext : List Byte) : List HostAction :=
  [load .pay ciphertext, setReg .payLen (BitVec.ofNat 64 ciphertext.length), issue .writeHeader]

/-- The second half of step 4; `answers` are what the random source gives first (30_encoding.md R80). -/
def hideStep4b (answers : List Byte) : List HostAction := [.draws answers, issue .writePayload]

/-- `hide(pixelBuffer, file, key, bitsTaken)`: the encoded buffer. `pipeline` is what rendering and decoding again make
of a buffer (R183, R186); the name is already UTF-8 encoded (41_filepacker.md R113). -/
def hide (aead : Aead) (pipeline : List Byte → List Byte) (key pixels name content : List Byte) (bitsTaken : Byte)
    (answers : List Byte) (s : State) : HostRun (List Byte) :=
  HostRun.after (hideStep1 pixels bitsTaken) .hardware s fun s₁ =>
  HostRun.after (hideStep2 name content s₁.capBytes.toInt) renameInHide s₁ fun s₂ =>
  let ciphertext := aead.encrypt key (readBytes s₂ .pkt 0 s₂.pktLen.toNat)
  if (ciphertext.length : Int) ≠ s₁.capBytes.toInt then
    { state := s₂, result := .error .encryptionSizeMismatch }
  else
  HostRun.after (hideStep4a ciphertext) .hardware s₂ fun s₃ =>
  HostRun.after (hideStep4b answers) .hardware s₃ fun s₄ =>
  let encoded := readBytes s₄ .chan 0 s₄.chLen.toNat
  if pipeline encoded = encoded then { state := s₄, result := .ok encoded }
  else { state := s₄, result := .error .roundtripVerificationFailed }

/-- The default `bitsTaken` of `hide` (45_host_sequences.md R184). -/
def defaultBitsTaken : Byte := 1

/-- `hide(pixelBuffer, file, key)`, `bitsTaken` left out (45_host_sequences.md R184). -/
def hideByDefault (aead : Aead) (pipeline : List Byte → List Byte) (key pixels name content answers : List Byte)
    (s : State) : HostRun (List Byte) :=
  hide aead pipeline key pixels name content defaultBitsTaken answers s

/-! ### reveal (45_host_sequences.md R187) -/

/-- Step 1 of `reveal`. -/
def revealStep1 (pixels : List Byte) : List HostAction :=
  [load .chan pixels, setReg .chLen (BitVec.ofNat 64 pixels.length), issue .readHeader]

/-- Step 2 of `reveal`: CAPACITY with the `BITS` just recovered. -/
def revealStep2 : List HostAction := [issue .capacity]

/-- Step 3 of `reveal`; `cap` is the `CAP_BYTES` of step 2. -/
def revealStep3 (cap : Word) : List HostAction := [setReg .payLen cap, issue .readPayload]

/-- Step 5 of `reveal`. -/
def revealStep5 (packed : List Byte) : List HostAction :=
  [load .pkt packed, setReg .pktLen (BitVec.ofNat 64 packed.length), issue .unpack]

/-- `reveal(pixelBuffer, key)`: the name bytes and the content. -/
def reveal (aead : Aead) (key pixels : List Byte) (s : State) : HostRun (List Byte × List Byte) :=
  HostRun.after (revealStep1 pixels) .hardware s fun s₁ =>
  HostRun.after revealStep2 .hardware s₁ fun s₂ =>
  HostRun.after (revealStep3 s₂.capBytes) .hardware s₂ fun s₃ =>
  match aead.decrypt key (readBytes s₃ .pay 0 s₃.payLen.toNat) with
  | none => { state := s₃, result := .error .authenticationFailed }
  | some packed =>
    HostRun.after (revealStep5 packed) .hardware s₃ fun s₄ =>
    { state := s₄, result := .ok (readBytes s₄ .name 0 s₄.nameLen.toNat, readBytes s₄ .cont 0 s₄.contLen.toNat) }

/-- What the host tells its user of a failure of `reveal`: a wrong key and a wrong format look the same
(45_host_sequences.md R188). -/
def revealReport : HostFailure → HostFailure
  | .hardware .corruptHeader  => .authenticationFailed
  | .hardware .bitsOutOfRange => .authenticationFailed
  | f                         => f

end Sys2Proof.Machine
end

