-- ==== Sys2Proof/Safety.lean ====
section
/-! DEFINITION. What claims are stated in: the end of a command, the bit streams of payload and channels, the draws, the
invariant of the machine, and which states are good. -/

namespace Sys2Proof.Machine

/-- `s` as a command leaves it that ends with `e` and writes nothing but `STATUS`: `BUSY` 0, `DONE` 1, `ERR` = `e`
(10_state.md R27, 60_exceptions.md R206). -/
def State.ended (s : State) (e : ErrCode) : State :=
  { s with status := { s.status with busy := false, done := true, err := e } }

/-- `N`, the number of usable channels of a buffer of at least one pixel (00_scope.md R18). -/
def usableCount (s : State) : Nat := 3 * (s.chLen.toNat / 4 - 1)

/-- Payload bit `t`: bit `7 - (t mod 8)` of `PAY[t div 8]` (30_encoding.md R76). -/
def payloadBit (s : State) (t : Nat) : Bool := (readCell s .pay (t / 8)).getLsbD (7 - t % 8)

/-- Bit `t` of the channel bit stream at depth `b`: bit `b - 1 - (t mod b)` of `CHAN[idx(t div b)]`
(43_cursor_read.md R167). -/
def channelBit (s : State) (b t : Nat) : Bool := (readCell s .chan (usableIndex (t / b))).getLsbD (b - 1 - t % b)

/-- The answer of the `k`-th `Draw()` from now on (00_scope.md R16). -/
def drawAt (s : State) (k : Nat) : Byte :=
  match s.env.draws[k]? with
  | some v => v
  | none   => Config.drawByte (s.env.drawCount + k)

/-- Bit `q` of what WRITE_PAYLOAD puts into usable channel `j` at depth `b`: payload bits first, then filler, one draw
for every channel that needs any (42_cursor_write.md R147, 30_encoding.md R76, R77). -/
def writtenBit (s : State) (b j q : Nat) : Bool :=
  let t := j * b + (b - 1 - q)
  if t < 8 * s.payLen.toNat then payloadBit s t else (drawAt s (j - 8 * s.payLen.toNat / b)).getLsbD q

/-- What holds in every state the host can observe, whatever it does (10_state.md R23, R28, R29; 42_cursor_write.md
R131; 40_capacity.md R102; 60_exceptions.md R207). -/
structure Inv (s : State) : Prop where
  /-- `4 <= MAXLEN <= 2^56` (00_scope.md R9). -/
  params : s.params.wf = true
  /-- `BUSY` is 0 in every state the host can observe (10_state.md R23). -/
  idle : s.status.busy = false
  /-- `PHASE == 1` implies `CUR == 4` and `1 <= BT <= 8` (10_state.md R28). -/
  latched : s.status.phase = .hdr → s.cur = 4 ∧ 1 ≤ s.bt.toNat ∧ s.bt.toNat ≤ 8
  /-- `PHASE == 0` implies `BT == 0` (10_state.md R28). -/
  unlatched : s.status.phase = .idle → s.bt = 0
  /-- The fatal state is the one `CursorMismatch` left (60_exceptions.md R207, R208). -/
  fatal : s.status.fatal = true ↔ s.status.err = .cursorMismatch
  /-- No write sequence is pending in the fatal state (60_exceptions.md R207). -/
  fatalIdle : s.status.fatal = true → s.status.phase = .idle
  /-- Before the first command has ended no error is reported (10_state.md R35). -/
  fresh : s.status.done = false → s.status.err = .ok ∧ s.status.phase = .idle
  /-- The cursor rests on the first channel of a pixel or at the end of a buffer (42_cursor_write.md R131). -/
  cursor : s.cur.toNat % 4 = 0 ∧ s.cur.toNat ≤ s.params.maxLen
  /-- `ACC` bits at and above `ACCBITS` are zero (10_state.md R29). -/
  accumulator : s.accBits.toNat ≤ 8 ∧ s.acc.toNat < 2 ^ s.accBits.toNat
  /-- The capacity pair is consistent and in range (40_capacity.md R101, R102). -/
  capacity : s.capBytes.toInt = s.capBits.toInt / 8 ∧ -24 ≤ s.capBits.toInt ∧ s.capBits.toInt < 2 ^ 59
  /-- Every memory is in its canonical form, inside `0 .. MAXLEN-1` (20_memory.md R50). -/
  memory : ∀ sp, Memory.wf (s.mem sp) ∧ ∀ c ∈ s.mem sp, c.1 < s.params.maxLen

/-- A successful run contains no fatal error (60_exceptions.md R208). -/
def Safe (s : State) : Prop := s.status.fatal = false

end Sys2Proof.Machine
end

