-- ==== Sys2Proof/Certificates/Slice0/Obligations.lean ====
section
/-! DEFINITION. The statements for the provers. `s.ended e` (Safety.lean) is `s` with `BUSY` 0, `DONE` 1 and `ERR` = `e`
and nothing else changed. A state written `{ s.ended .ok with chan := t.chan, … }` says that every register and space
not named is as before. -/

open Sys2Proof Sys2Proof.Machine

/-! ### Encoding, reset, the step -/

/-- The opcode map, whole (30_encoding.md R71): nine codes, every other value of the byte reserved. -/
def Obligations.OpcodeMapIsTheTable : Prop :=
  (∀ (w : Byte) (i : Instr), decode w = .ok i ↔ (w, i) ∈
    [((0x01 : Byte), Instr.validateBits), (0x02, .capacity), (0x03, .pack), (0x04, .packPad), (0x05, .unpack),
      (0x06, .writeHeader), (0x07, .writePayload), (0x08, .readHeader), (0x09, .readPayload)]) ∧
  (∀ w : Byte, (∃ e, decode w = .error e) ↔ w.toNat = 0x00 ∨ 0x0A ≤ w.toNat)

/-- A program's bytes decode to its commands and to nothing else (30_encoding.md R80: the encoding of a script is the
sequence of bytes written to `CMD`). -/
def Obligations.ProgramEncodingRoundTrip : Prop :=
  ∀ (bytes : List Byte) (is : List Instr), decodeProgram bytes = .ok is ↔ bytes = is.map encode

/-- The state after reset (10_state.md R35): every register, and no cell with a known byte. -/
def Obligations.ResetLeavesTheSpecifiedState : Prop :=
  readReg State.reset .cmd = 0 ∧ State.reset.status.word = 0x0000 ∧ State.reset.bits = 1 ∧ State.reset.chLen = 0 ∧
  State.reset.payLen = 0 ∧ State.reset.nameLen = 0 ∧ State.reset.contLen = 0 ∧ State.reset.reqLen = 0 ∧
  State.reset.pktLen = 0 ∧ State.reset.capBits = 0 ∧ State.reset.capBytes = 0 ∧ State.reset.cur = 0 ∧
  State.reset.bt = 0 ∧ State.reset.acc = 0 ∧ State.reset.accBits = 0 ∧
  ∀ sp i, Memory.read (State.reset.mem sp) i = none ∧ readCell State.reset sp i = Config.unwrittenByte 0 sp i

/-- A step whose next host move is a write of `CMD` runs the command the decoder reads from the low 8 bits of the slot,
on the state with that move taken off the script, and the command answers a next state; after WRITE_PAYLOAD the answers a `DRAWS` line fixed for it are gone
(10_state.md R22; log entries 1 and 3). -/
def Obligations.StepRunsTheDecodedCommand : Prop :=
  ∀ (s : State) (v : Word) (rest : List HostAction) (i : Instr),
    s.env.script = .write 0x00 v :: rest → s.status.busy = false → decode (v.setWidth 8) = .ok i →
    ∃ t, exec i (s.withScript rest) = .next t ∧
      step s = .next (if i = .writePayload then t.withDraws [] else t)

/-- A reserved command value ends at once with `IllegalCommand` and changes nothing else (60_exceptions.md R203). -/
def Obligations.ReservedCommandValueIsIllegal : Prop :=
  ∀ (s : State) (v : Word) (rest : List HostAction),
    s.env.script = .write 0x00 v :: rest → s.status.busy = false → s.status.fatal = false →
    ((v.setWidth 8).toNat = 0x00 ∨ 0x0A ≤ (v.setWidth 8).toNat) →
    step s = .next ((s.withScript rest).ended .illegalCommand)

/-- While `FATAL` is 1 a write of `CMD`, of any value, changes no register, no `STATUS` field and no cell
(60_exceptions.md R208, first sentence); only the host's answers for a WRITE_PAYLOAD may be gone. -/
def Obligations.FatalStateRefusesEveryCommand : Prop :=
  ∀ s : State, s.status.fatal = true →
    (∀ i, exec i s = .next s) ∧
    ∀ (v : Word) (rest : List HostAction), s.env.script = .write 0x00 v :: rest → s.status.busy = false →
      ∃ answers, step s = .next ((s.withScript rest).withDraws answers)

/-- `STATUS` as the host reads it, and the numeric error codes (10_state.md R23, field table; 60_exceptions.md R200,
code column). -/
def Obligations.StatusWordLayout : Prop :=
  (∀ st : Status, st.word.getLsbD 0 = st.busy ∧ st.word.getLsbD 1 = st.done ∧ st.word.getLsbD 2 = st.fatal ∧
    st.word.getLsbD 3 = decide (st.phase = .hdr) ∧ st.word.toNat / 16 % 16 = 0 ∧ st.word.toNat / 256 = st.err.code.toNat) ∧
  (ErrCode.ok.code = 0x00 ∧ ErrCode.bitsOutOfRange.code = 0x01 ∧ ErrCode.invalidName.code = 0x02 ∧
    ErrCode.lengthTooSmall.code = 0x03 ∧ ErrCode.corruptHeader.code = 0x04 ∧ ErrCode.cursorMismatch.code = 0x05 ∧
    ErrCode.lengthInvalid.code = 0x06 ∧ ErrCode.illegalCommand.code = 0x07)

/-! ### The register window, the memories, reset as a move -/

/-- The registers the host may write, with their widths (10_state.md R21). -/
def Sys2Proof.Machine.Reg.writableWidth : Reg → Option Nat
  | .bits => some 8
  | .contLen => some 32
  | .chLen | .payLen | .nameLen | .reqLen | .pktLen => some 64
  | .cmd | .status | .capBits | .capBytes | .cur => none

/-- The register window (10_state.md R21): each slot reads the register the table puts there, zero-extended; a write of a
writable slot is read back cut to the register's width, in that slot and so in that register, and no other slot, cell,
internal register or environment field changes; read-only slots ignore writes; `CMD` reads 0; offsets from 0x60 on read
as zero and ignore writes. -/
def Obligations.RegisterWindow : Prop :=
  (Reg.all.map Reg.offset = [0x00, 0x08, 0x10, 0x18, 0x20, 0x28, 0x30, 0x38, 0x40, 0x48, 0x50, 0x58]) ∧
  ∀ (s : State) (v : Word),
    (∀ r w, Reg.writableWidth r = some w → ∃ t, hostWrite r.offset v s = .next t ∧
      (hostRead t r.offset).toNat = v.toNat % 2 ^ w ∧ (∀ r', r' ≠ r → hostRead t r'.offset = hostRead s r'.offset) ∧
      t.mem = s.mem ∧ t.bt = s.bt ∧ t.acc = s.acc ∧ t.accBits = s.accBits ∧ t.params = s.params ∧ t.env = s.env ∧
      t.status = s.status) ∧
    (∀ r, r ∈ [Reg.status, .capBits, .capBytes, .cur] → hostWrite r.offset v s = .next s) ∧
    hostRead s 0x00 = 0 ∧
    (hostRead s 0x08).toNat = s.status.word.toNat ∧ (hostRead s 0x10).toNat = s.bits.toNat ∧
    hostRead s 0x18 = s.chLen ∧ hostRead s 0x20 = s.payLen ∧ hostRead s 0x28 = s.nameLen ∧
    (hostRead s 0x30).toNat = s.contLen.toNat ∧ hostRead s 0x38 = s.reqLen ∧ hostRead s 0x40 = s.pktLen ∧
    hostRead s 0x48 = s.capBits ∧ hostRead s 0x50 = s.capBytes ∧ hostRead s 0x58 = s.cur ∧
    ∀ off, 0x60 ≤ off → hostRead s off = 0 ∧ hostWrite off v s = .next s

/-- A host store puts its bytes at `start ..` of the one space it names and changes no other cell of any space and no
register; a store that reaches a cell at or above `MAXLEN` stops (20_memory.md R50, R67; log entry 9). -/
def Obligations.HostStoreWritesItsCellsOnly : Prop :=
  ∀ (s : State) (sp : Space) (start : Nat) (bytes : List Byte) (rest : List HostAction),
    s.env.script = .store sp start bytes :: rest → s.status.busy = false →
    (start + bytes.length ≤ s.params.maxLen → ∃ t, step s = .next t ∧
      t = (s.withScript rest).withMem sp (t.mem sp) ∧
      ∀ sp' k, readCell t sp' k =
        if sp' = sp ∧ start ≤ k ∧ k < start + bytes.length then bytes.getD (k - start) 0 else readCell s sp' k) ∧
    (s.params.maxLen < start + bytes.length → bytes ≠ [] → step s = .fault .noSuchCell)

/-- The reset move (70_reset_and_hazards.md R240): from every state, busy or fatal or not, every register is as after
reset and no cell of any space holds a known byte. The parameters and the host's other moves stay (the model's choice,
log entry 11). -/
def Obligations.ResetMovePutsEveryRegisterAtReset : Prop :=
  ∀ (s : State) (rest : List HostAction), s.env.script = .reset :: rest →
    ∃ t, step s = .next t ∧ t = { State.reset with params := s.params, env := t.env } ∧ t.env.script = rest ∧
      ∀ sp i, readCell t sp i = Config.unwrittenByte (s.env.resets + 1) sp i

/-- Only reset leaves the fatal state (60_exceptions.md R207, last sentence; R209). -/
def Obligations.OnlyResetClearsFatal : Prop :=
  ∀ s t : State, step s = .next t → s.status.fatal = true → t.status.fatal = true ∨
    ∃ rest, s.env.script = .reset :: rest

/-- Every move of the host that is well formed is performed while no command runs, and every command ends: `BUSY` is 0
again (70_reset_and_hazards.md R260, last sentence). Any other move stops under its own name (log entries 6 and 9). -/
def Obligations.EveryHostMoveEnds : Prop :=
  ∀ (s : State) (a : HostAction) (rest : List HostAction), s.env.script = a :: rest → s.status.busy = false →
    (a.wf s.params = true → ∃ t, step s = .next t ∧ t.status.busy = false) ∧
    (a.wf s.params = false → step s = .refused .notASlot ∨ step s = .fault .noSuchCell)

/-- No step changes the parameters (10_state.md R34). -/
def Obligations.StepsKeepTheParameters : Prop :=
  ∀ s t : State, step s = .next t → t.params = s.params

/-- The block's own state moves only by a write of `CMD` or by reset (70_reset_and_hazards.md R240, first sentence;
R241): any other move of the host leaves `STATUS`, the read-only registers and the internal registers as they are. -/
def Obligations.OnlyCommandsAndResetRunTheBlock : Prop :=
  ∀ s t : State, step s = .next t →
    (∀ a rest, s.env.script = a :: rest → a ≠ .reset ∧ (∀ v, a ≠ .write 0x00 v) ∧ ∀ src, a ≠ .copy 0x00 src) →
    t.status = s.status ∧ t.cur = s.cur ∧ t.bt = s.bt ∧ t.acc = s.acc ∧ t.accBits = s.accBits ∧
    t.capBits = s.capBits ∧ t.capBytes = s.capBytes ∧ t.params = s.params ∧ t.env.resets = s.env.resets ∧
    (s.env.script = [] → t = s)

/-! ### The invariant -/

/-- The invariant of Safety.lean holds at reset. -/
def Obligations.InvariantHoldsAtReset : Prop := Inv State.reset

/-- Every step keeps it, whatever the host does: in particular `PHASE == 1` implies `CUR == 4` and `1 <= BT <= 8`, and
`PHASE == 0` implies `BT == 0` (10_state.md R28). -/
def Obligations.EveryStepKeepsTheInvariant : Prop :=
  ∀ s t : State, Inv s → step s = .next t → Inv t

/-! ### What every command keeps to -/

/-- A recoverable error changes `ERR`, `DONE` (and `BUSY`) and nothing else (60_exceptions.md R206), whether a command
raised it or the decoder did. -/
def Obligations.RecoverableErrorsChangeNothingElse : Prop :=
  ∀ s t : State, s.status.fatal = false → t.status.err ≠ .ok → t.status.err ≠ .cursorMismatch →
    (∀ i, exec i s = .next t → t = s.ended t.status.err) ∧ ∀ w, startCommand w s = .next t → t = s.ended t.status.err

/-- The errors each command can end with (60_exceptions.md R211). -/
def Obligations.ErrorsOfEachCommand : Prop :=
  ∀ (i : Instr) (s t : State), s.status.fatal = false → exec i s = .next t → t.status.err ∈ ErrCode.ok ::
    match i with
    | .validateBits => [.bitsOutOfRange]
    | .capacity     => [.bitsOutOfRange, .lengthInvalid]
    | .pack         => [.invalidName, .lengthInvalid]
    | .packPad      => [.invalidName, .lengthInvalid, .lengthTooSmall]
    | .unpack       => [.lengthInvalid, .corruptHeader]
    | .writeHeader  => [.bitsOutOfRange, .lengthInvalid]
    | .writePayload => [.illegalCommand, .lengthInvalid, .cursorMismatch]
    | .readHeader   => [.lengthInvalid]
    | .readPayload  => [.bitsOutOfRange, .lengthInvalid]

/-- The entry of the fatal error: only WRITE_PAYLOAD raises it, and it leaves `ERR` 0x05, `FATAL` 1, `PHASE` 0, `DONE` 1,
`BUSY` 0 and `BT` 0 (60_exceptions.md R207). -/
def Obligations.FatalErrorEntry : Prop :=
  ∀ (i : Instr) (s t : State), s.status.fatal = false → exec i s = .next t →
    (t.status.fatal = true ∨ t.status.err = .cursorMismatch) →
    i = .writePayload ∧ t.bt = 0 ∧
      t.status = { busy := false, done := true, fatal := true, phase := .idle, err := .cursorMismatch }

/-- The cells a command may write (20_memory.md R58, column Writes). -/
def Sys2Proof.Machine.writesCell (s : State) (i : Instr) (sp : Space) (k : Nat) : Prop :=
  match i with
  | .validateBits | .capacity | .readHeader => False
  | .pack         => sp = .pkt ∧ k < 5 + s.nameLen.toNat + s.contLen.toNat
  | .packPad      => sp = .pkt ∧ (k : Int) < s.reqLen.toInt
  | .unpack       => (sp = .name ∧ k < (readCell s .pkt 0).toNat) ∨
      (sp = .cont ∧ k < packedContentLength s (readCell s .pkt 0).toNat)
  | .writeHeader  => sp = .chan ∧ k < 4
  | .writePayload => sp = .chan ∧ 4 ≤ k ∧ k < s.chLen.toNat
  | .readPayload  => sp = .pay ∧ k < s.payLen.toNat

/-- The frame of every command (10_state.md R36, with the table of R26 for registers and of 20_memory.md R58 for cells).
The premise on a pending header is the invariant of R28, stated in `EveryStepKeepsTheInvariant`. -/
def Obligations.CommandsChangeOnlyWhatTheyList : Prop :=
  ∀ (i : Instr) (s t : State), s.status.fatal = false →
    (s.status.phase = .hdr → s.cur = 4 ∧ 1 ≤ s.bt.toNat ∧ s.bt.toNat ≤ 8) → exec i s = .next t →
    (i ≠ .readHeader → t.bits = s.bits) ∧ t.chLen = s.chLen ∧ t.payLen = s.payLen ∧
    (i ≠ .unpack → t.nameLen = s.nameLen ∧ t.contLen = s.contLen) ∧ t.reqLen = s.reqLen ∧
    (i ≠ .pack → i ≠ .packPad → t.pktLen = s.pktLen) ∧
    (i ≠ .capacity → t.capBits = s.capBits ∧ t.capBytes = s.capBytes) ∧
    (i ≠ .writeHeader → i ≠ .writePayload → i ≠ .readPayload →
      t.cur = s.cur ∧ t.bt = s.bt ∧ t.status.phase = s.status.phase) ∧
    (i ≠ .writePayload → i ≠ .readPayload → t.acc = s.acc ∧ t.accBits = s.accBits) ∧
    (i ≠ .writePayload → t.status.fatal = false ∧ t.env = s.env) ∧
    t.status.busy = false ∧ t.status.done = true ∧
    t.params = s.params ∧ t.env.resets = s.env.resets ∧ t.env.script = s.env.script ∧
    ∀ sp k, ¬ writesCell s i sp k → readCell t sp k = readCell s sp k

/-! ### CapacityModel -/

/-- VALIDATE_BITS, whole (40_capacity.md R100): the check, and that every command that reads `BITS` makes it before
anything else. -/
def Obligations.ValidateBitsOutcome : Prop :=
  ∀ s : State, s.status.fatal = false →
    (1 ≤ s.bits.toNat ∧ s.bits.toNat ≤ 8 → exec .validateBits s = .next (s.ended .ok)) ∧
    (¬ (1 ≤ s.bits.toNat ∧ s.bits.toNat ≤ 8) →
      exec .validateBits s = .next (s.ended .bitsOutOfRange) ∧ exec .capacity s = .next (s.ended .bitsOutOfRange) ∧
      exec .writeHeader s = .next (s.ended .bitsOutOfRange) ∧ exec .readPayload s = .next (s.ended .bitsOutOfRange))

/-- CAPACITY, whole (40_capacity.md R103, R101, R102): both errors in their order, and the two results as signed
integers, `/ 8` on `Int` being the floor division. -/
def Obligations.CapacityOutcome : Prop :=
  ∀ s : State, s.status.fatal = false → s.params.wf = true →
    (¬ (1 ≤ s.bits.toNat ∧ s.bits.toNat ≤ 8) → exec .capacity s = .next (s.ended .bitsOutOfRange)) ∧
    (1 ≤ s.bits.toNat ∧ s.bits.toNat ≤ 8 → ¬ (s.chLen.toNat % 4 = 0 ∧ s.chLen.toNat ≤ s.params.maxLen) →
      exec .capacity s = .next (s.ended .lengthInvalid)) ∧
    (1 ≤ s.bits.toNat ∧ s.bits.toNat ≤ 8 → s.chLen.toNat % 4 = 0 ∧ s.chLen.toNat ≤ s.params.maxLen →
      ∃ cb cB : Word, exec .capacity s = .next { s.ended .ok with capBits := cb, capBytes := cB } ∧
        cb.toInt = ((s.chLen.toNat : Int) / 4 - 1) * 3 * (s.bits.toNat : Int) ∧
        cB.toInt = ((s.chLen.toNat : Int) / 4 - 1) * 3 * (s.bits.toNat : Int) / 8)

/-- CAPACITY depends on `CHLEN`, `BITS` and `MAXLEN` alone; at a fixed depth it grows with the length, and from one pixel
on with both (40_capacity.md section 5). For `CHLEN = 0` the table of R105 itself shows `bits` falling as `b` grows, so
growth in `b` is stated from `CHLEN = 4` on. -/
def Obligations.CapacityDependsOnLengthAndDepth : Prop :=
  (∀ s t s' t' : State, s.status.fatal = false → t.status.fatal = false → s.chLen = t.chLen → s.bits = t.bits →
    s.params.maxLen = t.params.maxLen → exec .capacity s = .next s' → exec .capacity t = .next t' →
    s'.status.err = t'.status.err ∧
      (s'.status.err = .ok → s'.capBits = t'.capBits ∧ s'.capBytes = t'.capBytes)) ∧
  (∀ L L' b : Nat, L % 4 = 0 → L' % 4 = 0 → L ≤ L' → 1 ≤ b → b ≤ 8 →
    capacityBits L b ≤ capacityBits L' b ∧ capacityBytes L b ≤ capacityBytes L' b) ∧
  (∀ L L' b b' : Nat, L % 4 = 0 → L' % 4 = 0 → 4 ≤ L → L ≤ L' → 1 ≤ b → b ≤ b' → b' ≤ 8 →
    capacityBits L b ≤ capacityBits L' b' ∧ capacityBytes L b ≤ capacityBytes L' b')

/-- The fit law (40_capacity.md R104); `(8 * n + b - 1) / b` is the ceiling of `8 * n / b`. -/
def Obligations.FitLaw : Prop :=
  ∀ L b n : Nat, L % 4 = 0 → 4 ≤ L → 1 ≤ b → b ≤ 8 →
    ((n : Int) ≤ capacityBytes L b ↔ 8 * (n : Int) ≤ capacityBits L b) ∧
    (8 * (n : Int) ≤ capacityBits L b ↔ (((8 * n + b - 1) / b : Nat) : Int) ≤ usableChannels L) ∧
    capacityBits L b - 8 * capacityBytes L b = capacityBits L b % 8 ∧
    0 ≤ capacityBits L b - 8 * capacityBytes L b ∧ capacityBits L b - 8 * capacityBytes L b ≤ 7

/-! ### FilePacker -/

/-- What `PackBody` leaves in `PKT[0 .. 5 + n + m)` (30_encoding.md R73, 41_filepacker.md R110). -/
def Sys2Proof.Machine.PackedIn (s t : State) : Prop :=
  readCell t .pkt 0 = BitVec.ofNat 8 s.nameLen.toNat ∧
  (∀ k, k < s.nameLen.toNat → readCell t .pkt (1 + k) = readCell s .name k) ∧
  readCell t .pkt (1 + s.nameLen.toNat) = BitVec.ofNat 8 (s.contLen.toNat / 2 ^ 24) ∧
  readCell t .pkt (2 + s.nameLen.toNat) = BitVec.ofNat 8 (s.contLen.toNat / 2 ^ 16) ∧
  readCell t .pkt (3 + s.nameLen.toNat) = BitVec.ofNat 8 (s.contLen.toNat / 2 ^ 8) ∧
  readCell t .pkt (4 + s.nameLen.toNat) = BitVec.ofNat 8 s.contLen.toNat ∧
  ∀ k, k < s.contLen.toNat → readCell t .pkt (5 + s.nameLen.toNat + k) = readCell s .cont k

/-- PACK, whole (41_filepacker.md R110). -/
def Obligations.PackOutcome : Prop :=
  ∀ s : State, s.status.fatal = false →
    (¬ (1 ≤ s.nameLen.toNat ∧ s.nameLen.toNat ≤ 255) → exec .pack s = .next (s.ended .invalidName)) ∧
    (1 ≤ s.nameLen.toNat ∧ s.nameLen.toNat ≤ 255 → s.params.maxLen < 5 + s.nameLen.toNat + s.contLen.toNat →
      exec .pack s = .next (s.ended .lengthInvalid)) ∧
    (1 ≤ s.nameLen.toNat ∧ s.nameLen.toNat ≤ 255 → 5 + s.nameLen.toNat + s.contLen.toNat ≤ s.params.maxLen →
      ∃ t, exec .pack s = .next t ∧ t = { s.ended .ok with pktLen := t.pktLen, pkt := t.pkt } ∧
        t.pktLen.toNat = 5 + s.nameLen.toNat + s.contLen.toNat ∧ PackedIn s t ∧
        ∀ k, 5 + s.nameLen.toNat + s.contLen.toNat ≤ k → readCell t .pkt k = readCell s .pkt k)

/-- PACK_PAD, whole (41_filepacker.md R114); `REQLEN` is compared as a signed number. -/
def Obligations.PackPadOutcome : Prop :=
  ∀ s : State, s.status.fatal = false →
    (¬ (1 ≤ s.nameLen.toNat ∧ s.nameLen.toNat ≤ 255) → exec .packPad s = .next (s.ended .invalidName)) ∧
    (1 ≤ s.nameLen.toNat ∧ s.nameLen.toNat ≤ 255 →
      (s.params.maxLen < 5 + s.nameLen.toNat + s.contLen.toNat → exec .packPad s = .next (s.ended .lengthInvalid)) ∧
      (5 + s.nameLen.toNat + s.contLen.toNat ≤ s.params.maxLen →
        (s.reqLen.toInt < 5 + (s.nameLen.toNat : Int) + s.contLen.toNat →
          exec .packPad s = .next (s.ended .lengthTooSmall)) ∧
        (5 + (s.nameLen.toNat : Int) + s.contLen.toNat ≤ s.reqLen.toInt → (s.params.maxLen : Int) < s.reqLen.toInt →
          exec .packPad s = .next (s.ended .lengthInvalid)) ∧
        (5 + (s.nameLen.toNat : Int) + s.contLen.toNat ≤ s.reqLen.toInt → s.reqLen.toInt ≤ (s.params.maxLen : Int) →
          ∃ t, exec .packPad s = .next t ∧ t = { s.ended .ok with pktLen := s.reqLen, pkt := t.pkt } ∧ PackedIn s t ∧
            (∀ k, 5 + s.nameLen.toNat + s.contLen.toNat ≤ k → (k : Int) < s.reqLen.toInt → readCell t .pkt k = 0) ∧
            ∀ k : Nat, s.reqLen.toInt ≤ (k : Int) → readCell t .pkt k = readCell s .pkt k)))

/-- UNPACK, whole (41_filepacker.md R118), `n` and `m` being the decoded lengths (30_encoding.md R74). -/
def Obligations.UnpackOutcome : Prop :=
  ∀ (s : State) (n m : Nat), s.status.fatal = false → n = (readCell s .pkt 0).toNat →
    m = (readCell s .pkt (1 + n)).toNat * 2 ^ 24 + (readCell s .pkt (2 + n)).toNat * 2 ^ 16 +
      (readCell s .pkt (3 + n)).toNat * 2 ^ 8 + (readCell s .pkt (4 + n)).toNat →
    (s.params.maxLen < s.pktLen.toNat → exec .unpack s = .next (s.ended .lengthInvalid)) ∧
    (s.pktLen.toNat ≤ s.params.maxLen →
      (s.pktLen.toNat < 1 ∨ n = 0 ∨ s.pktLen.toNat < n + 5 ∨ s.pktLen.toNat < n + 5 + m →
        exec .unpack s = .next (s.ended .corruptHeader)) ∧
      (1 ≤ n → n + 5 + m ≤ s.pktLen.toNat →
        ∃ t, exec .unpack s = .next t ∧
          t = { s.ended .ok with nameLen := t.nameLen, contLen := t.contLen, name := t.name, cont := t.cont } ∧
          t.nameLen.toNat = n ∧ t.contLen.toNat = m ∧
          (∀ k, k < n → readCell t .name k = readCell s .pkt (1 + k)) ∧
          (∀ k, n ≤ k → readCell t .name k = readCell s .name k) ∧
          (∀ k, k < m → readCell t .cont k = readCell s .pkt (5 + n + k)) ∧
          ∀ k, m ≤ k → readCell t .cont k = readCell s .cont k))

/-- PACK and PACK_PAD are pure (41_filepacker.md R116): two states that agree on the operands (and on `MAXLEN`) get the
same error or the same packed file; no draw is made, and channels, payload, cursor state and capacity registers stay. -/
def Obligations.PackingIsPure : Prop :=
  ∀ (i : Instr) (s t s' t' : State), i = .pack ∨ i = .packPad → s.status.fatal = false → t.status.fatal = false →
    s.params.maxLen = t.params.maxLen → s.nameLen = t.nameLen → s.contLen = t.contLen →
    (i = .packPad → s.reqLen = t.reqLen) →
    (∀ k, k < s.nameLen.toNat → readCell s .name k = readCell t .name k) →
    (∀ k, k < s.contLen.toNat → readCell s .cont k = readCell t .cont k) →
    exec i s = .next s' → exec i t = .next t' →
    s'.status.err = t'.status.err ∧
    (s'.status.err = .ok → s'.pktLen = t'.pktLen ∧ ∀ k, k < s'.pktLen.toNat → readCell s' .pkt k = readCell t' .pkt k) ∧
    s'.env = s.env ∧ s'.chan = s.chan ∧ s'.pay = s.pay ∧ s'.cur = s.cur ∧ s'.bt = s.bt ∧ s'.acc = s.acc ∧
    s'.accBits = s.accBits ∧ s'.status.phase = s.status.phase ∧ s'.capBits = s.capBits ∧ s'.capBytes = s.capBytes

/-- The round trip of the FilePacker (41_filepacker.md R120): PACK, or PACK_PAD with any `REQLEN` from `T` to `MAXLEN`,
then UNPACK of its output, on any state `v` that holds it, whatever `NAME`, `CONT` and the other registers hold there. -/
def Obligations.PackThenUnpackReturnsTheFile : Prop :=
  ∀ (i : Instr) (s : State), s.status.fatal = false → 1 ≤ s.nameLen.toNat → s.nameLen.toNat ≤ 255 →
    5 + s.nameLen.toNat + s.contLen.toNat ≤ s.params.maxLen →
    (i = .pack ∨ (i = .packPad ∧ 5 + (s.nameLen.toNat : Int) + s.contLen.toNat ≤ s.reqLen.toInt ∧
      s.reqLen.toInt ≤ (s.params.maxLen : Int))) →
    ∃ t, exec i s = .next t ∧ t.status.err = .ok ∧
      ∀ v : State, v.status.fatal = false → v.params.maxLen = t.params.maxLen → v.pktLen = t.pktLen →
        (∀ k, k < t.pktLen.toNat → readCell v .pkt k = readCell t .pkt k) →
        ∃ u, exec .unpack v = .next u ∧ u.status.err = .ok ∧ u.nameLen = s.nameLen ∧ u.contLen = s.contLen ∧
          (∀ k, k < s.nameLen.toNat → readCell u .name k = readCell s .name k) ∧
          ∀ k, k < s.contLen.toNat → readCell u .cont k = readCell s .cont k

/-- UNPACK does not look at the padding (41_filepacker.md section 4, R121, second half): packed buffers that agree up to
the end of the content give the same name and content, whatever their padding. -/
def Obligations.UnpackIgnoresThePadding : Prop :=
  ∀ (s t s' : State), s.status.fatal = false → t.status.fatal = false →
    exec .unpack s = .next s' → s'.status.err = .ok → t.pktLen.toNat ≤ t.params.maxLen →
    s'.nameLen.toNat + 5 + s'.contLen.toNat ≤ t.pktLen.toNat →
    (∀ k, k < s'.nameLen.toNat + 5 + s'.contLen.toNat → readCell t .pkt k = readCell s .pkt k) →
    ∃ t', exec .unpack t = .next t' ∧ t'.status.err = .ok ∧ t'.nameLen = s'.nameLen ∧ t'.contLen = s'.contLen ∧
      (∀ k, k < s'.nameLen.toNat → readCell t' .name k = readCell s' .name k) ∧
      ∀ k, k < s'.contLen.toNat → readCell t' .cont k = readCell s' .cont k

/-! ### ChannelCursor, write side -/

/-- WRITE_CHANNEL (42_cursor_write.md R130): the fatal error at the end of the buffer, with nothing written; else the low
`width` bits replaced, the cursor stepped, and an alpha channel it lands on blanked and stepped over. `CUR` never wraps
(R131 (d)), hence the last premise. -/
def Obligations.WriteChannelOutcome : Prop :=
  ∀ (v : Byte) (width : Nat) (s : State), 1 ≤ width → width ≤ 8 → v.toNat < 2 ^ width →
    (s.chLen.toNat ≤ s.cur.toNat → writeChannel v width s = .raised .cursorMismatch s) ∧
    (s.cur.toNat < s.chLen.toNat → s.cur.toNat + 2 < 2 ^ 64 →
      ∃ t, writeChannel v width s = .done t ∧ t = { s with cur := t.cur, chan := t.chan } ∧
        t.cur.toNat = (if (s.cur.toNat + 1) % 4 = 3 then s.cur.toNat + 2 else s.cur.toNat + 1) ∧
        (readCell t .chan s.cur.toNat).toNat =
          (readCell s .chan s.cur.toNat).toNat / 2 ^ width * 2 ^ width + v.toNat ∧
        ((s.cur.toNat + 1) % 4 = 3 → readCell t .chan (s.cur.toNat + 1) = s.params.alphaBlank) ∧
        ∀ k, k ≠ s.cur.toNat → ¬ (k = s.cur.toNat + 1 ∧ k % 4 = 3) → readCell t .chan k = readCell s .chan k)

/-- The invariants of WRITE_CHANNEL (42_cursor_write.md R131 (a) to (d)). -/
def Obligations.WriteChannelCursorInvariants : Prop :=
  ∀ (v : Byte) (width : Nat) (s t : State), s.chLen.toNat % 4 = 0 → s.cur.toNat % 4 ≠ 3 →
    writeChannel v width s = .done t →
    t.cur.toNat % 4 ≠ 3 ∧ ((s.cur.toNat + 1) % 4 = 3 → s.cur.toNat + 1 < s.chLen.toNat) ∧
    t.cur.toNat ≤ s.chLen.toNat ∧ (t.cur = s.chLen ↔ s.cur.toNat + 2 = s.chLen.toNat) ∧ s.cur.toNat < t.cur.toNat

/-- WRITE_HEADER, whole (42_cursor_write.md R136, R137). -/
def Obligations.WriteHeaderOutcome : Prop :=
  ∀ s : State, s.status.fatal = false →
    (¬ (1 ≤ s.bits.toNat ∧ s.bits.toNat ≤ 8) → exec .writeHeader s = .next (s.ended .bitsOutOfRange)) ∧
    (1 ≤ s.bits.toNat ∧ s.bits.toNat ≤ 8 →
      (¬ (s.chLen.toNat % 4 = 0 ∧ 4 ≤ s.chLen.toNat ∧ s.chLen.toNat ≤ s.params.maxLen) →
        exec .writeHeader s = .next (s.ended .lengthInvalid)) ∧
      (s.chLen.toNat % 4 = 0 ∧ 4 ≤ s.chLen.toNat ∧ s.chLen.toNat ≤ s.params.maxLen →
        ∃ t, exec .writeHeader s = .next t ∧
          t = { s with status := { s.status with busy := false, done := true, err := .ok, phase := .hdr },
                       cur := 4, bt := t.bt, chan := t.chan } ∧
          t.bt.toNat = s.bits.toNat ∧
          (readCell t .chan 0).toNat = (readCell s .chan 0).toNat / 2 * 2 + (s.bits.toNat - 1) / 4 % 2 ∧
          (readCell t .chan 1).toNat = (readCell s .chan 1).toNat / 2 * 2 + (s.bits.toNat - 1) / 2 % 2 ∧
          (readCell t .chan 2).toNat = (readCell s .chan 2).toNat / 2 * 2 + (s.bits.toNat - 1) % 2 ∧
          readCell t .chan 3 = s.params.alphaBlank ∧
          ∀ k, 4 ≤ k → readCell t .chan k = readCell s .chan k))

/-- The sequencing of WRITE_PAYLOAD (42_cursor_write.md R141): without a pending header it is `IllegalCommand` and
changes nothing; the six commands that do not move the cursor leave the sequence as it is. -/
def Obligations.WritePayloadNeedsAPendingHeader : Prop :=
  ∀ s : State, s.status.fatal = false →
    (s.status.phase = .idle → exec .writePayload s = .next (s.ended .illegalCommand)) ∧
    ∀ (i : Instr) (t : State), i ∈ [Instr.validateBits, .capacity, .pack, .packPad, .unpack, .readHeader] →
      exec i s = .next t → t.status.phase = s.status.phase ∧ t.cur = s.cur ∧ t.bt = s.bt

/-- The recoverable length errors of WRITE_PAYLOAD leave the pending header in place, so the host may try again
(42_cursor_write.md R142, second sentence). -/
def Obligations.WritePayloadLengthErrors : Prop :=
  ∀ s : State, s.status.fatal = false → s.status.phase = .hdr →
    (¬ (s.chLen.toNat % 4 = 0 ∧ 4 ≤ s.chLen.toNat ∧ s.chLen.toNat ≤ s.params.maxLen) ∨
      s.params.maxLen < s.payLen.toNat) → exec .writePayload s = .next (s.ended .lengthInvalid)

/-- What WRITE_PAYLOAD needs to run: a pending header (with the invariant of 10_state.md R28) and legal lengths. -/
def Sys2Proof.Machine.ReadyToWrite (s : State) : Prop :=
  s.status.fatal = false ∧ s.status.phase = .hdr ∧ s.cur = 4 ∧ 1 ≤ s.bt.toNat ∧ s.bt.toNat ≤ 8 ∧
  s.chLen.toNat % 4 = 0 ∧ 4 ≤ s.chLen.toNat ∧ s.chLen.toNat ≤ s.params.maxLen ∧ s.payLen.toNat ≤ s.params.maxLen

/-- The end state of a successful WRITE_PAYLOAD in closed form (42_cursor_write.md R147), bit by bit: bits `7 .. b` of a
usable channel are kept, bit `q < b` of usable channel `j` is payload bit `j * b + (b - 1 - q)` while there is one and
else a bit of the draw made for that channel (the draws serve channels `F`, `F + 1`, … in order, `F = T div b`); every
alpha channel is blanked; channels 0 to 3 and everything outside the buffer stay. It holds for every answer of `Draw`. -/
def Obligations.WritePayloadClosedForm : Prop :=
  ∀ s : State, ReadyToWrite s → 8 * s.payLen.toNat ≤ 3 * (s.chLen.toNat / 4 - 1) * s.bt.toNat →
    ∃ t, exec .writePayload s = .next t ∧
      t = { s with status := { s.status with busy := false, done := true, err := .ok, phase := .idle },
                   cur := s.chLen, bt := 0, acc := 0, accBits := 0, chan := t.chan, env := t.env } ∧
      (∀ j, j < 3 * (s.chLen.toNat / 4 - 1) → ∀ q, q < 8 →
        (readCell t .chan (4 + 4 * (j / 3) + j % 3)).getLsbD q =
          if q < s.bt.toNat then
            if j * s.bt.toNat + (s.bt.toNat - 1 - q) < 8 * s.payLen.toNat then
              payloadBit s (j * s.bt.toNat + (s.bt.toNat - 1 - q))
            else (drawAt s (j - 8 * s.payLen.toNat / s.bt.toNat)).getLsbD q
          else (readCell s .chan (4 + 4 * (j / 3) + j % 3)).getLsbD q) ∧
      (∀ k, 4 ≤ k → k < s.chLen.toNat → k % 4 = 3 → readCell t .chan k = s.params.alphaBlank) ∧
      ∀ k, k < 4 ∨ s.chLen.toNat ≤ k → readCell t .chan k = readCell s .chan k

/-- The number of draws of a successful WRITE_PAYLOAD (42_cursor_write.md R148): `D`, at most 7 when the payload is as
long as the capacity, `N` when there is none; the answers are used in order. -/
def Obligations.WritePayloadDrawCount : Prop :=
  ∀ (s t : State) (N T b D : Nat), ReadyToWrite s → exec .writePayload s = .next t → t.status.err = .ok →
    N = 3 * (s.chLen.toNat / 4 - 1) → T = 8 * s.payLen.toNat → b = s.bt.toNat →
    D = (if T % b ≠ 0 then 1 else 0) + N - (T + b - 1) / b →
    t.env = { s.env with draws := s.env.draws.drop D, drawCount := s.env.drawCount + D } ∧
    ((s.payLen.toNat : Int) = capacityBytes s.chLen.toNat b → D ≤ 7) ∧ (s.payLen.toNat = 0 → D = N)

/-- The postcondition and the fatal error (42_cursor_write.md R146): a payload ends in `CursorMismatch` exactly when it is
longer than the capacity; then `FATAL` is 1, `CUR` is `CHLEN`, channels 0 to 3, `PAY` and all other spaces are as before,
and nothing is said of `CHAN[4 .. CHLEN)`. -/
def Obligations.WritePayloadOverflowIsFatal : Prop :=
  ∀ s : State, ReadyToWrite s →
    ∃ t, exec .writePayload s = .next t ∧
      (t.status.err = .cursorMismatch ↔ capacityBytes s.chLen.toNat s.bt.toNat < (s.payLen.toNat : Int)) ∧
      (t.status.err = .cursorMismatch →
        t = { s with status := { busy := false, done := true, fatal := true, phase := .idle, err := .cursorMismatch },
                     cur := s.chLen, bt := 0, acc := t.acc, accBits := t.accBits, chan := t.chan, env := t.env } ∧
        ∀ k, k < 4 ∨ s.chLen.toNat ≤ k → readCell t .chan k = readCell s .chan k)

/-- What a whole write changes, seen from outside (43_cursor_read.md R171): a usable colour channel keeps its bits above
the depth, a header channel all but bit 0, every alpha channel is the blank sentinel, the length is unchanged. -/
def Obligations.WholeWriteChangesLowBitsAndAlpha : Prop :=
  ∀ s t u : State, s.status.fatal = false → exec .writeHeader s = .next t → t.status.err = .ok →
    exec .writePayload t = .next u → u.status.err = .ok →
    u.chLen = s.chLen ∧ ∀ k, k < s.chLen.toNat →
      if k % 4 = 3 then readCell u .chan k = s.params.alphaBlank
      else if k < 4 then (readCell u .chan k).toNat / 2 = (readCell s .chan k).toNat / 2
      else (readCell u .chan k).toNat / 2 ^ s.bits.toNat = (readCell s .chan k).toNat / 2 ^ s.bits.toNat

/-! ### ChannelCursor, read side -/

/-- READ_HEADER, whole (43_cursor_read.md R160); `BitsOutOfRange` never arises (R162). -/
def Obligations.ReadHeaderOutcome : Prop :=
  ∀ s : State, s.status.fatal = false →
    (¬ (s.chLen.toNat % 4 = 0 ∧ 4 ≤ s.chLen.toNat ∧ s.chLen.toNat ≤ s.params.maxLen) →
      exec .readHeader s = .next (s.ended .lengthInvalid)) ∧
    (s.chLen.toNat % 4 = 0 ∧ 4 ≤ s.chLen.toNat ∧ s.chLen.toNat ≤ s.params.maxLen →
      ∃ b : Byte, exec .readHeader s = .next { s.ended .ok with bits := b } ∧
        b.toNat = 4 * ((readCell s .chan 0).toNat % 2) + 2 * ((readCell s .chan 1).toNat % 2) +
          (readCell s .chan 2).toNat % 2 + 1)

/-- `v` holds the same image as `u`: `CHLEN` and the channels; every other register and space may differ. -/
def Sys2Proof.Machine.SameImage (u v : State) : Prop :=
  v.chLen = u.chLen ∧ v.params.maxLen = u.params.maxLen ∧
  ∀ k, k < u.chLen.toNat → readCell v .chan k = readCell u .chan k

/-- Header independence (43_cursor_read.md R161): READ_HEADER depends on bit 0 of channels 0, 1, 2 (and on `CHLEN` passing
its check), and after a successful WRITE_HEADER it returns the depth written on every state `v` that holds the image,
whatever its `BITS`, and whatever a WRITE_PAYLOAD did in between. -/
def Obligations.HeaderIndependence : Prop :=
  (∀ s t s' t' : State, s.status.fatal = false → t.status.fatal = false → s.chLen = t.chLen →
    s.params.maxLen = t.params.maxLen →
    (∀ k, k < 3 → (readCell s .chan k).getLsbD 0 = (readCell t .chan k).getLsbD 0) →
    exec .readHeader s = .next s' → exec .readHeader t = .next t' →
    s'.status.err = t'.status.err ∧ (s'.status.err = .ok → s'.bits = t'.bits)) ∧
  (∀ s t u v : State, s.status.fatal = false → exec .writeHeader s = .next t → t.status.err = .ok →
    (u = t ∨ exec .writePayload t = .next u) → SameImage u v → v.status.fatal = false →
    ∃ x, exec .readHeader v = .next x ∧ x.status.err = .ok ∧ x.bits = s.bits)

/-- READ_PAYLOAD, whole (43_cursor_read.md R164, R165, R167): the errors in their order, then the bytes of the channel bit
stream, the bits left over in the accumulator, the cursor at the end, the write sequence ended. -/
def Obligations.ReadPayloadOutcome : Prop :=
  ∀ s : State, s.status.fatal = false →
    (¬ (1 ≤ s.bits.toNat ∧ s.bits.toNat ≤ 8) → exec .readPayload s = .next (s.ended .bitsOutOfRange)) ∧
    (1 ≤ s.bits.toNat ∧ s.bits.toNat ≤ 8 →
      (¬ (s.chLen.toNat % 4 = 0 ∧ 4 ≤ s.chLen.toNat ∧ s.chLen.toNat ≤ s.params.maxLen) →
        exec .readPayload s = .next (s.ended .lengthInvalid)) ∧
      (s.chLen.toNat % 4 = 0 ∧ 4 ≤ s.chLen.toNat ∧ s.chLen.toNat ≤ s.params.maxLen →
        (capacityBytes s.chLen.toNat s.bits.toNat < (s.payLen.toNat : Int) →
          exec .readPayload s = .next (s.ended .lengthInvalid)) ∧
        ((s.payLen.toNat : Int) ≤ capacityBytes s.chLen.toNat s.bits.toNat →
          ∃ t, exec .readPayload s = .next t ∧
            t = { s with status := { s.status with busy := false, done := true, err := .ok, phase := .idle },
                         cur := s.chLen, bt := 0, acc := t.acc, accBits := t.accBits, pay := t.pay } ∧
            (∀ k, k < s.payLen.toNat → ∀ q, q < 8 →
              (readCell t .pay k).getLsbD q = channelBit s s.bits.toNat (8 * k + (7 - q))) ∧
            (∀ k, s.payLen.toNat ≤ k → readCell t .pay k = readCell s .pay k) ∧
            t.accBits.toNat = 3 * (s.chLen.toNat / 4 - 1) * s.bits.toNat % 8 ∧
            ∀ q, q < 16 → t.acc.getLsbD q = (decide (q < t.accBits.toNat) &&
              channelBit s s.bits.toNat (3 * (s.chLen.toNat / 4 - 1) * s.bits.toNat - 1 - q)))))

/-- READ_PAYLOAD sees only the low `b` bits of the usable channels (43_cursor_read.md R172 (e), (g); 45_host_sequences.md
R192): header channels, alpha channels and upper bits do not affect the payload read. -/
def Obligations.ReadPayloadSeesOnlyLowBits : Prop :=
  ∀ s t s' t' : State, s.status.fatal = false → t.status.fatal = false → s.chLen = t.chLen → s.bits = t.bits →
    s.payLen = t.payLen → s.params.maxLen = t.params.maxLen →
    (∀ k, 4 ≤ k → k % 4 ≠ 3 → k < s.chLen.toNat → ∀ q, q < s.bits.toNat →
      (readCell s .chan k).getLsbD q = (readCell t .chan k).getLsbD q) →
    exec .readPayload s = .next s' → exec .readPayload t = .next t' →
    s'.status.err = t'.status.err ∧
      (s'.status.err = .ok → ∀ k, k < s.payLen.toNat → readCell s' .pay k = readCell t' .pay k)

/-- A flip of one of the low `b` bits of a usable channel flips the one payload bit it carries and no other, and none
if it carries filler (45_host_sequences.md R192, third sentence). -/
def Obligations.OneChannelBitIsOnePayloadBit : Prop :=
  ∀ (s t s' t' : State) (j q : Nat), s.status.fatal = false → t.status.fatal = false → s.chLen = t.chLen →
    s.bits = t.bits → s.payLen = t.payLen → s.params.maxLen = t.params.maxLen → q < s.bits.toNat →
    j < 3 * (s.chLen.toNat / 4 - 1) →
    (∀ i p, i < 3 * (s.chLen.toNat / 4 - 1) → p < s.bits.toNat →
      (readCell t .chan (4 + 4 * (i / 3) + i % 3)).getLsbD p =
        ((readCell s .chan (4 + 4 * (i / 3) + i % 3)).getLsbD p ^^ (decide (i = j) && decide (p = q)))) →
    exec .readPayload s = .next s' → exec .readPayload t = .next t' → s'.status.err = .ok →
    t'.status.err = .ok ∧ ∀ n, n < 8 * s.payLen.toNat →
      payloadBit t' n = (payloadBit s' n ^^ decide (n = j * s.bits.toNat + (s.bits.toNat - 1 - q)))

/-- The round trip of the cursor (43_cursor_read.md R170): after WRITE_HEADER at depth `BITS` and WRITE_PAYLOAD, both
`OK`, on every state `v` that holds the resulting buffer, whatever its `BITS`, its `PAY` and the rest, READ_HEADER gives
that depth back, and READ_PAYLOAD of any `n'` bytes up to the capacity gives the payload bytes below `min(n, n')`, for
every answer of `Draw` and every `ALPHA_BLANK`. -/
def Obligations.CursorRoundTrip : Prop :=
  ∀ (s t u v : State) (n' : Word), s.status.fatal = false → exec .writeHeader s = .next t → t.status.err = .ok →
    exec .writePayload t = .next u → u.status.err = .ok → SameImage u v → v.status.fatal = false →
    (n'.toNat : Int) ≤ capacityBytes s.chLen.toNat s.bits.toNat →
    ∃ x y, exec .readHeader v = .next x ∧ x.status.err = .ok ∧ x.bits = s.bits ∧
      exec .readPayload (x.withPayLen n') = .next y ∧ y.status.err = .ok ∧
      ∀ k, k < s.payLen.toNat → k < n'.toNat → readCell y .pay k = readCell s .pay k

/-! ### The host procedures -/

/-- The macros `WRITE b` and `READ` (30_encoding.md R81) as scripts on the machine: after `WRITE b` of a payload that fits,
`READ` on any idle machine `v` that holds the image, whatever its `BITS`, its `PAY` and the rest, recovers the depth, takes
the whole capacity as the length and gives the payload back; on an illegal `CHLEN`, `READ` stops at its first command. -/
def Obligations.MacroReadReturnsWhatMacroWriteHid : Prop :=
  ∀ (s : State) (b : Byte), s.params.wf = true → s.status.busy = false → s.status.fatal = false →
    1 ≤ b.toNat → b.toNat ≤ 8 →
    (s.chLen.toNat % 4 = 0 ∧ 4 ≤ s.chLen.toNat ∧ s.chLen.toNat ≤ s.params.maxLen →
      (s.payLen.toNat : Int) ≤ capacityBytes s.chLen.toNat b.toNat →
      ∃ t, play (macroWrite b) s = .next t ∧ t.status.err = .ok ∧
        ∀ v : State, SameImage t v → v.status.busy = false → v.status.fatal = false →
          ∃ u, play macroRead v = .next u ∧ u.status.err = .ok ∧ u.bits = b ∧
            u.capBytes.toInt = capacityBytes s.chLen.toNat b.toNat ∧ u.payLen = u.capBytes ∧ u.cur = s.chLen ∧
            ∀ k, k < s.payLen.toNat → readCell u .pay k = readCell s .pay k) ∧
    (¬ (s.chLen.toNat % 4 = 0 ∧ 4 ≤ s.chLen.toNat ∧ s.chLen.toNat ≤ s.params.maxLen) →
      play macroRead s = .next ((s.withScript []).ended .lengthInvalid))

/-- The smallest image at each depth (45_host_sequences.md R190, its table): from that `CHLEN` on the capacity is at
least 34 bytes, the smallest packed file and the overhead of the AEAD. -/
def Sys2Proof.Machine.smallestBuffer : Nat → Nat
  | 1 => 368
  | 2 => 188
  | 3 => 128
  | 4 => 96
  | 5 => 80
  | 6 => 68
  | 7 => 56
  | _ => 52

/-- The inputs of `hide` the host may present: a buffer of whole pixels inside the memory, a legal depth, a name of 1 to
255 bytes, a content the 32-bit length can hold, a 32-byte key; the machine idle and not fatal. -/
def Sys2Proof.Machine.HideInputs (key pixels name content : List Byte) (bitsTaken : Byte) (s : State) : Prop :=
  s.params.wf = true ∧ s.status.busy = false ∧ s.status.fatal = false ∧ key.length = 32 ∧
  pixels.length % 4 = 0 ∧ pixels.length ≤ s.params.maxLen ∧ 1 ≤ bitsTaken.toNat ∧ bitsTaken.toNat ≤ 8 ∧
  1 ≤ name.length ∧ name.length ≤ 255 ∧ content.length < 2 ^ 32 ∧ 5 + name.length + content.length ≤ s.params.maxLen

/-- A file that does not fit fails as `FileTooLarge` before any pixel is changed (45_host_sequences.md R184, R189). -/
def Obligations.HideRejectsTooLargeFiles : Prop :=
  ∀ (aead : Aead) (pipeline : List Byte → List Byte) (key pixels name content answers : List Byte) (bitsTaken : Byte)
    (s : State), HideInputs key pixels name content bitsTaken s →
    capacityBytes pixels.length bitsTaken.toNat - 28 < 5 + (name.length : Int) + content.length →
    ∃ t, hide aead pipeline key pixels name content bitsTaken answers s =
        { state := t, result := .error .fileTooLarge } ∧
      ∀ k, k < pixels.length → readCell t .chan k = pixels.getD k 0

/-- `hide` can succeed only on an image of the smallest size for the depth (45_host_sequences.md R190). -/
def Obligations.HideNeedsTheSmallestImage : Prop :=
  (∀ L b : Nat, L % 4 = 0 → 1 ≤ b → b ≤ 8 → (34 ≤ capacityBytes L b ↔ smallestBuffer b ≤ L)) ∧
  ∀ (aead : Aead) (pipeline : List Byte → List Byte) (key pixels name content answers : List Byte) (bitsTaken : Byte)
    (s : State), HideInputs key pixels name content bitsTaken s → pixels.length < smallestBuffer bitsTaken.toNat →
    ∃ t, hide aead pipeline key pixels name content bitsTaken answers s = { state := t, result := .error .fileTooLarge }

/-- The packed file of a name and a content, zero-extended to a required length (30_encoding.md R73), as a byte string. -/
def Sys2Proof.Machine.packedFile (name content : List Byte) (required : Nat) : List Byte :=
  BitVec.ofNat 8 name.length :: (name ++ be32 content.length ++ content ++
    List.replicate (required - (5 + name.length + content.length)) 0)

/-- The two checks on the host's collaborators (45_host_sequences.md R185, R186), each on what this call hands over: if the
ciphertext of the packed file is not as long as the capacity, `hide` fails as `EncryptionSizeMismatch` before any pixel is
changed; else one buffer is written, which no pipeline has a part in, and `hide` succeeds with it exactly if the pipeline
gives it back unchanged and else fails as `RoundtripVerificationFailed`. -/
def Obligations.HideDetectsFaultyCollaborators : Prop :=
  ∀ (aead : Aead) (key pixels name content answers plain : List Byte) (bitsTaken : Byte) (cap : Int) (s : State),
    HideInputs key pixels name content bitsTaken s → cap = capacityBytes pixels.length bitsTaken.toNat →
    5 + (name.length : Int) + content.length ≤ cap - 28 → plain = packedFile name content (cap - 28).toNat →
    (((aead.encrypt key plain).length : Int) ≠ cap → ∀ pipeline : List Byte → List Byte,
      ∃ t, hide aead pipeline key pixels name content bitsTaken answers s =
          { state := t, result := .error .encryptionSizeMismatch } ∧
        ∀ k, k < pixels.length → readCell t .chan k = pixels.getD k 0) ∧
    (((aead.encrypt key plain).length : Int) = cap →
      ∃ (t : State) (encoded : List Byte), encoded.length = pixels.length ∧ ∀ pipeline : List Byte → List Byte,
        hide aead pipeline key pixels name content bitsTaken answers s =
          { state := t, result := if pipeline encoded = encoded then .ok encoded else .error .roundtripVerificationFailed })

/-- The depth READ_HEADER finds in a pixel buffer (43_cursor_read.md R160). -/
def Sys2Proof.Machine.pixelDepth (pixels : List Byte) : Nat :=
  4 * ((pixels.getD 0 0).toNat % 2) + 2 * ((pixels.getD 1 0).toNat % 2) + (pixels.getD 2 0).toNat % 2 + 1

/-- Bit `t` of the channel bit stream of a pixel buffer at depth `b` (43_cursor_read.md R167). -/
def Sys2Proof.Machine.pixelBit (pixels : List Byte) (b t : Nat) : Bool :=
  (pixels.getD (usableIndex (t / b)) 0).getLsbD (b - 1 - t % b)

/-- Every buffer of whole pixels is accepted by READ_HEADER and READ_PAYLOAD (43_cursor_read.md R162, R172), so a foreign
image or a wrong key shows only in the AEAD: `reveal` fails as `AuthenticationFailed` exactly if the provider rejects the
one blob the buffer holds, the whole bytes of its channel bit stream at the header's depth. The host reports that and a
format error alike (45_host_sequences.md R188). -/
def Obligations.RevealRejectsWhatTheAeadRejects : Prop :=
  (∀ (aead : Aead) (key pixels blob : List Byte) (s : State), s.params.wf = true → s.status.busy = false →
    s.status.fatal = false → pixels.length % 4 = 0 → 4 ≤ pixels.length → pixels.length ≤ s.params.maxLen →
    (blob.length : Int) = capacityBytes pixels.length (pixelDepth pixels) →
    (∀ k, k < blob.length → ∀ q, q < 8 →
      (blob.getD k 0).getLsbD q = pixelBit pixels (pixelDepth pixels) (8 * k + (7 - q))) →
    ((reveal aead key pixels s).result = .error .authenticationFailed ↔ aead.decrypt key blob = none)) ∧
  revealReport .authenticationFailed = revealReport (.hardware .corruptHeader) ∧
  revealReport .authenticationFailed = revealReport (.hardware .bitsOutOfRange)

/-- A file that fits is hidden, whatever the draws, if the provider keeps its contract and the pipeline is exact
(45_host_sequences.md R184 with the premises of R182, R186). -/
def Obligations.HideSucceedsWhenTheFileFits : Prop :=
  ∀ (aead : Aead) (pipeline : List Byte → List Byte) (key pixels name content answers : List Byte) (bitsTaken : Byte)
    (s : State), aead.Lawful → (∀ buffer, pipeline buffer = buffer) →
    HideInputs key pixels name content bitsTaken s →
    5 + (name.length : Int) + content.length ≤ capacityBytes pixels.length bitsTaken.toNat - 28 →
    ∃ t encoded, hide aead pipeline key pixels name content bitsTaken answers s =
        { state := t, result := .ok encoded } ∧ encoded.length = pixels.length

/-- The whole-system round trip (45_host_sequences.md R191): `reveal` of what `hide` returned gives the same name and
the same content, on the same machine or any other with the same parameters, for every answer of `Draw`. -/
def Obligations.RevealReturnsTheHiddenFile : Prop :=
  ∀ (aead : Aead) (pipeline : List Byte → List Byte) (key pixels name content answers encoded : List Byte)
    (bitsTaken : Byte) (s t s' : State), aead.Lawful → HideInputs key pixels name content bitsTaken s →
    hide aead pipeline key pixels name content bitsTaken answers s = { state := t, result := .ok encoded } →
    s'.params = s.params → s'.status.busy = false → s'.status.fatal = false →
    (reveal aead key encoded s').result = .ok (name, content)
end

