-- ==== Sys2Proof/Laws/Capacity.lean ====
section
/-! SUPPORT. The capacity formulas: their range, and their values over the natural numbers from one pixel on
(40_capacity.md R101, R102). -/

namespace Sys2Proof.Machine

/-- A value that fits a signed 64-bit register is read back from it (10_state.md R24). -/
theorem toInt_ofInt_word {x : Int} (h1 : -(2 ^ 63) ≤ x) (h2 : x < 2 ^ 63) : (BitVec.ofInt 64 x).toInt = x := by
  rw [BitVec.toInt_ofInt]
  exact Int.bmod_eq_of_le (by omega) (by omega)

/-- With `MAXLEN <= 2^56` the capacity fits its registers (40_capacity.md R102). -/
theorem capacityBits_range {L b M : Nat} (hM : M ≤ 2 ^ 56) (hL : L ≤ M) (hb : 1 ≤ b) (hb8 : b ≤ 8) :
    -24 ≤ capacityBits L b ∧ capacityBits L b < 2 ^ 59 := by
  unfold capacityBits usablePixels
  have h1 : -1 ≤ (L : Int) / 4 - 1 := by omega
  have h2 : (L : Int) / 4 - 1 < 2 ^ 54 := by omega
  generalize (L : Int) / 4 - 1 = p at *
  interval_cases b <;> constructor <;> push_cast <;> omega

/-- From one pixel on, the capacity in bits is the number of usable channels times the depth. -/
theorem capacityBits_eq {L : Nat} (b : Nat) (hL : 4 ≤ L) : capacityBits L b = (3 * (L / 4 - 1) * b : Nat) := by
  unfold capacityBits usablePixels
  rw [Nat.cast_mul]
  congr 1
  omega

theorem capacityBytes_eq {L : Nat} (b : Nat) (hL : 4 ≤ L) : capacityBytes L b = (3 * (L / 4 - 1) * b / 8 : Nat) := by
  unfold capacityBytes
  rw [capacityBits_eq b hL]
  omega

/-- The whole capacity is shorter than the buffer. -/
theorem capacityBytes_le {L b : Nat} (hL : 4 ≤ L) (hb8 : b ≤ 8) : capacityBytes L b ≤ L := by
  rw [capacityBytes_eq b hL]
  have : 3 * (L / 4 - 1) * b ≤ 3 * (L / 4 - 1) * 8 := Nat.mul_le_mul_left _ hb8
  omega

end Sys2Proof.Machine
end

