-- ==== Sys2Proof/Laws/State.lean ====
section
/-! SUPPORT. One lemma per field and update of State, true by unfolding the update, for simp. -/

namespace Sys2Proof.Machine

@[simp] theorem State.withStatus_status (s : State) (v : Status) : (s.withStatus v).status = v := rfl
@[simp] theorem State.withStatus_bits (s : State) (v : Status) : (s.withStatus v).bits = s.bits := rfl
@[simp] theorem State.withStatus_chLen (s : State) (v : Status) : (s.withStatus v).chLen = s.chLen := rfl
@[simp] theorem State.withStatus_payLen (s : State) (v : Status) : (s.withStatus v).payLen = s.payLen := rfl
@[simp] theorem State.withStatus_nameLen (s : State) (v : Status) : (s.withStatus v).nameLen = s.nameLen := rfl
@[simp] theorem State.withStatus_contLen (s : State) (v : Status) : (s.withStatus v).contLen = s.contLen := rfl
@[simp] theorem State.withStatus_reqLen (s : State) (v : Status) : (s.withStatus v).reqLen = s.reqLen := rfl
@[simp] theorem State.withStatus_pktLen (s : State) (v : Status) : (s.withStatus v).pktLen = s.pktLen := rfl
@[simp] theorem State.withStatus_capBits (s : State) (v : Status) : (s.withStatus v).capBits = s.capBits := rfl
@[simp] theorem State.withStatus_capBytes (s : State) (v : Status) : (s.withStatus v).capBytes = s.capBytes := rfl
@[simp] theorem State.withStatus_cur (s : State) (v : Status) : (s.withStatus v).cur = s.cur := rfl
@[simp] theorem State.withStatus_bt (s : State) (v : Status) : (s.withStatus v).bt = s.bt := rfl
@[simp] theorem State.withStatus_acc (s : State) (v : Status) : (s.withStatus v).acc = s.acc := rfl
@[simp] theorem State.withStatus_accBits (s : State) (v : Status) : (s.withStatus v).accBits = s.accBits := rfl
@[simp] theorem State.withStatus_chan (s : State) (v : Status) : (s.withStatus v).chan = s.chan := rfl
@[simp] theorem State.withStatus_pay (s : State) (v : Status) : (s.withStatus v).pay = s.pay := rfl
@[simp] theorem State.withStatus_pkt (s : State) (v : Status) : (s.withStatus v).pkt = s.pkt := rfl
@[simp] theorem State.withStatus_name (s : State) (v : Status) : (s.withStatus v).name = s.name := rfl
@[simp] theorem State.withStatus_cont (s : State) (v : Status) : (s.withStatus v).cont = s.cont := rfl
@[simp] theorem State.withStatus_params (s : State) (v : Status) : (s.withStatus v).params = s.params := rfl
@[simp] theorem State.withStatus_env (s : State) (v : Status) : (s.withStatus v).env = s.env := rfl

@[simp] theorem State.withBits_status (s : State) (v : BitVec 8) : (s.withBits v).status = s.status := rfl
@[simp] theorem State.withBits_bits (s : State) (v : BitVec 8) : (s.withBits v).bits = v := rfl
@[simp] theorem State.withBits_chLen (s : State) (v : BitVec 8) : (s.withBits v).chLen = s.chLen := rfl
@[simp] theorem State.withBits_payLen (s : State) (v : BitVec 8) : (s.withBits v).payLen = s.payLen := rfl
@[simp] theorem State.withBits_nameLen (s : State) (v : BitVec 8) : (s.withBits v).nameLen = s.nameLen := rfl
@[simp] theorem State.withBits_contLen (s : State) (v : BitVec 8) : (s.withBits v).contLen = s.contLen := rfl
@[simp] theorem State.withBits_reqLen (s : State) (v : BitVec 8) : (s.withBits v).reqLen = s.reqLen := rfl
@[simp] theorem State.withBits_pktLen (s : State) (v : BitVec 8) : (s.withBits v).pktLen = s.pktLen := rfl
@[simp] theorem State.withBits_capBits (s : State) (v : BitVec 8) : (s.withBits v).capBits = s.capBits := rfl
@[simp] theorem State.withBits_capBytes (s : State) (v : BitVec 8) : (s.withBits v).capBytes = s.capBytes := rfl
@[simp] theorem State.withBits_cur (s : State) (v : BitVec 8) : (s.withBits v).cur = s.cur := rfl
@[simp] theorem State.withBits_bt (s : State) (v : BitVec 8) : (s.withBits v).bt = s.bt := rfl
@[simp] theorem State.withBits_acc (s : State) (v : BitVec 8) : (s.withBits v).acc = s.acc := rfl
@[simp] theorem State.withBits_accBits (s : State) (v : BitVec 8) : (s.withBits v).accBits = s.accBits := rfl
@[simp] theorem State.withBits_chan (s : State) (v : BitVec 8) : (s.withBits v).chan = s.chan := rfl
@[simp] theorem State.withBits_pay (s : State) (v : BitVec 8) : (s.withBits v).pay = s.pay := rfl
@[simp] theorem State.withBits_pkt (s : State) (v : BitVec 8) : (s.withBits v).pkt = s.pkt := rfl
@[simp] theorem State.withBits_name (s : State) (v : BitVec 8) : (s.withBits v).name = s.name := rfl
@[simp] theorem State.withBits_cont (s : State) (v : BitVec 8) : (s.withBits v).cont = s.cont := rfl
@[simp] theorem State.withBits_params (s : State) (v : BitVec 8) : (s.withBits v).params = s.params := rfl
@[simp] theorem State.withBits_env (s : State) (v : BitVec 8) : (s.withBits v).env = s.env := rfl

@[simp] theorem State.withChLen_status (s : State) (v : Word) : (s.withChLen v).status = s.status := rfl
@[simp] theorem State.withChLen_bits (s : State) (v : Word) : (s.withChLen v).bits = s.bits := rfl
@[simp] theorem State.withChLen_chLen (s : State) (v : Word) : (s.withChLen v).chLen = v := rfl
@[simp] theorem State.withChLen_payLen (s : State) (v : Word) : (s.withChLen v).payLen = s.payLen := rfl
@[simp] theorem State.withChLen_nameLen (s : State) (v : Word) : (s.withChLen v).nameLen = s.nameLen := rfl
@[simp] theorem State.withChLen_contLen (s : State) (v : Word) : (s.withChLen v).contLen = s.contLen := rfl
@[simp] theorem State.withChLen_reqLen (s : State) (v : Word) : (s.withChLen v).reqLen = s.reqLen := rfl
@[simp] theorem State.withChLen_pktLen (s : State) (v : Word) : (s.withChLen v).pktLen = s.pktLen := rfl
@[simp] theorem State.withChLen_capBits (s : State) (v : Word) : (s.withChLen v).capBits = s.capBits := rfl
@[simp] theorem State.withChLen_capBytes (s : State) (v : Word) : (s.withChLen v).capBytes = s.capBytes := rfl
@[simp] theorem State.withChLen_cur (s : State) (v : Word) : (s.withChLen v).cur = s.cur := rfl
@[simp] theorem State.withChLen_bt (s : State) (v : Word) : (s.withChLen v).bt = s.bt := rfl
@[simp] theorem State.withChLen_acc (s : State) (v : Word) : (s.withChLen v).acc = s.acc := rfl
@[simp] theorem State.withChLen_accBits (s : State) (v : Word) : (s.withChLen v).accBits = s.accBits := rfl
@[simp] theorem State.withChLen_chan (s : State) (v : Word) : (s.withChLen v).chan = s.chan := rfl
@[simp] theorem State.withChLen_pay (s : State) (v : Word) : (s.withChLen v).pay = s.pay := rfl
@[simp] theorem State.withChLen_pkt (s : State) (v : Word) : (s.withChLen v).pkt = s.pkt := rfl
@[simp] theorem State.withChLen_name (s : State) (v : Word) : (s.withChLen v).name = s.name := rfl
@[simp] theorem State.withChLen_cont (s : State) (v : Word) : (s.withChLen v).cont = s.cont := rfl
@[simp] theorem State.withChLen_params (s : State) (v : Word) : (s.withChLen v).params = s.params := rfl
@[simp] theorem State.withChLen_env (s : State) (v : Word) : (s.withChLen v).env = s.env := rfl

@[simp] theorem State.withPayLen_status (s : State) (v : Word) : (s.withPayLen v).status = s.status := rfl
@[simp] theorem State.withPayLen_bits (s : State) (v : Word) : (s.withPayLen v).bits = s.bits := rfl
@[simp] theorem State.withPayLen_chLen (s : State) (v : Word) : (s.withPayLen v).chLen = s.chLen := rfl
@[simp] theorem State.withPayLen_payLen (s : State) (v : Word) : (s.withPayLen v).payLen = v := rfl
@[simp] theorem State.withPayLen_nameLen (s : State) (v : Word) : (s.withPayLen v).nameLen = s.nameLen := rfl
@[simp] theorem State.withPayLen_contLen (s : State) (v : Word) : (s.withPayLen v).contLen = s.contLen := rfl
@[simp] theorem State.withPayLen_reqLen (s : State) (v : Word) : (s.withPayLen v).reqLen = s.reqLen := rfl
@[simp] theorem State.withPayLen_pktLen (s : State) (v : Word) : (s.withPayLen v).pktLen = s.pktLen := rfl
@[simp] theorem State.withPayLen_capBits (s : State) (v : Word) : (s.withPayLen v).capBits = s.capBits := rfl
@[simp] theorem State.withPayLen_capBytes (s : State) (v : Word) : (s.withPayLen v).capBytes = s.capBytes := rfl
@[simp] theorem State.withPayLen_cur (s : State) (v : Word) : (s.withPayLen v).cur = s.cur := rfl
@[simp] theorem State.withPayLen_bt (s : State) (v : Word) : (s.withPayLen v).bt = s.bt := rfl
@[simp] theorem State.withPayLen_acc (s : State) (v : Word) : (s.withPayLen v).acc = s.acc := rfl
@[simp] theorem State.withPayLen_accBits (s : State) (v : Word) : (s.withPayLen v).accBits = s.accBits := rfl
@[simp] theorem State.withPayLen_chan (s : State) (v : Word) : (s.withPayLen v).chan = s.chan := rfl
@[simp] theorem State.withPayLen_pay (s : State) (v : Word) : (s.withPayLen v).pay = s.pay := rfl
@[simp] theorem State.withPayLen_pkt (s : State) (v : Word) : (s.withPayLen v).pkt = s.pkt := rfl
@[simp] theorem State.withPayLen_name (s : State) (v : Word) : (s.withPayLen v).name = s.name := rfl
@[simp] theorem State.withPayLen_cont (s : State) (v : Word) : (s.withPayLen v).cont = s.cont := rfl
@[simp] theorem State.withPayLen_params (s : State) (v : Word) : (s.withPayLen v).params = s.params := rfl
@[simp] theorem State.withPayLen_env (s : State) (v : Word) : (s.withPayLen v).env = s.env := rfl

@[simp] theorem State.withNameLen_status (s : State) (v : Word) : (s.withNameLen v).status = s.status := rfl
@[simp] theorem State.withNameLen_bits (s : State) (v : Word) : (s.withNameLen v).bits = s.bits := rfl
@[simp] theorem State.withNameLen_chLen (s : State) (v : Word) : (s.withNameLen v).chLen = s.chLen := rfl
@[simp] theorem State.withNameLen_payLen (s : State) (v : Word) : (s.withNameLen v).payLen = s.payLen := rfl
@[simp] theorem State.withNameLen_nameLen (s : State) (v : Word) : (s.withNameLen v).nameLen = v := rfl
@[simp] theorem State.withNameLen_contLen (s : State) (v : Word) : (s.withNameLen v).contLen = s.contLen := rfl
@[simp] theorem State.withNameLen_reqLen (s : State) (v : Word) : (s.withNameLen v).reqLen = s.reqLen := rfl
@[simp] theorem State.withNameLen_pktLen (s : State) (v : Word) : (s.withNameLen v).pktLen = s.pktLen := rfl
@[simp] theorem State.withNameLen_capBits (s : State) (v : Word) : (s.withNameLen v).capBits = s.capBits := rfl
@[simp] theorem State.withNameLen_capBytes (s : State) (v : Word) : (s.withNameLen v).capBytes = s.capBytes := rfl
@[simp] theorem State.withNameLen_cur (s : State) (v : Word) : (s.withNameLen v).cur = s.cur := rfl
@[simp] theorem State.withNameLen_bt (s : State) (v : Word) : (s.withNameLen v).bt = s.bt := rfl
@[simp] theorem State.withNameLen_acc (s : State) (v : Word) : (s.withNameLen v).acc = s.acc := rfl
@[simp] theorem State.withNameLen_accBits (s : State) (v : Word) : (s.withNameLen v).accBits = s.accBits := rfl
@[simp] theorem State.withNameLen_chan (s : State) (v : Word) : (s.withNameLen v).chan = s.chan := rfl
@[simp] theorem State.withNameLen_pay (s : State) (v : Word) : (s.withNameLen v).pay = s.pay := rfl
@[simp] theorem State.withNameLen_pkt (s : State) (v : Word) : (s.withNameLen v).pkt = s.pkt := rfl
@[simp] theorem State.withNameLen_name (s : State) (v : Word) : (s.withNameLen v).name = s.name := rfl
@[simp] theorem State.withNameLen_cont (s : State) (v : Word) : (s.withNameLen v).cont = s.cont := rfl
@[simp] theorem State.withNameLen_params (s : State) (v : Word) : (s.withNameLen v).params = s.params := rfl
@[simp] theorem State.withNameLen_env (s : State) (v : Word) : (s.withNameLen v).env = s.env := rfl

@[simp] theorem State.withContLen_status (s : State) (v : BitVec 32) : (s.withContLen v).status = s.status := rfl
@[simp] theorem State.withContLen_bits (s : State) (v : BitVec 32) : (s.withContLen v).bits = s.bits := rfl
@[simp] theorem State.withContLen_chLen (s : State) (v : BitVec 32) : (s.withContLen v).chLen = s.chLen := rfl
@[simp] theorem State.withContLen_payLen (s : State) (v : BitVec 32) : (s.withContLen v).payLen = s.payLen := rfl
@[simp] theorem State.withContLen_nameLen (s : State) (v : BitVec 32) : (s.withContLen v).nameLen = s.nameLen := rfl
@[simp] theorem State.withContLen_contLen (s : State) (v : BitVec 32) : (s.withContLen v).contLen = v := rfl
@[simp] theorem State.withContLen_reqLen (s : State) (v : BitVec 32) : (s.withContLen v).reqLen = s.reqLen := rfl
@[simp] theorem State.withContLen_pktLen (s : State) (v : BitVec 32) : (s.withContLen v).pktLen = s.pktLen := rfl
@[simp] theorem State.withContLen_capBits (s : State) (v : BitVec 32) : (s.withContLen v).capBits = s.capBits := rfl
@[simp] theorem State.withContLen_capBytes (s : State) (v : BitVec 32) : (s.withContLen v).capBytes = s.capBytes := rfl
@[simp] theorem State.withContLen_cur (s : State) (v : BitVec 32) : (s.withContLen v).cur = s.cur := rfl
@[simp] theorem State.withContLen_bt (s : State) (v : BitVec 32) : (s.withContLen v).bt = s.bt := rfl
@[simp] theorem State.withContLen_acc (s : State) (v : BitVec 32) : (s.withContLen v).acc = s.acc := rfl
@[simp] theorem State.withContLen_accBits (s : State) (v : BitVec 32) : (s.withContLen v).accBits = s.accBits := rfl
@[simp] theorem State.withContLen_chan (s : State) (v : BitVec 32) : (s.withContLen v).chan = s.chan := rfl
@[simp] theorem State.withContLen_pay (s : State) (v : BitVec 32) : (s.withContLen v).pay = s.pay := rfl
@[simp] theorem State.withContLen_pkt (s : State) (v : BitVec 32) : (s.withContLen v).pkt = s.pkt := rfl
@[simp] theorem State.withContLen_name (s : State) (v : BitVec 32) : (s.withContLen v).name = s.name := rfl
@[simp] theorem State.withContLen_cont (s : State) (v : BitVec 32) : (s.withContLen v).cont = s.cont := rfl
@[simp] theorem State.withContLen_params (s : State) (v : BitVec 32) : (s.withContLen v).params = s.params := rfl
@[simp] theorem State.withContLen_env (s : State) (v : BitVec 32) : (s.withContLen v).env = s.env := rfl

@[simp] theorem State.withReqLen_status (s : State) (v : Word) : (s.withReqLen v).status = s.status := rfl
@[simp] theorem State.withReqLen_bits (s : State) (v : Word) : (s.withReqLen v).bits = s.bits := rfl
@[simp] theorem State.withReqLen_chLen (s : State) (v : Word) : (s.withReqLen v).chLen = s.chLen := rfl
@[simp] theorem State.withReqLen_payLen (s : State) (v : Word) : (s.withReqLen v).payLen = s.payLen := rfl
@[simp] theorem State.withReqLen_nameLen (s : State) (v : Word) : (s.withReqLen v).nameLen = s.nameLen := rfl
@[simp] theorem State.withReqLen_contLen (s : State) (v : Word) : (s.withReqLen v).contLen = s.contLen := rfl
@[simp] theorem State.withReqLen_reqLen (s : State) (v : Word) : (s.withReqLen v).reqLen = v := rfl
@[simp] theorem State.withReqLen_pktLen (s : State) (v : Word) : (s.withReqLen v).pktLen = s.pktLen := rfl
@[simp] theorem State.withReqLen_capBits (s : State) (v : Word) : (s.withReqLen v).capBits = s.capBits := rfl
@[simp] theorem State.withReqLen_capBytes (s : State) (v : Word) : (s.withReqLen v).capBytes = s.capBytes := rfl
@[simp] theorem State.withReqLen_cur (s : State) (v : Word) : (s.withReqLen v).cur = s.cur := rfl
@[simp] theorem State.withReqLen_bt (s : State) (v : Word) : (s.withReqLen v).bt = s.bt := rfl
@[simp] theorem State.withReqLen_acc (s : State) (v : Word) : (s.withReqLen v).acc = s.acc := rfl
@[simp] theorem State.withReqLen_accBits (s : State) (v : Word) : (s.withReqLen v).accBits = s.accBits := rfl
@[simp] theorem State.withReqLen_chan (s : State) (v : Word) : (s.withReqLen v).chan = s.chan := rfl
@[simp] theorem State.withReqLen_pay (s : State) (v : Word) : (s.withReqLen v).pay = s.pay := rfl
@[simp] theorem State.withReqLen_pkt (s : State) (v : Word) : (s.withReqLen v).pkt = s.pkt := rfl
@[simp] theorem State.withReqLen_name (s : State) (v : Word) : (s.withReqLen v).name = s.name := rfl
@[simp] theorem State.withReqLen_cont (s : State) (v : Word) : (s.withReqLen v).cont = s.cont := rfl
@[simp] theorem State.withReqLen_params (s : State) (v : Word) : (s.withReqLen v).params = s.params := rfl
@[simp] theorem State.withReqLen_env (s : State) (v : Word) : (s.withReqLen v).env = s.env := rfl

@[simp] theorem State.withPktLen_status (s : State) (v : Word) : (s.withPktLen v).status = s.status := rfl
@[simp] theorem State.withPktLen_bits (s : State) (v : Word) : (s.withPktLen v).bits = s.bits := rfl
@[simp] theorem State.withPktLen_chLen (s : State) (v : Word) : (s.withPktLen v).chLen = s.chLen := rfl
@[simp] theorem State.withPktLen_payLen (s : State) (v : Word) : (s.withPktLen v).payLen = s.payLen := rfl
@[simp] theorem State.withPktLen_nameLen (s : State) (v : Word) : (s.withPktLen v).nameLen = s.nameLen := rfl
@[simp] theorem State.withPktLen_contLen (s : State) (v : Word) : (s.withPktLen v).contLen = s.contLen := rfl
@[simp] theorem State.withPktLen_reqLen (s : State) (v : Word) : (s.withPktLen v).reqLen = s.reqLen := rfl
@[simp] theorem State.withPktLen_pktLen (s : State) (v : Word) : (s.withPktLen v).pktLen = v := rfl
@[simp] theorem State.withPktLen_capBits (s : State) (v : Word) : (s.withPktLen v).capBits = s.capBits := rfl
@[simp] theorem State.withPktLen_capBytes (s : State) (v : Word) : (s.withPktLen v).capBytes = s.capBytes := rfl
@[simp] theorem State.withPktLen_cur (s : State) (v : Word) : (s.withPktLen v).cur = s.cur := rfl
@[simp] theorem State.withPktLen_bt (s : State) (v : Word) : (s.withPktLen v).bt = s.bt := rfl
@[simp] theorem State.withPktLen_acc (s : State) (v : Word) : (s.withPktLen v).acc = s.acc := rfl
@[simp] theorem State.withPktLen_accBits (s : State) (v : Word) : (s.withPktLen v).accBits = s.accBits := rfl
@[simp] theorem State.withPktLen_chan (s : State) (v : Word) : (s.withPktLen v).chan = s.chan := rfl
@[simp] theorem State.withPktLen_pay (s : State) (v : Word) : (s.withPktLen v).pay = s.pay := rfl
@[simp] theorem State.withPktLen_pkt (s : State) (v : Word) : (s.withPktLen v).pkt = s.pkt := rfl
@[simp] theorem State.withPktLen_name (s : State) (v : Word) : (s.withPktLen v).name = s.name := rfl
@[simp] theorem State.withPktLen_cont (s : State) (v : Word) : (s.withPktLen v).cont = s.cont := rfl
@[simp] theorem State.withPktLen_params (s : State) (v : Word) : (s.withPktLen v).params = s.params := rfl
@[simp] theorem State.withPktLen_env (s : State) (v : Word) : (s.withPktLen v).env = s.env := rfl

@[simp] theorem State.withCur_status (s : State) (v : Word) : (s.withCur v).status = s.status := rfl
@[simp] theorem State.withCur_bits (s : State) (v : Word) : (s.withCur v).bits = s.bits := rfl
@[simp] theorem State.withCur_chLen (s : State) (v : Word) : (s.withCur v).chLen = s.chLen := rfl
@[simp] theorem State.withCur_payLen (s : State) (v : Word) : (s.withCur v).payLen = s.payLen := rfl
@[simp] theorem State.withCur_nameLen (s : State) (v : Word) : (s.withCur v).nameLen = s.nameLen := rfl
@[simp] theorem State.withCur_contLen (s : State) (v : Word) : (s.withCur v).contLen = s.contLen := rfl
@[simp] theorem State.withCur_reqLen (s : State) (v : Word) : (s.withCur v).reqLen = s.reqLen := rfl
@[simp] theorem State.withCur_pktLen (s : State) (v : Word) : (s.withCur v).pktLen = s.pktLen := rfl
@[simp] theorem State.withCur_capBits (s : State) (v : Word) : (s.withCur v).capBits = s.capBits := rfl
@[simp] theorem State.withCur_capBytes (s : State) (v : Word) : (s.withCur v).capBytes = s.capBytes := rfl
@[simp] theorem State.withCur_cur (s : State) (v : Word) : (s.withCur v).cur = v := rfl
@[simp] theorem State.withCur_bt (s : State) (v : Word) : (s.withCur v).bt = s.bt := rfl
@[simp] theorem State.withCur_acc (s : State) (v : Word) : (s.withCur v).acc = s.acc := rfl
@[simp] theorem State.withCur_accBits (s : State) (v : Word) : (s.withCur v).accBits = s.accBits := rfl
@[simp] theorem State.withCur_chan (s : State) (v : Word) : (s.withCur v).chan = s.chan := rfl
@[simp] theorem State.withCur_pay (s : State) (v : Word) : (s.withCur v).pay = s.pay := rfl
@[simp] theorem State.withCur_pkt (s : State) (v : Word) : (s.withCur v).pkt = s.pkt := rfl
@[simp] theorem State.withCur_name (s : State) (v : Word) : (s.withCur v).name = s.name := rfl
@[simp] theorem State.withCur_cont (s : State) (v : Word) : (s.withCur v).cont = s.cont := rfl
@[simp] theorem State.withCur_params (s : State) (v : Word) : (s.withCur v).params = s.params := rfl
@[simp] theorem State.withCur_env (s : State) (v : Word) : (s.withCur v).env = s.env := rfl

@[simp] theorem State.withBt_status (s : State) (v : BitVec 4) : (s.withBt v).status = s.status := rfl
@[simp] theorem State.withBt_bits (s : State) (v : BitVec 4) : (s.withBt v).bits = s.bits := rfl
@[simp] theorem State.withBt_chLen (s : State) (v : BitVec 4) : (s.withBt v).chLen = s.chLen := rfl
@[simp] theorem State.withBt_payLen (s : State) (v : BitVec 4) : (s.withBt v).payLen = s.payLen := rfl
@[simp] theorem State.withBt_nameLen (s : State) (v : BitVec 4) : (s.withBt v).nameLen = s.nameLen := rfl
@[simp] theorem State.withBt_contLen (s : State) (v : BitVec 4) : (s.withBt v).contLen = s.contLen := rfl
@[simp] theorem State.withBt_reqLen (s : State) (v : BitVec 4) : (s.withBt v).reqLen = s.reqLen := rfl
@[simp] theorem State.withBt_pktLen (s : State) (v : BitVec 4) : (s.withBt v).pktLen = s.pktLen := rfl
@[simp] theorem State.withBt_capBits (s : State) (v : BitVec 4) : (s.withBt v).capBits = s.capBits := rfl
@[simp] theorem State.withBt_capBytes (s : State) (v : BitVec 4) : (s.withBt v).capBytes = s.capBytes := rfl
@[simp] theorem State.withBt_cur (s : State) (v : BitVec 4) : (s.withBt v).cur = s.cur := rfl
@[simp] theorem State.withBt_bt (s : State) (v : BitVec 4) : (s.withBt v).bt = v := rfl
@[simp] theorem State.withBt_acc (s : State) (v : BitVec 4) : (s.withBt v).acc = s.acc := rfl
@[simp] theorem State.withBt_accBits (s : State) (v : BitVec 4) : (s.withBt v).accBits = s.accBits := rfl
@[simp] theorem State.withBt_chan (s : State) (v : BitVec 4) : (s.withBt v).chan = s.chan := rfl
@[simp] theorem State.withBt_pay (s : State) (v : BitVec 4) : (s.withBt v).pay = s.pay := rfl
@[simp] theorem State.withBt_pkt (s : State) (v : BitVec 4) : (s.withBt v).pkt = s.pkt := rfl
@[simp] theorem State.withBt_name (s : State) (v : BitVec 4) : (s.withBt v).name = s.name := rfl
@[simp] theorem State.withBt_cont (s : State) (v : BitVec 4) : (s.withBt v).cont = s.cont := rfl
@[simp] theorem State.withBt_params (s : State) (v : BitVec 4) : (s.withBt v).params = s.params := rfl
@[simp] theorem State.withBt_env (s : State) (v : BitVec 4) : (s.withBt v).env = s.env := rfl

@[simp] theorem State.withEnv_status (s : State) (v : Env) : (s.withEnv v).status = s.status := rfl
@[simp] theorem State.withEnv_bits (s : State) (v : Env) : (s.withEnv v).bits = s.bits := rfl
@[simp] theorem State.withEnv_chLen (s : State) (v : Env) : (s.withEnv v).chLen = s.chLen := rfl
@[simp] theorem State.withEnv_payLen (s : State) (v : Env) : (s.withEnv v).payLen = s.payLen := rfl
@[simp] theorem State.withEnv_nameLen (s : State) (v : Env) : (s.withEnv v).nameLen = s.nameLen := rfl
@[simp] theorem State.withEnv_contLen (s : State) (v : Env) : (s.withEnv v).contLen = s.contLen := rfl
@[simp] theorem State.withEnv_reqLen (s : State) (v : Env) : (s.withEnv v).reqLen = s.reqLen := rfl
@[simp] theorem State.withEnv_pktLen (s : State) (v : Env) : (s.withEnv v).pktLen = s.pktLen := rfl
@[simp] theorem State.withEnv_capBits (s : State) (v : Env) : (s.withEnv v).capBits = s.capBits := rfl
@[simp] theorem State.withEnv_capBytes (s : State) (v : Env) : (s.withEnv v).capBytes = s.capBytes := rfl
@[simp] theorem State.withEnv_cur (s : State) (v : Env) : (s.withEnv v).cur = s.cur := rfl
@[simp] theorem State.withEnv_bt (s : State) (v : Env) : (s.withEnv v).bt = s.bt := rfl
@[simp] theorem State.withEnv_acc (s : State) (v : Env) : (s.withEnv v).acc = s.acc := rfl
@[simp] theorem State.withEnv_accBits (s : State) (v : Env) : (s.withEnv v).accBits = s.accBits := rfl
@[simp] theorem State.withEnv_chan (s : State) (v : Env) : (s.withEnv v).chan = s.chan := rfl
@[simp] theorem State.withEnv_pay (s : State) (v : Env) : (s.withEnv v).pay = s.pay := rfl
@[simp] theorem State.withEnv_pkt (s : State) (v : Env) : (s.withEnv v).pkt = s.pkt := rfl
@[simp] theorem State.withEnv_name (s : State) (v : Env) : (s.withEnv v).name = s.name := rfl
@[simp] theorem State.withEnv_cont (s : State) (v : Env) : (s.withEnv v).cont = s.cont := rfl
@[simp] theorem State.withEnv_params (s : State) (v : Env) : (s.withEnv v).params = s.params := rfl
@[simp] theorem State.withEnv_env (s : State) (v : Env) : (s.withEnv v).env = v := rfl

@[simp] theorem State.withCap_status (s : State) (a b : Word) : (s.withCap a b).status = s.status := rfl
@[simp] theorem State.withCap_bits (s : State) (a b : Word) : (s.withCap a b).bits = s.bits := rfl
@[simp] theorem State.withCap_chLen (s : State) (a b : Word) : (s.withCap a b).chLen = s.chLen := rfl
@[simp] theorem State.withCap_payLen (s : State) (a b : Word) : (s.withCap a b).payLen = s.payLen := rfl
@[simp] theorem State.withCap_nameLen (s : State) (a b : Word) : (s.withCap a b).nameLen = s.nameLen := rfl
@[simp] theorem State.withCap_contLen (s : State) (a b : Word) : (s.withCap a b).contLen = s.contLen := rfl
@[simp] theorem State.withCap_reqLen (s : State) (a b : Word) : (s.withCap a b).reqLen = s.reqLen := rfl
@[simp] theorem State.withCap_pktLen (s : State) (a b : Word) : (s.withCap a b).pktLen = s.pktLen := rfl
@[simp] theorem State.withCap_capBits (s : State) (a b : Word) : (s.withCap a b).capBits = a := rfl
@[simp] theorem State.withCap_capBytes (s : State) (a b : Word) : (s.withCap a b).capBytes = b := rfl
@[simp] theorem State.withCap_cur (s : State) (a b : Word) : (s.withCap a b).cur = s.cur := rfl
@[simp] theorem State.withCap_bt (s : State) (a b : Word) : (s.withCap a b).bt = s.bt := rfl
@[simp] theorem State.withCap_acc (s : State) (a b : Word) : (s.withCap a b).acc = s.acc := rfl
@[simp] theorem State.withCap_accBits (s : State) (a b : Word) : (s.withCap a b).accBits = s.accBits := rfl
@[simp] theorem State.withCap_chan (s : State) (a b : Word) : (s.withCap a b).chan = s.chan := rfl
@[simp] theorem State.withCap_pay (s : State) (a b : Word) : (s.withCap a b).pay = s.pay := rfl
@[simp] theorem State.withCap_pkt (s : State) (a b : Word) : (s.withCap a b).pkt = s.pkt := rfl
@[simp] theorem State.withCap_name (s : State) (a b : Word) : (s.withCap a b).name = s.name := rfl
@[simp] theorem State.withCap_cont (s : State) (a b : Word) : (s.withCap a b).cont = s.cont := rfl
@[simp] theorem State.withCap_params (s : State) (a b : Word) : (s.withCap a b).params = s.params := rfl
@[simp] theorem State.withCap_env (s : State) (a b : Word) : (s.withCap a b).env = s.env := rfl

@[simp] theorem State.withAcc_status (s : State) (a : BitVec 16) (n : BitVec 5) : (s.withAcc a n).status = s.status := rfl
@[simp] theorem State.withAcc_bits (s : State) (a : BitVec 16) (n : BitVec 5) : (s.withAcc a n).bits = s.bits := rfl
@[simp] theorem State.withAcc_chLen (s : State) (a : BitVec 16) (n : BitVec 5) : (s.withAcc a n).chLen = s.chLen := rfl
@[simp] theorem State.withAcc_payLen (s : State) (a : BitVec 16) (n : BitVec 5) : (s.withAcc a n).payLen = s.payLen := rfl
@[simp] theorem State.withAcc_nameLen (s : State) (a : BitVec 16) (n : BitVec 5) : (s.withAcc a n).nameLen = s.nameLen := rfl
@[simp] theorem State.withAcc_contLen (s : State) (a : BitVec 16) (n : BitVec 5) : (s.withAcc a n).contLen = s.contLen := rfl
@[simp] theorem State.withAcc_reqLen (s : State) (a : BitVec 16) (n : BitVec 5) : (s.withAcc a n).reqLen = s.reqLen := rfl
@[simp] theorem State.withAcc_pktLen (s : State) (a : BitVec 16) (n : BitVec 5) : (s.withAcc a n).pktLen = s.pktLen := rfl
@[simp] theorem State.withAcc_capBits (s : State) (a : BitVec 16) (n : BitVec 5) : (s.withAcc a n).capBits = s.capBits := rfl
@[simp] theorem State.withAcc_capBytes (s : State) (a : BitVec 16) (n : BitVec 5) : (s.withAcc a n).capBytes = s.capBytes := rfl
@[simp] theorem State.withAcc_cur (s : State) (a : BitVec 16) (n : BitVec 5) : (s.withAcc a n).cur = s.cur := rfl
@[simp] theorem State.withAcc_bt (s : State) (a : BitVec 16) (n : BitVec 5) : (s.withAcc a n).bt = s.bt := rfl
@[simp] theorem State.withAcc_acc (s : State) (a : BitVec 16) (n : BitVec 5) : (s.withAcc a n).acc = a := rfl
@[simp] theorem State.withAcc_accBits (s : State) (a : BitVec 16) (n : BitVec 5) : (s.withAcc a n).accBits = n := rfl
@[simp] theorem State.withAcc_chan (s : State) (a : BitVec 16) (n : BitVec 5) : (s.withAcc a n).chan = s.chan := rfl
@[simp] theorem State.withAcc_pay (s : State) (a : BitVec 16) (n : BitVec 5) : (s.withAcc a n).pay = s.pay := rfl
@[simp] theorem State.withAcc_pkt (s : State) (a : BitVec 16) (n : BitVec 5) : (s.withAcc a n).pkt = s.pkt := rfl
@[simp] theorem State.withAcc_name (s : State) (a : BitVec 16) (n : BitVec 5) : (s.withAcc a n).name = s.name := rfl
@[simp] theorem State.withAcc_cont (s : State) (a : BitVec 16) (n : BitVec 5) : (s.withAcc a n).cont = s.cont := rfl
@[simp] theorem State.withAcc_params (s : State) (a : BitVec 16) (n : BitVec 5) : (s.withAcc a n).params = s.params := rfl
@[simp] theorem State.withAcc_env (s : State) (a : BitVec 16) (n : BitVec 5) : (s.withAcc a n).env = s.env := rfl

@[simp] theorem State.withScript_status (s : State) (v : List HostAction) : (s.withScript v).status = s.status := rfl
@[simp] theorem State.withScript_bits (s : State) (v : List HostAction) : (s.withScript v).bits = s.bits := rfl
@[simp] theorem State.withScript_chLen (s : State) (v : List HostAction) : (s.withScript v).chLen = s.chLen := rfl
@[simp] theorem State.withScript_payLen (s : State) (v : List HostAction) : (s.withScript v).payLen = s.payLen := rfl
@[simp] theorem State.withScript_nameLen (s : State) (v : List HostAction) : (s.withScript v).nameLen = s.nameLen := rfl
@[simp] theorem State.withScript_contLen (s : State) (v : List HostAction) : (s.withScript v).contLen = s.contLen := rfl
@[simp] theorem State.withScript_reqLen (s : State) (v : List HostAction) : (s.withScript v).reqLen = s.reqLen := rfl
@[simp] theorem State.withScript_pktLen (s : State) (v : List HostAction) : (s.withScript v).pktLen = s.pktLen := rfl
@[simp] theorem State.withScript_capBits (s : State) (v : List HostAction) : (s.withScript v).capBits = s.capBits := rfl
@[simp] theorem State.withScript_capBytes (s : State) (v : List HostAction) : (s.withScript v).capBytes = s.capBytes := rfl
@[simp] theorem State.withScript_cur (s : State) (v : List HostAction) : (s.withScript v).cur = s.cur := rfl
@[simp] theorem State.withScript_bt (s : State) (v : List HostAction) : (s.withScript v).bt = s.bt := rfl
@[simp] theorem State.withScript_acc (s : State) (v : List HostAction) : (s.withScript v).acc = s.acc := rfl
@[simp] theorem State.withScript_accBits (s : State) (v : List HostAction) : (s.withScript v).accBits = s.accBits := rfl
@[simp] theorem State.withScript_chan (s : State) (v : List HostAction) : (s.withScript v).chan = s.chan := rfl
@[simp] theorem State.withScript_pay (s : State) (v : List HostAction) : (s.withScript v).pay = s.pay := rfl
@[simp] theorem State.withScript_pkt (s : State) (v : List HostAction) : (s.withScript v).pkt = s.pkt := rfl
@[simp] theorem State.withScript_name (s : State) (v : List HostAction) : (s.withScript v).name = s.name := rfl
@[simp] theorem State.withScript_cont (s : State) (v : List HostAction) : (s.withScript v).cont = s.cont := rfl
@[simp] theorem State.withScript_params (s : State) (v : List HostAction) : (s.withScript v).params = s.params := rfl
@[simp] theorem State.withScript_env (s : State) (v : List HostAction) : (s.withScript v).env = { s.env with script := v } := rfl

@[simp] theorem State.withDraws_status (s : State) (v : List Byte) : (s.withDraws v).status = s.status := rfl
@[simp] theorem State.withDraws_bits (s : State) (v : List Byte) : (s.withDraws v).bits = s.bits := rfl
@[simp] theorem State.withDraws_chLen (s : State) (v : List Byte) : (s.withDraws v).chLen = s.chLen := rfl
@[simp] theorem State.withDraws_payLen (s : State) (v : List Byte) : (s.withDraws v).payLen = s.payLen := rfl
@[simp] theorem State.withDraws_nameLen (s : State) (v : List Byte) : (s.withDraws v).nameLen = s.nameLen := rfl
@[simp] theorem State.withDraws_contLen (s : State) (v : List Byte) : (s.withDraws v).contLen = s.contLen := rfl
@[simp] theorem State.withDraws_reqLen (s : State) (v : List Byte) : (s.withDraws v).reqLen = s.reqLen := rfl
@[simp] theorem State.withDraws_pktLen (s : State) (v : List Byte) : (s.withDraws v).pktLen = s.pktLen := rfl
@[simp] theorem State.withDraws_capBits (s : State) (v : List Byte) : (s.withDraws v).capBits = s.capBits := rfl
@[simp] theorem State.withDraws_capBytes (s : State) (v : List Byte) : (s.withDraws v).capBytes = s.capBytes := rfl
@[simp] theorem State.withDraws_cur (s : State) (v : List Byte) : (s.withDraws v).cur = s.cur := rfl
@[simp] theorem State.withDraws_bt (s : State) (v : List Byte) : (s.withDraws v).bt = s.bt := rfl
@[simp] theorem State.withDraws_acc (s : State) (v : List Byte) : (s.withDraws v).acc = s.acc := rfl
@[simp] theorem State.withDraws_accBits (s : State) (v : List Byte) : (s.withDraws v).accBits = s.accBits := rfl
@[simp] theorem State.withDraws_chan (s : State) (v : List Byte) : (s.withDraws v).chan = s.chan := rfl
@[simp] theorem State.withDraws_pay (s : State) (v : List Byte) : (s.withDraws v).pay = s.pay := rfl
@[simp] theorem State.withDraws_pkt (s : State) (v : List Byte) : (s.withDraws v).pkt = s.pkt := rfl
@[simp] theorem State.withDraws_name (s : State) (v : List Byte) : (s.withDraws v).name = s.name := rfl
@[simp] theorem State.withDraws_cont (s : State) (v : List Byte) : (s.withDraws v).cont = s.cont := rfl
@[simp] theorem State.withDraws_params (s : State) (v : List Byte) : (s.withDraws v).params = s.params := rfl
@[simp] theorem State.withDraws_env (s : State) (v : List Byte) : (s.withDraws v).env = { s.env with draws := v } := rfl

@[simp] theorem State.withMem_status (s : State) (sp : Space) (m : Memory) : (s.withMem sp m).status = s.status := by
  cases sp <;> rfl
@[simp] theorem State.withMem_bits (s : State) (sp : Space) (m : Memory) : (s.withMem sp m).bits = s.bits := by
  cases sp <;> rfl
@[simp] theorem State.withMem_chLen (s : State) (sp : Space) (m : Memory) : (s.withMem sp m).chLen = s.chLen := by
  cases sp <;> rfl
@[simp] theorem State.withMem_payLen (s : State) (sp : Space) (m : Memory) : (s.withMem sp m).payLen = s.payLen := by
  cases sp <;> rfl
@[simp] theorem State.withMem_nameLen (s : State) (sp : Space) (m : Memory) : (s.withMem sp m).nameLen = s.nameLen := by
  cases sp <;> rfl
@[simp] theorem State.withMem_contLen (s : State) (sp : Space) (m : Memory) : (s.withMem sp m).contLen = s.contLen := by
  cases sp <;> rfl
@[simp] theorem State.withMem_reqLen (s : State) (sp : Space) (m : Memory) : (s.withMem sp m).reqLen = s.reqLen := by
  cases sp <;> rfl
@[simp] theorem State.withMem_pktLen (s : State) (sp : Space) (m : Memory) : (s.withMem sp m).pktLen = s.pktLen := by
  cases sp <;> rfl
@[simp] theorem State.withMem_capBits (s : State) (sp : Space) (m : Memory) : (s.withMem sp m).capBits = s.capBits := by
  cases sp <;> rfl
@[simp] theorem State.withMem_capBytes (s : State) (sp : Space) (m : Memory) : (s.withMem sp m).capBytes = s.capBytes := by
  cases sp <;> rfl
@[simp] theorem State.withMem_cur (s : State) (sp : Space) (m : Memory) : (s.withMem sp m).cur = s.cur := by
  cases sp <;> rfl
@[simp] theorem State.withMem_bt (s : State) (sp : Space) (m : Memory) : (s.withMem sp m).bt = s.bt := by
  cases sp <;> rfl
@[simp] theorem State.withMem_acc (s : State) (sp : Space) (m : Memory) : (s.withMem sp m).acc = s.acc := by
  cases sp <;> rfl
@[simp] theorem State.withMem_accBits (s : State) (sp : Space) (m : Memory) : (s.withMem sp m).accBits = s.accBits := by
  cases sp <;> rfl
@[simp] theorem State.withMem_params (s : State) (sp : Space) (m : Memory) : (s.withMem sp m).params = s.params := by
  cases sp <;> rfl
@[simp] theorem State.withMem_env (s : State) (sp : Space) (m : Memory) : (s.withMem sp m).env = s.env := by
  cases sp <;> rfl

@[simp] theorem State.mem_withMem_same (s : State) (sp : Space) (m : Memory) : (s.withMem sp m).mem sp = m := by
  cases sp <;> rfl

theorem State.mem_withMem_other (s : State) {sp sp' : Space} (m : Memory) (h : sp' ≠ sp) :
    (s.withMem sp m).mem sp' = s.mem sp' := by
  cases sp <;> cases sp' <;> first | rfl | exact absurd rfl h

@[simp] theorem State.mem_withStatus (s : State) (v : Status) : (s.withStatus v).mem = s.mem := by
  funext sp; cases sp <;> rfl
@[simp] theorem State.mem_withBits (s : State) (v : BitVec 8) : (s.withBits v).mem = s.mem := by
  funext sp; cases sp <;> rfl
@[simp] theorem State.mem_withChLen (s : State) (v : Word) : (s.withChLen v).mem = s.mem := by
  funext sp; cases sp <;> rfl
@[simp] theorem State.mem_withPayLen (s : State) (v : Word) : (s.withPayLen v).mem = s.mem := by
  funext sp; cases sp <;> rfl
@[simp] theorem State.mem_withNameLen (s : State) (v : Word) : (s.withNameLen v).mem = s.mem := by
  funext sp; cases sp <;> rfl
@[simp] theorem State.mem_withContLen (s : State) (v : BitVec 32) : (s.withContLen v).mem = s.mem := by
  funext sp; cases sp <;> rfl
@[simp] theorem State.mem_withReqLen (s : State) (v : Word) : (s.withReqLen v).mem = s.mem := by
  funext sp; cases sp <;> rfl
@[simp] theorem State.mem_withPktLen (s : State) (v : Word) : (s.withPktLen v).mem = s.mem := by
  funext sp; cases sp <;> rfl
@[simp] theorem State.mem_withCur (s : State) (v : Word) : (s.withCur v).mem = s.mem := by
  funext sp; cases sp <;> rfl
@[simp] theorem State.mem_withBt (s : State) (v : BitVec 4) : (s.withBt v).mem = s.mem := by
  funext sp; cases sp <;> rfl
@[simp] theorem State.mem_withEnv (s : State) (v : Env) : (s.withEnv v).mem = s.mem := by
  funext sp; cases sp <;> rfl
@[simp] theorem State.mem_withCap (s : State) (a b : Word) : (s.withCap a b).mem = s.mem := by
  funext sp; cases sp <;> rfl
@[simp] theorem State.mem_withAcc (s : State) (a : BitVec 16) (n : BitVec 5) : (s.withAcc a n).mem = s.mem := by
  funext sp; cases sp <;> rfl
@[simp] theorem State.mem_withScript (s : State) (v : List HostAction) : (s.withScript v).mem = s.mem := by
  funext sp; cases sp <;> rfl
@[simp] theorem State.mem_withDraws (s : State) (v : List Byte) : (s.withDraws v).mem = s.mem := by
  funext sp; cases sp <;> rfl

end Sys2Proof.Machine
end

