-- ==== Sys2Proof/Laws/Memory.lean ====
section
/-! SUPPORT. The memory laws: a read after a write, the canonical form, and the same for cells and byte ranges of a
state. -/

namespace Sys2Proof.Machine

/-! ### Lists of cells -/

@[simp] theorem Memory.read_write_same (m : Memory) (i : Nat) (v : Byte) :
    Memory.read (Memory.write m i v) i = some v := by
  induction m with
  | nil => simp [Memory.write, Memory.read]
  | cons c m ih =>
    obtain ⟨j, w⟩ := c
    simp only [Memory.write]
    split
    · simp [Memory.read]
    · split
      · simp [Memory.read]
      · simp [Memory.read, *]

theorem Memory.read_write_other (m : Memory) {i k : Nat} (v : Byte) (h : k ≠ i) :
    Memory.read (Memory.write m i v) k = Memory.read m k := by
  induction m with
  | nil => simp [Memory.write, Memory.read, h]
  | cons c m ih =>
    obtain ⟨j, w⟩ := c
    simp only [Memory.write]
    split
    · simp [Memory.read, h]
    · split
      · subst_vars; simp [Memory.read, h]
      · simp [Memory.read, ih]

theorem Memory.mem_write {m : Memory} {i : Nat} {v : Byte} {c : Host.Cell} (h : c ∈ Memory.write m i v) :
    c = (i, v) ∨ c ∈ m := by
  induction m with
  | nil => simpa [Memory.write] using h
  | cons d m ih =>
    obtain ⟨j, w⟩ := d
    simp only [Memory.write] at h
    split at h
    · simpa using h
    · split at h
      · rcases List.mem_cons.1 h with h | h
        · exact .inl h
        · exact .inr (List.mem_cons_of_mem _ h)
      · rcases List.mem_cons.1 h with h | h
        · exact .inr (h ▸ List.mem_cons_self)
        · exact (ih h).imp id (List.mem_cons_of_mem _)

/-- Every write keeps the canonical form. -/
theorem Memory.write_wf {m : Memory} (i : Nat) (v : Byte) (h : Memory.wf m) : Memory.wf (Memory.write m i v) := by
  induction m with
  | nil => simp [Memory.write, Memory.wf]
  | cons d m ih =>
    obtain ⟨j, w⟩ := d
    have hd := List.pairwise_cons.1 h
    simp only [Memory.write]
    split
    · refine List.pairwise_cons.2 ⟨fun c hc => ?_, h⟩
      rcases List.mem_cons.1 hc with rfl | hc
      · assumption
      · exact Nat.lt_trans ‹i < j› (hd.1 c hc)
    · split
      · subst_vars
        exact List.pairwise_cons.2 ⟨hd.1, hd.2⟩
      · refine List.pairwise_cons.2 ⟨fun c hc => ?_, ih hd.2⟩
        rcases Memory.mem_write hc with rfl | hc
        · show j < i; omega
        · exact hd.1 c hc

theorem Memory.read_eq_none_of_forall_ne {m : Memory} {i : Nat} (h : ∀ c ∈ m, c.1 ≠ i) : Memory.read m i = none := by
  induction m with
  | nil => rfl
  | cons d m ih =>
    obtain ⟨j, w⟩ := d
    have hj : j ≠ i := h (j, w) List.mem_cons_self
    simp [Memory.read, Ne.symm hj, ih fun c hc => h c (List.mem_cons_of_mem _ hc)]

/-- In canonical form, equal memories are equal data. -/
theorem Memory.ext {m n : Memory} (hm : Memory.wf m) (hn : Memory.wf n)
    (h : ∀ i, Memory.read m i = Memory.read n i) : m = n := by
  induction m generalizing n with
  | nil =>
    cases n with
    | nil => rfl
    | cons d n => simpa [Memory.read] using h d.1
  | cons c m ih =>
    obtain ⟨i, v⟩ := c
    have hc := List.pairwise_cons.1 hm
    cases n with
    | nil => simpa [Memory.read] using h i
    | cons d n =>
      obtain ⟨j, w⟩ := d
      have hd := List.pairwise_cons.1 hn
      have hlt : ∀ {k l : Nat} {x y : Byte} {p q : Memory}, (∀ c ∈ q, l < c.1) → k < l →
          Memory.read ((k, x) :: p) k = Memory.read ((l, y) :: q) k → False := by
        intro k l x y p q hq hkl hr
        rw [Memory.read_eq_none_of_forall_ne (m := (l, y) :: q)] at hr
        · simp [Memory.read] at hr
        · intro c hc
          rcases List.mem_cons.1 hc with rfl | hc
          · exact Nat.ne_of_gt hkl
          · exact Nat.ne_of_gt (Nat.lt_trans hkl (hq c hc))
      have hij : i = j := by
        rcases Nat.lt_trichotomy i j with hl | he | hl
        · exact (hlt hd.1 hl (h i)).elim
        · exact he
        · exact (hlt hc.1 hl (h j).symm).elim
      subst hij
      have hv : v = w := by simpa [Memory.read] using h i
      subst hv
      congr 1
      refine ih hc.2 hd.2 fun k => ?_
      by_cases hk : k = i
      · subst hk
        rw [Memory.read_eq_none_of_forall_ne fun c h => Nat.ne_of_gt (hc.1 c h),
          Memory.read_eq_none_of_forall_ne fun c h => Nat.ne_of_gt (hd.1 c h)]
      · simpa [Memory.read, hk] using h k

/-! ### Cells of a state -/

/-- What a cell reads as is settled by its space's list and the number of resets. -/
theorem readCell_congr {s t : State} {sp : Space} {i : Nat} (hm : Memory.read (t.mem sp) i = Memory.read (s.mem sp) i)
    (hr : t.env.resets = s.env.resets) : readCell t sp i = readCell s sp i := by
  simp [readCell, hm, hr]

/-! A register write changes no cell. -/

@[simp] theorem readCell_withStatus (s : State) (v : Status) : readCell (s.withStatus v) = readCell s := by
  funext sp i; simp [readCell]
@[simp] theorem readCell_withBits (s : State) (v : BitVec 8) : readCell (s.withBits v) = readCell s := by
  funext sp i; simp [readCell]
@[simp] theorem readCell_withNameLen (s : State) (v : Word) : readCell (s.withNameLen v) = readCell s := by
  funext sp i; simp [readCell]
@[simp] theorem readCell_withContLen (s : State) (v : BitVec 32) : readCell (s.withContLen v) = readCell s := by
  funext sp i; simp [readCell]
@[simp] theorem readCell_withPktLen (s : State) (v : Word) : readCell (s.withPktLen v) = readCell s := by
  funext sp i; simp [readCell]
@[simp] theorem readCell_withCap (s : State) (a b : Word) : readCell (s.withCap a b) = readCell s := by
  funext sp i; simp [readCell]
@[simp] theorem readCell_withCur (s : State) (v : Word) : readCell (s.withCur v) = readCell s := by
  funext sp i; simp [readCell]
@[simp] theorem readCell_withBt (s : State) (v : BitVec 4) : readCell (s.withBt v) = readCell s := by
  funext sp i; simp [readCell]
@[simp] theorem readCell_withAcc (s : State) (a : BitVec 16) (n : BitVec 5) : readCell (s.withAcc a n) = readCell s := by
  funext sp i; simp [readCell]
@[simp] theorem readCell_withScript (s : State) (v : List HostAction) : readCell (s.withScript v) = readCell s := by
  funext sp i; simp [readCell]
@[simp] theorem readCell_withDraws (s : State) (v : List Byte) : readCell (s.withDraws v) = readCell s := by
  funext sp i; simp [readCell]
@[simp] theorem readCell_afterDraw (s : State) : readCell (afterDraw s) = readCell s := by
  funext sp i; simp [readCell, afterDraw]
@[simp] theorem readCell_withChLen (s : State) (v : Word) : readCell (s.withChLen v) = readCell s := by
  funext sp i; simp [readCell]
@[simp] theorem readCell_withPayLen (s : State) (v : Word) : readCell (s.withPayLen v) = readCell s := by
  funext sp i; simp [readCell]
@[simp] theorem readCell_withReqLen (s : State) (v : Word) : readCell (s.withReqLen v) = readCell s := by
  funext sp i; simp [readCell]

@[simp] theorem readCell_writeCell_same (s : State) (sp : Space) (i : Nat) (v : Byte) :
    readCell (writeCell s sp i v) sp i = v := by
  simp [readCell, writeCell]

theorem readCell_writeCell_other (s : State) {sp sp' : Space} {i k : Nat} (v : Byte) (h : ¬ (sp' = sp ∧ k = i)) :
    readCell (writeCell s sp i v) sp' k = readCell s sp' k := by
  refine readCell_congr ?_ (by simp [writeCell])
  by_cases hs : sp' = sp
  · subst hs
    simpa [writeCell] using Memory.read_write_other _ v fun hk => h ⟨rfl, hk⟩
  · simp [writeCell, State.mem_withMem_other _ _ hs]

theorem readCell_writeCell (s : State) (sp sp' : Space) (i k : Nat) (v : Byte) :
    readCell (writeCell s sp i v) sp' k = if sp' = sp ∧ k = i then v else readCell s sp' k := by
  split
  · rename_i h; obtain ⟨rfl, rfl⟩ := h; simp
  · exact readCell_writeCell_other s v ‹_›

/-- `MemRead` gives `n` bytes, each the cell's. -/
@[simp] theorem readBytes_length (s : State) (sp : Space) (start n : Nat) : (readBytes s sp start n).length = n := by
  induction n generalizing start with
  | zero => rfl
  | succ n ih => simp [readBytes, ih]

theorem readBytes_getElem? (s : State) (sp : Space) (start n k : Nat) :
    (readBytes s sp start n)[k]? = if k < n then some (readCell s sp (start + k)) else none := by
  induction n generalizing start k with
  | zero => simp [readBytes]
  | succ n ih =>
    cases k with
    | zero => simp [readBytes]
    | succ k => simp [readBytes, ih, Nat.add_assoc, Nat.add_comm 1 k]

theorem readBytes_congr {s t : State} {sp : Space} {start n : Nat}
    (h : ∀ k, k < n → readCell t sp (start + k) = readCell s sp (start + k)) :
    readBytes t sp start n = readBytes s sp start n := by
  refine List.ext_getElem? fun k => ?_
  rw [readBytes_getElem?, readBytes_getElem?]
  split
  · rw [h k ‹_›]
  · rfl

/-- `MemWrite` stores the bytes at `start ..` and leaves every other cell alone. -/
theorem readCell_writeBytes (s : State) (sp sp' : Space) (start k : Nat) (vs : List Byte) :
    readCell (writeBytes s sp start vs) sp' k =
      if sp' = sp ∧ start ≤ k ∧ k < start + vs.length then vs.getD (k - start) 0 else readCell s sp' k := by
  induction vs generalizing s start with
  | nil => rw [if_neg (by rintro ⟨-, h⟩; simp at h; omega)]; rfl
  | cons v vs ih =>
    rw [writeBytes, ih, readCell_writeCell]
    by_cases hs : sp' = sp
    · subst hs
      rcases Nat.lt_trichotomy k start with hk | rfl | hk
      · have h1 : ¬ (start + 1 ≤ k ∧ k < start + 1 + vs.length) := by omega
        have h2 : ¬ (start ≤ k ∧ k < start + (v :: vs).length) := by omega
        rw [if_neg (fun h => h1 h.2), if_neg (fun h => Nat.ne_of_lt hk h.2), if_neg (fun h => h2 h.2)]
      · simp
      · have h1 : start + 1 ≤ k := hk
        have h2 : start ≤ k := by omega
        have h3 : k - start = (k - (start + 1)) + 1 := by omega
        have h4 : k < start + 1 + vs.length ↔ k < start + (v :: vs).length := by simp; omega
        simp only [true_and, h1, h2, h3, h4, Nat.ne_of_gt hk, if_false, List.getD_cons_succ]
    · simp [hs]

theorem readCell_writeBytes_space (s : State) {sp sp' : Space} (h : sp' ≠ sp) (start k : Nat) (vs : List Byte) :
    readCell (writeBytes s sp start vs) sp' k = readCell s sp' k := by
  rw [readCell_writeBytes, if_neg fun hc => h hc.1]

/-- `MemWrite` of `MemRead` elsewhere copies byte for byte. -/
theorem readCell_copy (s t : State) (sp sp' src : Space) (start from_ n k : Nat) :
    readCell (writeBytes s sp start (readBytes t src from_ n)) sp' k =
      if sp' = sp ∧ start ≤ k ∧ k < start + n then readCell t src (from_ + (k - start)) else readCell s sp' k := by
  rw [readCell_writeBytes, readBytes_length]
  split
  · rw [List.getD_eq_getElem?_getD, readBytes_getElem?, if_pos (by omega)]; rfl
  · rfl

/-! ### What the memory operations keep -/

theorem writeCell_eq (s : State) (sp : Space) (i : Nat) (v : Byte) :
    writeCell s sp i v = s.withMem sp (Memory.write (s.mem sp) i v) := rfl

@[simp] theorem State.withMem_withMem (s : State) (sp : Space) (m n : Memory) :
    (s.withMem sp m).withMem sp n = s.withMem sp n := by
  cases sp <;> rfl

@[simp] theorem State.withMem_self (s : State) (sp : Space) : s.withMem sp (s.mem sp) = s := by
  cases sp <;> rfl

theorem State.withCur_withMem (s : State) (c : Word) (sp : Space) (m : Memory) :
    (s.withCur c).withMem sp m = (s.withMem sp m).withCur c := by
  cases sp <;> rfl

theorem State.withCur_withCur (s : State) (c d : Word) : (s.withCur c).withCur d = s.withCur d := rfl

/-- `MemWrite` changes the one space it writes and nothing else. -/
theorem writeBytes_eq (s : State) (sp : Space) (start : Nat) (vs : List Byte) :
    writeBytes s sp start vs = s.withMem sp ((writeBytes s sp start vs).mem sp) := by
  induction vs generalizing s start with
  | nil => simp [writeBytes]
  | cons v vs ih =>
    rw [writeBytes, ih]
    simp [writeCell_eq]

/-- A list whose canonical form and bound hold. -/
def Memory.ok (bound : Nat) (m : Memory) : Prop := Memory.wf m ∧ ∀ c ∈ m, c.1 < bound

theorem Memory.ok_write {bound i : Nat} {m : Memory} (v : Byte) (h : Memory.ok bound m) (hi : i < bound) :
    Memory.ok bound (Memory.write m i v) := by
  refine ⟨Memory.write_wf i v h.1, fun c hc => ?_⟩
  rcases Memory.mem_write hc with rfl | hc
  · exact hi
  · exact h.2 c hc

/-- Every memory of a state in canonical form and inside its bound. -/
def MemoryOk (bound : Nat) (s : State) : Prop := ∀ sp, Memory.ok bound (s.mem sp)

theorem MemoryOk.congr {bound : Nat} {s t : State} (h : MemoryOk bound s) (hm : ∀ sp, t.mem sp = s.mem sp) :
    MemoryOk bound t := fun sp => hm sp ▸ h sp

theorem MemoryOk.writeCell {bound i : Nat} {s : State} (h : MemoryOk bound s) (sp : Space) (v : Byte) (hi : i < bound) :
    MemoryOk bound (writeCell s sp i v) := by
  intro sp'
  by_cases hs : sp' = sp
  · subst hs
    rw [writeCell_eq, State.mem_withMem_same]
    exact Memory.ok_write v (h sp') hi
  · rw [writeCell_eq, State.mem_withMem_other _ _ hs]
    exact h sp'

theorem MemoryOk.writeBytes {bound start : Nat} {s : State} (h : MemoryOk bound s) (sp : Space) (vs : List Byte)
    (hb : vs = [] ∨ start + vs.length ≤ bound) : MemoryOk bound (writeBytes s sp start vs) := by
  induction vs generalizing s start with
  | nil => exact h
  | cons v vs ih =>
    have hb' : start + (vs.length + 1) ≤ bound := by simpa using hb
    exact ih (h.writeCell sp v (by omega)) (.inr (by omega))

end Sys2Proof.Machine
end

