-- ==== Sys2Proof/Laws/CursorWrite.lean ====
section
/-! SUPPORT. What WRITE_CHANNEL and the loops built on it do: the write cursor after `k` groups, and the payload, flush
and trailing phases in terms of it (42_cursor_write.md R130, R131, R143 to R147). -/

namespace Sys2Proof.Machine

/-! ### Bits -/

theorem getLsbD_mask (n w q : Nat) (hq : q < n) : (mask n w).getLsbD q = decide (q < w) := by
  rw [mask, BitVec.getLsbD_ofNat, Nat.testBit_two_pow_sub_one]
  simp [hq]

/-- The usable channel a colour channel index belongs to: the inverse of `idx` (20_memory.md R57). -/
def usableNumber (i : Nat) : Nat := 3 * ((i - 4) / 4) + i % 4

theorem usableIndex_mod (j : Nat) : usableIndex j % 4 ≠ 3 := by unfold usableIndex; omega

theorem usableNumber_usableIndex (j : Nat) : usableNumber (usableIndex j) = j := by
  unfold usableNumber usableIndex
  rw [show 4 + 4 * (j / 3) + j % 3 - 4 = 4 * (j / 3) + j % 3 by omega]
  omega

theorem usableIndex_usableNumber {i : Nat} (h : 4 ≤ i) (ha : i % 4 ≠ 3) : usableIndex (usableNumber i) = i := by
  unfold usableNumber usableIndex; omega

/-- The step from one usable channel to the next: over the alpha channel after a pixel's third channel. -/
theorem usableIndex_succ (k : Nat) :
    usableIndex (k + 1) = if (usableIndex k + 1) % 4 = 3 then usableIndex k + 2 else usableIndex k + 1 := by
  obtain ⟨a, r, hr, rfl⟩ : ∃ a r, r < 3 ∧ k = 3 * a + r := ⟨k / 3, k % 3, Nat.mod_lt _ (by decide), by omega⟩
  have h : usableIndex (3 * a + r) = 4 + 4 * a + r := by unfold usableIndex; omega
  rw [h]
  have : r = 0 ∨ r = 1 ∨ r = 2 := by omega
  rcases this with rfl | rfl | rfl <;> unfold usableIndex <;> split <;> omega

theorem usableIndex_strictMono {j k : Nat} (h : j < k) : usableIndex j < usableIndex k := by
  unfold usableIndex; omega

theorem usableIndex_usableCount {s : State} (h4 : s.chLen.toNat % 4 = 0) (hl : 4 ≤ s.chLen.toNat) :
    usableIndex (usableCount s) = s.chLen.toNat := by
  unfold usableIndex usableCount; omega

/-! ### Draws -/

theorem nextDraw_eq (s : State) : nextDraw s = drawAt s 0 := by
  unfold nextDraw drawAt
  cases s.env.draws <;> simp

theorem drawAt_afterDraw (s : State) (k : Nat) : drawAt (afterDraw s) k = drawAt s (k + 1) := by
  simp only [drawAt, afterDraw, State.withEnv_env, List.getElem?_tail]
  have : s.env.drawCount + 1 + k = s.env.drawCount + (k + 1) := by omega
  rw [this]

/-! ### The write cursor -/

/-- `t` is `s` but for the channels, the cursor, the accumulator and the draws. -/
def CursorOnly (s t : State) : Prop :=
  t = (((s.withMem .chan t.chan).withCur t.cur).withAcc t.acc t.accBits).withEnv t.env

/-- `t` is what the write cursor makes of `s` at depth `b` once it has written the first `k` usable channels, bit `q` of
channel `j` being `vb j q`. -/
structure Written (s : State) (b : Nat) (vb : Nat → Nat → Bool) (k : Nat) (t : State) : Prop where
  cur : t.cur.toNat = usableIndex k
  chan : ∀ i q, q < 8 → (readCell t .chan i).getLsbD q =
    if 4 ≤ i ∧ i < usableIndex k then
      if i % 4 = 3 then s.params.alphaBlank.getLsbD q
      else if q < b then vb (usableNumber i) q else (readCell s .chan i).getLsbD q
    else (readCell s .chan i).getLsbD q
  only : CursorOnly s t
  resets : t.env.resets = s.env.resets

theorem CursorOnly.eq {s t : State} (h : CursorOnly s t) :
    t = (((s.withMem .chan t.chan).withCur t.cur).withAcc t.acc t.accBits).withEnv t.env := h

theorem CursorOnly.chLen {s t : State} (h : CursorOnly s t) : t.chLen = s.chLen := by simpa using congrArg State.chLen h.eq
theorem CursorOnly.payLen {s t : State} (h : CursorOnly s t) : t.payLen = s.payLen := by
  simpa using congrArg State.payLen h.eq
theorem CursorOnly.params {s t : State} (h : CursorOnly s t) : t.params = s.params := by
  simpa using congrArg State.params h.eq
theorem CursorOnly.status {s t : State} (h : CursorOnly s t) : t.status = s.status := by
  simpa using congrArg State.status h.eq
theorem CursorOnly.bt {s t : State} (h : CursorOnly s t) : t.bt = s.bt := by simpa using congrArg State.bt h.eq

theorem CursorOnly.mem {s t : State} (h : CursorOnly s t) {sp : Space} (hs : sp ≠ .chan) : t.mem sp = s.mem sp := by
  have := congrArg (fun u => State.mem u sp) h.eq
  simpa [State.mem_withMem_other _ _ hs] using this

theorem CursorOnly.refl (s : State) : CursorOnly s s := by
  cases s; rfl

theorem CursorOnly.trans {s t u : State} (h₁ : CursorOnly s t) (h₂ : CursorOnly t u) : CursorOnly s u := by
  obtain ⟨⟩ := s; obtain ⟨⟩ := t; obtain ⟨⟩ := u
  simp_all [CursorOnly, State.withMem, State.withCur, State.withAcc, State.withEnv]

theorem CursorOnly.withAcc {s t : State} (h : CursorOnly s t) (a : BitVec 16) (n : BitVec 5) :
    CursorOnly s (t.withAcc a n) := by
  obtain ⟨⟩ := s; obtain ⟨⟩ := t
  simp_all [CursorOnly, State.withMem, State.withCur, State.withAcc, State.withEnv]

theorem CursorOnly.withCur {s t : State} (h : CursorOnly s t) (v : Word) : CursorOnly s (t.withCur v) := by
  obtain ⟨⟩ := s; obtain ⟨⟩ := t
  simp_all [CursorOnly, State.withMem, State.withCur, State.withAcc, State.withEnv]

theorem CursorOnly.writeCell {s t : State} (h : CursorOnly s t) (i : Nat) (v : Byte) :
    CursorOnly s (writeCell t .chan i v) := by
  obtain ⟨⟩ := s; obtain ⟨⟩ := t
  simp_all [CursorOnly, State.withMem, State.withCur, State.withAcc, State.withEnv, Machine.writeCell]

theorem CursorOnly.afterDraw {s t : State} (h : CursorOnly s t) : CursorOnly s (afterDraw t) := by
  obtain ⟨⟩ := s; obtain ⟨⟩ := t
  simp_all [CursorOnly, State.withMem, State.withCur, State.withAcc, State.withEnv, Machine.afterDraw]

theorem Written.withAcc {s t : State} {b k : Nat} {vb : Nat → Nat → Bool} (h : Written s b vb k t) (a : BitVec 16)
    (n : BitVec 5) : Written s b vb k (t.withAcc a n) where
  cur := h.cur
  chan i q hq := by simpa using h.chan i q hq
  only := h.only.withAcc a n
  resets := h.resets

theorem Written.afterDraw {s t : State} {b k : Nat} {vb : Nat → Nat → Bool} (h : Written s b vb k t) :
    Written s b vb k (afterDraw t) where
  cur := h.cur
  chan i q hq := by simpa using h.chan i q hq
  only := h.only.afterDraw
  resets := h.resets

theorem Written.zero {s : State} {b : Nat} {vb : Nat → Nat → Bool} (h : s.cur.toNat = 4) : Written s b vb 0 s where
  cur := h
  chan i q _ := by rw [if_neg]; simp [usableIndex]
  only := .refl s
  resets := rfl

/-- WRITE_CHANNEL with the cursor at the end of the buffer: the fatal error, nothing written (42_cursor_write.md R130). -/
theorem writeChannel_overflow {s : State} (v : Byte) (w : Nat) (h : s.chLen.toNat ≤ s.cur.toNat) :
    writeChannel v w s = .raised .cursorMismatch s := by
  simp [writeChannel, Nat.not_lt.2 h]

/-- WRITE_CHANNEL inside the buffer. -/
theorem writeChannel_inside {s : State} (v : Byte) (w : Nat) (h : s.cur.toNat < s.chLen.toNat) :
    writeChannel v w s = .done
      (let s₁ := (writeCell s .chan s.cur.toNat ((readCell s .chan s.cur.toNat &&& ~~~ mask 8 w) ||| v)).withCur
        (BitVec.ofNat 64 (s.cur.toNat + 1))
      if (s.cur.toNat + 1) % 4 = 3 then
        (writeCell s₁ .chan (s.cur.toNat + 1) s.params.alphaBlank).withCur (BitVec.ofNat 64 (s.cur.toNat + 2))
      else s₁) := by
  simp only [writeChannel, h, if_true, isAlpha, decide_eq_true_eq]
  split <;> rfl

/-- WRITE_CHANNEL raises nothing but the fatal error, and then in the state it found. -/
theorem writeChannel_raised {s t : State} {v : Byte} {w : Nat} {e : ErrCode} (h : writeChannel v w s = .raised e t) :
    e = .cursorMismatch ∧ t = s ∧ s.chLen.toNat ≤ s.cur.toNat := by
  by_cases hlt : s.cur.toNat < s.chLen.toNat
  · rw [writeChannel_inside v w hlt] at h; cases h
  · rw [writeChannel_overflow v w (Nat.not_lt.1 hlt)] at h
    cases h; exact ⟨rfl, rfl, Nat.not_lt.1 hlt⟩

theorem toNat_ofNat_of_le_word {x : Nat} {w : Word} (h : x ≤ w.toNat) : (BitVec.ofNat 64 x).toNat = x := by
  rw [BitVec.toNat_ofNat, Nat.mod_eq_of_lt]
  exact Nat.lt_of_le_of_lt h w.isLt

/-- WRITE_CHANNEL writes usable channel `k`, blanks the alpha channel behind it if there is one, and leaves the cursor on
usable channel `k + 1` (42_cursor_write.md R130, R131). -/
theorem writeChannel_written {s t : State} {b k : Nat} {vb : Nat → Nat → Bool} {v : Byte} (h : Written s b vb k t)
    (h4 : s.chLen.toNat % 4 = 0) (hk : usableIndex k < s.chLen.toNat)
    (hv : ∀ q, q < 8 → v.getLsbD q = (decide (q < b) && vb k q)) :
    ∃ u, writeChannel v b t = .done u ∧ Written s b vb (k + 1) u ∧ u.acc = t.acc ∧ u.accBits = t.accBits ∧
      u.env = t.env := by
  have hcur := h.cur
  have hlen : t.chLen = s.chLen := h.only.chLen
  have hlt : t.cur.toNat < t.chLen.toNat := by rw [hcur, hlen]; exact hk
  have hidx : usableNumber (usableIndex k) = k := usableNumber_usableIndex k
  have hmod := usableIndex_mod k
  have hge : 4 ≤ usableIndex k := by unfold usableIndex; omega
  have hcell : ∀ q, q < 8 → (readCell t .chan (usableIndex k) &&& ~~~ mask 8 b ||| v).getLsbD q =
      if q < b then vb k q else (readCell s .chan (usableIndex k)).getLsbD q := by
    intro q hq
    have := h.chan (usableIndex k) q hq
    rw [if_neg (by omega)] at this
    simp only [BitVec.getLsbD_or, BitVec.getLsbD_and, BitVec.getLsbD_not, hq, decide_true, Bool.true_and,
      getLsbD_mask 8 b q hq, hv q hq, this]
    by_cases hqb : q < b <;> simp [hqb]
  refine ⟨_, writeChannel_inside v b hlt, ?_⟩
  simp only [hcur]
  by_cases ha : (usableIndex k + 1) % 4 = 3
  · have hnext : usableIndex (k + 1) = usableIndex k + 2 := by rw [usableIndex_succ, if_pos ha]
    have hle : usableIndex k + 2 ≤ t.chLen.toNat := by rw [hlen]; omega
    rw [if_pos ha]
    refine ⟨⟨?_, ?_, ((((h.only.writeCell _ _).withCur _).writeCell _ _).withCur _), ?_⟩,
      by simp [writeCell], by simp [writeCell], by simp [writeCell]⟩
    · rw [State.withCur_cur, toNat_ofNat_of_le_word hle, hnext]
    · intro i q hq
      have hi := h.chan i q hq
      simp only [readCell_withCur, readCell_writeCell, true_and, hnext]
      by_cases h1 : i = usableIndex k + 1
      · subst h1
        rw [if_pos rfl, if_pos (by omega), if_pos ha, h.only.params]
      · rw [if_neg h1]
        by_cases h2 : i = usableIndex k
        · subst h2
          rw [if_pos rfl, hcell q hq, if_pos (show 4 ≤ usableIndex k ∧ usableIndex k < usableIndex k + 2 by omega),
            if_neg hmod, hidx]
        · rw [if_neg h2, hi]
          have : (4 ≤ i ∧ i < usableIndex k) ↔ (4 ≤ i ∧ i < usableIndex k + 2) := by omega
          simp only [this]
    · simp [writeCell, h.resets]
  · have hnext : usableIndex (k + 1) = usableIndex k + 1 := by rw [usableIndex_succ, if_neg ha]
    have hle : usableIndex k + 1 ≤ t.chLen.toNat := by rw [hlen]; omega
    rw [if_neg ha]
    refine ⟨⟨?_, ?_, (h.only.writeCell _ _).withCur _, ?_⟩,
      by simp [writeCell], by simp [writeCell], by simp [writeCell]⟩
    · rw [State.withCur_cur, toNat_ofNat_of_le_word hle, hnext]
    · intro i q hq
      have hi := h.chan i q hq
      simp only [readCell_withCur, readCell_writeCell, true_and, hnext]
      by_cases h2 : i = usableIndex k
      · subst h2
        rw [if_pos rfl, hcell q hq, if_pos (show 4 ≤ usableIndex k ∧ usableIndex k < usableIndex k + 1 by omega),
          if_neg hmod, hidx]
      · rw [if_neg h2, hi]
        have : (4 ≤ i ∧ i < usableIndex k) ↔ (4 ≤ i ∧ i < usableIndex k + 1) := by omega
        simp only [this]
    · simp [writeCell, h.resets]

/-! ### The payload phase -/

/-- `t` is what the payload phase makes of `s` once it has pushed `n` payload bits (42_cursor_write.md R143). -/
structure Pushed (s : State) (b : Nat) (vb : Nat → Nat → Bool) (n : Nat) (t : State) : Prop where
  written : Written s b vb (n / b) t
  accBits : t.accBits.toNat = n % b
  acc : ∀ u, u < 16 → t.acc.getLsbD u = (decide (u < n % b) && payloadBit s (n - 1 - u))
  env : t.env = s.env

/-- `t` is the state in which the payload found the buffer of `N` usable channels full (42_cursor_write.md R146). -/
structure Overflowed (s : State) (b : Nat) (vb : Nat → Nat → Bool) (N : Nat) (t : State) : Prop where
  written : Written s b vb N t
  accBits : t.accBits.toNat ≤ 8
  acc : t.acc.toNat < 2 ^ t.accBits.toNat

/-- How a part of the payload phase ends that has pushed `n` bits in all. -/
def PushResult (s : State) (b : Nat) (vb : Nat → Nat → Bool) (N n : Nat) (r : CmdResult) : Prop :=
  if n / b ≤ N then ∃ u, r = .done u ∧ Pushed s b vb n u else ∃ u, r = .raised .cursorMismatch u ∧ Overflowed s b vb N u

/-- What the loops need of the command's start: a legal depth and buffer, and `vb` the payload's bits up to `T`. -/
structure WriteSetup (s : State) (b N T : Nat) (vb : Nat → Nat → Bool) : Prop where
  pos : 1 ≤ b
  le : b ≤ 8
  mod : s.chLen.toNat % 4 = 0
  len : s.chLen.toNat = usableIndex N
  payload : ∀ j q, q < b → j * b + (b - 1 - q) < T → vb j q = payloadBit s (j * b + (b - 1 - q))

theorem lt_two_pow_of_getLsbD {w n : Nat} {x : BitVec w} (h : ∀ u, n ≤ u → u < w → x.getLsbD u = false) :
    x.toNat < 2 ^ n := by
  by_contra hc
  obtain ⟨u, hu, hb⟩ := Nat.exists_ge_and_testBit_of_ge_two_pow (Nat.not_lt.1 hc)
  by_cases huw : u < w
  · have := h u hu huw
    rw [BitVec.getLsbD, hb] at this
    cases this
  · have : x.toNat < 2 ^ u := Nat.lt_of_lt_of_le x.isLt (Nat.pow_le_pow_right (by decide) (Nat.not_lt.1 huw))
    rw [Nat.testBit_lt_two_pow this] at hb
    cases hb

theorem succ_div_mod {b : Nat} (n : Nat) (hb : 1 ≤ b) :
    (n % b + 1 = b ∧ (n + 1) / b = n / b + 1 ∧ (n + 1) % b = 0) ∨
      (n % b + 1 < b ∧ (n + 1) / b = n / b ∧ (n + 1) % b = n % b + 1) := by
  have h1 := Nat.mod_lt n hb
  have h2 := Nat.div_add_mod n b
  by_cases h : n % b + 1 = b
  · refine .inl ⟨h, ?_⟩
    exact (Nat.div_mod_unique hb).2 ⟨by rw [Nat.mul_add]; omega, by omega⟩
  · refine .inr ⟨by omega, ?_⟩
    exact (Nat.div_mod_unique hb).2 ⟨by omega, by omega⟩

/-- The accumulator after one more bit (42_cursor_write.md R143): the new bit lowest, the others one place up. -/
theorem getLsbD_pushed (acc : BitVec 16) (bit : Bool) (u : Nat) (hu : u < 16) :
    ((acc <<< 1) ||| (BitVec.ofBool bit).setWidth 16).getLsbD u = if u = 0 then bit else acc.getLsbD (u - 1) := by
  rw [BitVec.getLsbD_or, BitVec.getLsbD_shiftLeft, BitVec.getLsbD_setWidth]
  rcases Nat.eq_zero_or_pos u with rfl | h
  · simp
  · have : ¬ u < 1 := by omega
    simp [hu, this, Nat.ne_of_gt h, BitVec.getLsbD_of_ge (BitVec.ofBool bit) u h]

theorem pushBit_spec {s t : State} {b N T n : Nat} {vb : Nat → Nat → Bool} (hs : WriteSetup s b N T vb)
    (h : Pushed s b vb n t) (hn : n < T) (hN : n / b ≤ N) :
    PushResult s b vb N (n + 1) (pushBit b (payloadBit s n) t) := by
  have hb8 := hs.le
  have hmod := Nat.mod_lt n hs.pos
  have hdm := Nat.div_add_mod n b
  have hacc : ∀ u, u < 16 → ((t.acc <<< 1) ||| (BitVec.ofBool (payloadBit s n)).setWidth 16).getLsbD u =
      (decide (u < n % b + 1) && payloadBit s (n - u)) := by
    intro u hu
    rw [getLsbD_pushed _ _ _ hu]
    split
    · subst_vars; simp
    · rw [h.acc (u - 1) (by omega), show n - 1 - (u - 1) = n - u by omega]
      congr 1
      simp only [decide_eq_decide]; omega
  have hk : (BitVec.ofNat 5 (t.accBits.toNat + 1)).toNat = n % b + 1 := by
    rw [h.accBits, BitVec.toNat_ofNat]; exact Nat.mod_eq_of_lt (by omega)
  unfold pushBit
  simp only [h.accBits] at hk ⊢
  rcases succ_div_mod n hs.pos with ⟨h1, h2, h3⟩ | ⟨h1, h2, h3⟩
  · rw [if_pos h1]
    have hw := h.written.withAcc ((t.acc <<< 1) ||| (BitVec.ofBool (payloadBit s n)).setWidth 16) (BitVec.ofNat 5 (n % b + 1))
    by_cases hfull : n / b = N
    · have hge : s.chLen.toNat ≤ t.cur.toNat := by rw [h.written.cur, hfull, hs.len]
      unfold PushResult
      rw [h2, if_neg (by omega), writeChannel_overflow _ _ (by rw [State.withAcc_chLen, h.written.only.chLen]; exact hge)]
      refine ⟨_, rfl, hfull ▸ hw, ?_, ?_⟩
      · rw [State.withAcc_accBits, hk]; omega
      · rw [State.withAcc_accBits, State.withAcc_acc, hk]
        refine lt_two_pow_of_getLsbD fun u hu hu16 => ?_
        rw [hacc u hu16]
        simp [Nat.not_lt.2 hu]
    · have hlt : usableIndex (n / b) < s.chLen.toNat := by
        rw [hs.len]; exact usableIndex_strictMono (by omega)
      obtain ⟨u, hu, hwu, -, -, henv⟩ := writeChannel_written
        (v := ((t.acc <<< 1) ||| (BitVec.ofBool (payloadBit s n)).setWidth 16).setWidth 8) hw hs.mod hlt (by
          intro q hq
          rw [BitVec.getLsbD_setWidth, hacc q (by omega), h1]
          by_cases hqb : q < b
          · have hmul : n / b * b = b * (n / b) := Nat.mul_comm _ _
            rw [hs.payload (n / b) q hqb (by omega), show n / b * b + (b - 1 - q) = n - q by omega]
            simp [hq]
          · simp [hqb])
      unfold PushResult
      rw [h2, if_pos (by omega), hu]
      refine ⟨_, rfl, h2 ▸ hwu.withAcc 0 0, by simp [h3], fun u _ => by simp [h3], ?_⟩
      simp [henv, h.env]
  · rw [if_neg (by omega)]
    unfold PushResult
    rw [if_pos (h2 ▸ hN)]
    refine ⟨_, rfl, h2 ▸ h.written.withAcc _ _, by rw [State.withAcc_accBits, hk, h3], fun u hu => ?_, by simp [h.env]⟩
    rw [State.withAcc_acc, hacc u hu, h3]
    congr 2

theorem PushResult.andThen {s : State} {b N n k : Nat} {vb : Nat → Nat → Bool} {r : CmdResult} {f : State → CmdResult}
    (h : PushResult s b vb N n r)
    (hf : ∀ u, n / b ≤ N → Pushed s b vb n u → PushResult s b vb N (n + k) (f u)) :
    PushResult s b vb N (n + k) (r.andThen f) := by
  unfold PushResult at h
  split at h
  · obtain ⟨u, rfl, hu⟩ := h
    exact hf u ‹_› hu
  · obtain ⟨u, rfl, hu⟩ := h
    have : n / b ≤ (n + k) / b := Nat.div_le_div_right (by omega)
    unfold PushResult
    rw [if_neg (by omega)]
    exact ⟨u, rfl, hu⟩

theorem pushBits_spec {s : State} {b N T : Nat} {vb : Nat → Nat → Bool} (hs : WriteSetup s b N T vb) (v : Byte) (k : Nat) :
    ∀ {t : State} {n : Nat}, Pushed s b vb n t → n + k ≤ T → n / b ≤ N →
      (∀ i, i < k → v.getLsbD i = payloadBit s (n + (k - 1 - i))) → PushResult s b vb N (n + k) (pushBits b v k t) := by
  induction k with
  | zero =>
    intro t n h _ hN _
    unfold PushResult
    rw [Nat.add_zero, if_pos hN]
    exact ⟨t, rfl, h⟩
  | succ k ih =>
    intro t n h hT hN hv
    have hbit : v.getLsbD k = payloadBit s n := by
      rw [hv k (by omega), show n + (k + 1 - 1 - k) = n by omega]
    have h1 := pushBit_spec hs h (by omega) hN
    rw [← hbit] at h1
    have := PushResult.andThen (k := k) (f := pushBits b v k) h1 fun u hu hp =>
      ih hp (by omega) hu fun i hi => by
        rw [hv i (by omega), show n + (k + 1 - 1 - i) = n + 1 + (k - 1 - i) by omega]
    rw [show n + (k + 1) = n + 1 + k by omega]
    exact this

/-- A payload byte seen by the loop is the payload byte of the command's start: the loop writes only channels. -/
theorem Pushed.readPay {s t : State} {b n : Nat} {vb : Nat → Nat → Bool} (h : Pushed s b vb n t) (i : Nat) :
    readCell t .pay i = readCell s .pay i :=
  readCell_congr (by rw [h.written.only.mem (by decide)]) h.written.resets

theorem payloadPhase_spec {s : State} {b N T : Nat} {vb : Nat → Nat → Bool} (hs : WriteSetup s b N T vb) (todo : Nat) :
    ∀ {t : State} {i : Nat}, Pushed s b vb (8 * i) t → 8 * (i + todo) ≤ T → 8 * i / b ≤ N →
      PushResult s b vb N (8 * (i + todo)) (payloadPhase b todo i t) := by
  induction todo with
  | zero =>
    intro t i h _ hN
    unfold PushResult
    rw [Nat.add_zero, if_pos hN]
    exact ⟨t, rfl, h⟩
  | succ todo ih =>
    intro t i h hT hN
    have h1 := pushBits_spec hs (readCell t .pay i) 8 h (by omega) hN fun k hk => by
      rw [h.readPay, payloadBit, show (8 * i + (8 - 1 - k)) / 8 = i by omega,
        show 7 - (8 * i + (8 - 1 - k)) % 8 = k by omega]
    have := PushResult.andThen (k := 8 * todo) (f := payloadPhase b todo (i + 1)) h1 fun u hu hp => by
      have := ih (i := i + 1) hp (by omega) hu
      rwa [show 8 * i + 8 + 8 * todo = 8 * (i + 1 + todo) by omega]
    rw [show 8 * (i + (todo + 1)) = 8 * i + 8 + 8 * todo by omega]
    exact this

/-! ### The partial flush and the trailing phase -/

/-- The environment once `n` draws have been made. -/
def envAfter (s : State) (n : Nat) : Env :=
  { s.env with draws := s.env.draws.drop n, drawCount := s.env.drawCount + n }

theorem nextDraw_envAfter {s t : State} {n : Nat} (h : t.env = envAfter s n) : nextDraw t = drawAt s n := by
  rw [nextDraw_eq]
  simp [drawAt, h, envAfter]

theorem afterDraw_envAfter {s t : State} {n : Nat} (h : t.env = envAfter s n) : (afterDraw t).env = envAfter s (n + 1) := by
  simp [afterDraw, h, envAfter, Nat.add_assoc]

/-- The filler bits of a channel at or after the last payload bit come from its draw (42_cursor_write.md R144, R145). -/
def FillerBits (s : State) (b T : Nat) (vb : Nat → Nat → Bool) : Prop :=
  ∀ j q, q < b → T ≤ j * b + (b - 1 - q) → vb j q = (drawAt s (j - T / b)).getLsbD q

theorem partialFlush_spec {s t : State} {b N T : Nat} {vb : Nat → Nat → Bool} (hs : WriteSetup s b N T vb)
    (hf : FillerBits s b T vb) (h : Pushed s b vb T t) (hN : T / b ≤ N) :
    if T ≤ N * b then
      ∃ u k, partialFlush b t = .done u ∧ T / b ≤ k ∧ k ≤ N ∧ T ≤ k * b ∧ Written s b vb k u ∧ u.acc = 0 ∧ u.accBits = 0 ∧
        u.env = envAfter s (k - T / b)
    else ∃ u, partialFlush b t = .raised .cursorMismatch u ∧ Overflowed s b vb N u := by
  have hmod := Nat.mod_lt T hs.pos
  have hdm := Nat.div_add_mod T b
  have hb8 := hs.le
  have hmul : ∀ k, k * b = b * k := fun k => Nat.mul_comm k b
  have henv : t.env = envAfter s 0 := by rw [h.env]; simp [envAfter]
  unfold partialFlush
  rw [h.accBits]
  by_cases h0 : T % b = 0
  · have hle : T ≤ N * b := by
      rw [hmul]; have := Nat.mul_le_mul_left b hN; omega
    rw [if_pos hle, if_pos h0]
    refine ⟨t, T / b, rfl, Nat.le_refl _, hN, by rw [hmul]; omega, h.written, ?_, ?_, by rw [Nat.sub_self]; exact henv⟩
    · refine BitVec.eq_of_getLsbD_eq fun u hu => ?_
      rw [h.acc u hu, h0]; simp
    · refine BitVec.eq_of_toNat_eq ?_
      rw [h.accBits, h0]; rfl
  · rw [if_neg h0]
    by_cases hfull : T / b = N
    · have hgt : ¬ T ≤ N * b := by rw [hmul, ← hfull]; omega
      rw [if_neg hgt]
      simp only
      rw [writeChannel_overflow _ _ (by
        rw [show (afterDraw t).chLen = t.chLen from rfl, show (afterDraw t).cur = t.cur from rfl, h.written.only.chLen,
          h.written.cur, hfull, hs.len])]
      refine ⟨_, rfl, hfull ▸ h.written.afterDraw, ?_, ?_⟩
      · rw [show (afterDraw t).accBits = t.accBits from rfl, h.accBits]; omega
      · rw [show (afterDraw t).accBits = t.accBits from rfl, show (afterDraw t).acc = t.acc from rfl, h.accBits]
        refine lt_two_pow_of_getLsbD fun u hu hu16 => ?_
        rw [h.acc u hu16]
        simp [Nat.not_lt.2 hu]
    · have hle1 : (T / b + 1) * b ≤ N * b := Nat.mul_le_mul_right b (by omega)
      have hT1 : T ≤ (T / b + 1) * b := by rw [hmul, Nat.mul_add]; omega
      have hlt : usableIndex (T / b) < s.chLen.toNat := by
        rw [hs.len]; exact usableIndex_strictMono (by omega)
      rw [if_pos (by omega)]
      simp only
      obtain ⟨u, hu, hwu, -, -, heu⟩ := writeChannel_written
        (v := (t.acc <<< (b - T % b)).setWidth 8 ||| (nextDraw t &&& mask 8 (b - T % b)))
        h.written.afterDraw hs.mod hlt (by
          intro q hq
          have hdraw := nextDraw_envAfter henv
          rw [BitVec.getLsbD_or, BitVec.getLsbD_setWidth, BitVec.getLsbD_shiftLeft, BitVec.getLsbD_and,
            getLsbD_mask 8 _ q hq, hdraw]
          have hq16 : q < 16 := by omega
          by_cases hqf : q < b - T % b
          · have hfill := hf (T / b) q (by omega) (by rw [hmul]; omega)
            rw [Nat.sub_self] at hfill
            have hqb : q < b := by omega
            simp [hqf, hqb, hfill]
          · rw [h.acc _ (by omega)]
            by_cases hqb : q < b
            · have hpay := hs.payload (T / b) q hqb (by rw [hmul]; omega)
              rw [hpay, show T / b * b + (b - 1 - q) = T - 1 - (q - (b - T % b)) by rw [hmul]; omega]
              have : q - (b - T % b) < T % b := by omega
              simp [hqf, hqb, hq, hq16, this]
            · have : ¬ q - (b - T % b) < T % b := by omega
              simp [hqf, hqb, this])
      rw [hu]
      refine ⟨_, T / b + 1, rfl, by omega, by omega, hT1, hwu.withAcc 0 0, by simp, by simp, ?_⟩
      rw [State.withAcc_env, heu, afterDraw_envAfter henv, show T / b + 1 - T / b = 0 + 1 by omega]

theorem trailingPhase_spec {s : State} {b N T : Nat} {vb : Nat → Nat → Bool} (hs : WriteSetup s b N T vb)
    (hf : FillerBits s b T vb) (fuel : Nat) :
    ∀ {t : State} {k : Nat}, T / b ≤ k → k ≤ N → T ≤ k * b → Written s b vb k t → t.env = envAfter s (k - T / b) →
      N - k ≤ fuel →
      ∃ u, trailingPhase b fuel t = .done u ∧ Written s b vb N u ∧ u.acc = t.acc ∧ u.accBits = t.accBits ∧
        u.env = envAfter s (N - T / b) := by
  have hmul : ∀ k, k * b = b * k := fun k => Nat.mul_comm k b
  have hend : ∀ {t : State} {k : Nat}, k = N → Written s b vb k t → ¬ t.cur.toNat < t.chLen.toNat := by
    intro t k hk hw
    rw [hw.cur, hw.only.chLen, hs.len, hk]; omega
  induction fuel with
  | zero =>
    intro t k _ hkN _ hw he hfu
    have : k = N := by omega
    subst this
    exact ⟨t, rfl, hw, rfl, rfl, he⟩
  | succ fuel ih =>
    intro t k hk hkN hT hw he hfu
    unfold trailingPhase
    by_cases hEq : k = N
    · rw [if_neg (hend hEq hw)]
      subst hEq
      exact ⟨t, rfl, hw, rfl, rfl, he⟩
    · have hlt : usableIndex k < s.chLen.toNat := by rw [hs.len]; exact usableIndex_strictMono (by omega)
      rw [if_pos (by rw [hw.cur, hw.only.chLen]; exact hlt)]
      obtain ⟨u, hu, hwu, ha, hn, heu⟩ := writeChannel_written (v := nextDraw t &&& mask 8 b)
        hw.afterDraw hs.mod hlt (by
          intro q hq
          rw [BitVec.getLsbD_and, getLsbD_mask 8 b q hq, nextDraw_envAfter he]
          by_cases hqb : q < b
          · rw [hf k q hqb (by omega)]; simp [hqb]
          · simp [hqb])
      rw [hu]
      have hT' : T ≤ (k + 1) * b := by rw [Nat.add_mul]; omega
      obtain ⟨x, hx, hwx, hxa, hxn, hxe⟩ := ih (k := k + 1) (by omega) (by omega) hT' hwu (by
        rw [heu, afterDraw_envAfter he, show k + 1 - T / b = k - T / b + 1 by omega]) (by omega)
      exact ⟨x, hx, hwx, hxa.trans ha, hxn.trans hn, hxe⟩

/-! ### All phases of WRITE_PAYLOAD -/

/-- The three phases of WRITE_PAYLOAD, as one function. -/
def writePhases (b : Nat) (s : State) : CmdResult :=
  ((payloadPhase b s.payLen.toNat 0 (s.withAcc 0 0)).andThen (partialFlush b)).andThen fun t =>
    trailingPhase b (t.chLen.toNat - t.cur.toNat) t

theorem writtenBit_setup {s : State} {b : Nat} (hb : 1 ≤ b) (hb8 : b ≤ 8) (h4 : s.chLen.toNat % 4 = 0)
    (hl : 4 ≤ s.chLen.toNat) :
    WriteSetup s b (usableCount s) (8 * s.payLen.toNat) (writtenBit s b) ∧
      FillerBits s b (8 * s.payLen.toNat) (writtenBit s b) := by
  refine ⟨⟨hb, hb8, h4, (usableIndex_usableCount h4 hl).symm, fun j q _ ht => ?_⟩, fun j q _ ht => ?_⟩
  · simp [writtenBit, ht]
  · simp [writtenBit, Nat.not_lt.2 ht]

/-- With the cursor at 4, a payload that fits is written whole, the rest is filler, and the cursor ends at `CHLEN`
(42_cursor_write.md R147, R148); a payload that does not fit ends in `CursorMismatch` with every usable channel written
(R146). -/
theorem writePhases_spec {s : State} {b : Nat} (hb : 1 ≤ b) (hb8 : b ≤ 8) (h4 : s.chLen.toNat % 4 = 0)
    (hl : 4 ≤ s.chLen.toNat) (hc : s.cur.toNat = 4) :
    if 8 * s.payLen.toNat ≤ usableCount s * b then
      ∃ u, writePhases b s = .done u ∧ Written s b (writtenBit s b) (usableCount s) u ∧ u.acc = 0 ∧ u.accBits = 0 ∧
        u.env = envAfter s (usableCount s - 8 * s.payLen.toNat / b)
    else ∃ u, writePhases b s = .raised .cursorMismatch u ∧ Overflowed s b (writtenBit s b) (usableCount s) u := by
  obtain ⟨hs, hf⟩ := writtenBit_setup hb hb8 h4 hl
  have h0 : Pushed s b (writtenBit s b) (8 * 0) (s.withAcc 0 0) := by
    refine ⟨?_, by simp, fun u _ => by simp, rfl⟩
    simpa using (Written.zero hc).withAcc 0 0
  have h1 := payloadPhase_spec hs s.payLen.toNat h0 (by omega) (by simp)
  rw [Nat.zero_add] at h1
  unfold PushResult at h1
  unfold writePhases
  by_cases hN : 8 * s.payLen.toNat / b ≤ usableCount s
  · rw [if_pos hN] at h1
    obtain ⟨t, ht, hp⟩ := h1
    have h2 := partialFlush_spec hs hf hp hN
    rw [ht]
    split
    · rw [if_pos ‹_›] at h2
      obtain ⟨u, k, hu, hk, hkN, hT, hw, ha, hn, he⟩ := h2
      obtain ⟨x, hx, hwx, hxa, hxn, hxe⟩ := trailingPhase_spec hs hf (u.chLen.toNat - u.cur.toNat) hk hkN hT hw he (by
        rw [hw.cur, hw.only.chLen, hs.len]; unfold usableIndex; omega)
      refine ⟨x, ?_, hwx, hxa.trans ha, hxn.trans hn, hxe⟩
      simp only [CmdResult.andThen, hu, hx]
    · rw [if_neg ‹_›] at h2
      obtain ⟨u, hu, ho⟩ := h2
      exact ⟨u, by simp only [CmdResult.andThen, hu], ho⟩
  · rw [if_neg hN] at h1
    obtain ⟨t, ht, ho⟩ := h1
    rw [if_neg]
    · exact ⟨t, by simp only [CmdResult.andThen, ht], ho⟩
    · intro hc
      exact hN (Nat.le_trans (Nat.div_le_div_right hc) (Nat.le_of_eq (Nat.mul_div_cancel _ hb)))

end Sys2Proof.Machine
end

