-- ==== Sys2Proof/Laws/CursorRead.lean ====
section
/-! SUPPORT. What the loop of READ_PAYLOAD does: the read cursor at channel index `c`, and the whole loop in closed form
(43_cursor_read.md R164 to R168). -/

namespace Sys2Proof.Machine

/-- How many usable channels have an index below `c`. -/
def channelsBelow (c : Nat) : Nat := 3 * ((c - 4) / 4) + min (c % 4) 3

theorem channelsBelow_alpha {c : Nat} (h4 : 4 ≤ c) (h : c % 4 = 3) : channelsBelow (c + 1) = channelsBelow c := by
  unfold channelsBelow; omega

theorem channelsBelow_colour {c : Nat} (h4 : 4 ≤ c) (h : c % 4 ≠ 3) : channelsBelow (c + 1) = channelsBelow c + 1 := by
  unfold channelsBelow; omega

theorem usableIndex_channelsBelow {c : Nat} (h4 : 4 ≤ c) (h : c % 4 ≠ 3) : usableIndex (channelsBelow c) = c := by
  have : channelsBelow c = usableNumber c := by unfold channelsBelow usableNumber; omega
  rw [this, usableIndex_usableNumber h4 h]

/-- `t` is `s` but for the payload memory, the cursor and the accumulator. -/
def ReadOnly (s t : State) : Prop := t = ((s.withMem .pay t.pay).withCur t.cur).withAcc t.acc t.accBits

theorem ReadOnly.eq {s t : State} (h : ReadOnly s t) :
    t = ((s.withMem .pay t.pay).withCur t.cur).withAcc t.acc t.accBits := h

theorem ReadOnly.mem {s t : State} (h : ReadOnly s t) {sp : Space} (hs : sp ≠ .pay) : t.mem sp = s.mem sp := by
  have := congrArg (fun u => State.mem u sp) h.eq
  simpa [State.mem_withMem_other _ _ hs] using this

theorem ReadOnly.chLen {s t : State} (h : ReadOnly s t) : t.chLen = s.chLen := by simpa using congrArg State.chLen h.eq
theorem ReadOnly.payLen {s t : State} (h : ReadOnly s t) : t.payLen = s.payLen := by
  simpa using congrArg State.payLen h.eq
theorem ReadOnly.env {s t : State} (h : ReadOnly s t) : t.env = s.env := by simpa using congrArg State.env h.eq
theorem ReadOnly.status {s t : State} (h : ReadOnly s t) : t.status = s.status := by
  simpa using congrArg State.status h.eq
theorem ReadOnly.params {s t : State} (h : ReadOnly s t) : t.params = s.params := by
  simpa using congrArg State.params h.eq

theorem ReadOnly.refl (s : State) : ReadOnly s s := by cases s; rfl

theorem ReadOnly.withCur {s t : State} (h : ReadOnly s t) (v : Word) : ReadOnly s (t.withCur v) := by
  obtain ⟨⟩ := s; obtain ⟨⟩ := t
  simp_all [ReadOnly, State.withMem, State.withCur, State.withAcc]

theorem ReadOnly.withAcc {s t : State} (h : ReadOnly s t) (a : BitVec 16) (n : BitVec 5) : ReadOnly s (t.withAcc a n) := by
  obtain ⟨⟩ := s; obtain ⟨⟩ := t
  simp_all [ReadOnly, State.withMem, State.withCur, State.withAcc]

theorem ReadOnly.emitByte {s t : State} (h : ReadOnly s t) (n : Nat) (v : Byte) : ReadOnly s (emitByte n v t) := by
  unfold Machine.emitByte
  split
  · obtain ⟨⟩ := s; obtain ⟨⟩ := t
    simp_all [ReadOnly, State.withMem, State.withCur, State.withAcc, writeCell]
  · exact h

@[simp] theorem emitByte_cur (n : Nat) (v : Byte) (s : State) : (emitByte n v s).cur = s.cur := by
  unfold emitByte; split <;> simp [writeCell]
@[simp] theorem emitByte_acc (n : Nat) (v : Byte) (s : State) : (emitByte n v s).acc = s.acc := by
  unfold emitByte; split <;> simp [writeCell]
@[simp] theorem emitByte_accBits (n : Nat) (v : Byte) (s : State) : (emitByte n v s).accBits = s.accBits := by
  unfold emitByte; split <;> simp [writeCell]

/-- A produced byte lands in `PAY[n]` if `n < PAYLEN`, and nowhere else (43_cursor_read.md R165). -/
theorem readCell_emitByte (n : Nat) (v : Byte) (s : State) (i : Nat) :
    readCell (emitByte n v s) .pay i = if i = n ∧ n < s.payLen.toNat then v else readCell s .pay i := by
  unfold emitByte
  split
  · rw [readCell_writeCell]; simp [*]
  · simp [*]

/-- `t` is what the read loop makes of `s` at depth `b` once the cursor stands at `c`. -/
structure Collected (s : State) (b c : Nat) (t : State) : Prop where
  cur : t.cur.toNat = c
  accBits : t.accBits.toNat = channelsBelow c * b % 8
  acc : ∀ u, u < 16 → t.acc.getLsbD u =
    (decide (u < channelsBelow c * b % 8) && channelBit s b (channelsBelow c * b - 1 - u))
  pay : ∀ i q, q < 8 → (readCell t .pay i).getLsbD q =
    if i < channelsBelow c * b / 8 ∧ i < s.payLen.toNat then channelBit s b (8 * i + (7 - q))
    else (readCell s .pay i).getLsbD q
  only : ReadOnly s t

/-- One pass of the loop (43_cursor_read.md R164, R166). -/
theorem readPass_spec {s t : State} {b c : Nat} (hb : 1 ≤ b) (hb8 : b ≤ 8) (h : Collected s b c t) (hc : 4 ≤ c)
    (hlt : c < s.chLen.toNat) :
    (readPass b (channelsBelow c * b / 8) t).1 = channelsBelow (c + 1) * b / 8 ∧
      Collected s b (c + 1) (readPass b (channelsBelow c * b / 8) t).2 := by
  have hword : (BitVec.ofNat 64 (c + 1)).toNat = c + 1 := toNat_ofNat_of_le_word (w := s.chLen) hlt
  unfold readPass
  simp only [h.cur, isAlpha, decide_eq_true_eq]
  by_cases ha : c % 4 = 3
  · rw [if_pos ha]
    have hk := channelsBelow_alpha hc ha
    refine ⟨by rw [hk], hword, ?_, ?_, ?_, h.only.withCur _⟩
    · rw [hk]; exact h.accBits
    · rw [hk]; exact h.acc
    · rw [hk]; simpa using h.pay
  · rw [if_neg ha]
    have hk := channelsBelow_colour hc ha
    have hidx := usableIndex_channelsBelow hc ha
    have hmul : channelsBelow (c + 1) * b = channelsBelow c * b + b := by rw [hk, Nat.add_mul, Nat.one_mul]
    have hA := h.accBits
    have hC := h.acc
    have hP := h.pay
    rw [hmul]
    generalize hB : channelsBelow c * b = B at *
    have hcell : readCell t .chan c = readCell s .chan c :=
      readCell_congr (by rw [h.only.mem (by decide)]) (by rw [h.only.env])
    -- the accumulator with the channel shifted in: the last bits of the stream
    have hacc : ∀ u, u < 16 → ((t.acc <<< b) ||| (readCell t .chan c &&& mask 8 b).setWidth 16).getLsbD u =
        (decide (u < B % 8 + b) && channelBit s b (B + b - 1 - u)) := by
      intro u hu
      rw [BitVec.getLsbD_or, BitVec.getLsbD_shiftLeft, BitVec.getLsbD_setWidth, hcell]
      by_cases hub : u < b
      · have h8 : u < 8 := by omega
        rw [BitVec.getLsbD_and, getLsbD_mask 8 b u h8]
        have hbit : channelBit s b (B + b - 1 - u) = (readCell s .chan c).getLsbD u := by
          have hpos : B + b - 1 - u = b * channelsBelow c + (b - 1 - u) := by rw [← hB, Nat.mul_comm]; omega
          have hd : (b * channelsBelow c + (b - 1 - u)) / b = channelsBelow c := by
            rw [Nat.mul_add_div hb, Nat.div_eq_of_lt (by omega), Nat.add_zero]
          have hm : (b * channelsBelow c + (b - 1 - u)) % b = b - 1 - u := by
            rw [Nat.mul_add_mod, Nat.mod_eq_of_lt (by omega)]
          rw [channelBit, hpos, hd, hm, hidx, show b - 1 - (b - 1 - u) = u by omega]
        have : u < B % 8 + b := by omega
        simp [hub, hu, hbit, this]
      · have hz : (readCell s .chan c &&& mask 8 b).getLsbD u = false := by
          by_cases h8 : u < 8
          · rw [BitVec.getLsbD_and, getLsbD_mask 8 b u h8]; simp [hub]
          · exact BitVec.getLsbD_of_ge _ _ (by omega)
        rw [hz, hC _ (by omega), show B + b - 1 - u = B - 1 - (u - b) by omega]
        have : (u - b < B % 8) ↔ (u < B % 8 + b) := by omega
        simp [hu, hub, this]
    simp only [hA]
    by_cases h8 : 8 ≤ B % 8 + b
    · rw [if_pos h8]
      have hdiv : (B + b) / 8 = B / 8 + 1 := by omega
      have hmod : (B + b) % 8 = B % 8 + b - 8 := by omega
      have hn : (BitVec.ofNat 5 (B % 8 + b - 8)).toNat = B % 8 + b - 8 := by
        rw [BitVec.toNat_ofNat]; exact Nat.mod_eq_of_lt (by omega)
      refine ⟨hdiv.symm, by simpa using hword, ?_, ?_, ?_, ((h.only.withCur _).withAcc _ _).emitByte _ _⟩
      · rw [hmul, hmod, emitByte_accBits, State.withAcc_accBits, hn]
      · intro u hu
        rw [hmul, hmod, emitByte_acc, State.withAcc_acc, BitVec.getLsbD_and, hacc u hu, getLsbD_mask 16 _ u hu]
        by_cases hu8 : u < B % 8 + b - 8
        · have : u < B % 8 + b := by omega
          simp [hu8, this]
        · simp [hu8]
      · intro i q hq
        rw [hmul, hdiv, readCell_emitByte, State.withAcc_payLen, State.withCur_payLen, h.only.payLen]
        have hi := hP i q hq
        by_cases hin : i = B / 8
        · subst hin
          by_cases hl : B / 8 < s.payLen.toNat
          · rw [if_pos ⟨rfl, hl⟩, if_pos ⟨by omega, hl⟩, BitVec.getLsbD_setWidth, BitVec.getLsbD_ushiftRight,
              hacc _ (by omega), show B + b - 1 - (B % 8 + b - 8 + q) = 8 * (B / 8) + (7 - q) by omega]
            have : B % 8 + b - 8 + q < B % 8 + b := by omega
            simp [hq, this]
          · rw [if_neg (fun h => hl h.2), if_neg (fun h => hl h.2)]
            rw [if_neg (fun h => hl h.2)] at hi
            simpa using hi
        · rw [if_neg (fun h => hin h.1)]
          have : (i < B / 8 + 1) ↔ (i < B / 8) := by omega
          simp only [this]
          simpa using hi
    · rw [if_neg h8]
      have hdiv : (B + b) / 8 = B / 8 := by omega
      have hmod : (B + b) % 8 = B % 8 + b := by omega
      have hn : (BitVec.ofNat 5 (B % 8 + b)).toNat = B % 8 + b := by
        rw [BitVec.toNat_ofNat]; exact Nat.mod_eq_of_lt (by omega)
      refine ⟨hdiv.symm, by simpa using hword, ?_, ?_, ?_, (h.only.withCur _).withAcc _ _⟩
      · rw [hmul, hmod, State.withAcc_accBits, hn]
      · intro u hu
        rw [hmul, hmod, State.withAcc_acc, hacc u hu]
      · rw [hmul, hdiv]; simpa using hP

theorem readLoop_spec {s : State} {b : Nat} (hb : 1 ≤ b) (hb8 : b ≤ 8) (fuel : Nat) :
    ∀ {t : State} {c : Nat}, Collected s b c t → 4 ≤ c → c + fuel = s.chLen.toNat →
      Collected s b s.chLen.toNat (readLoop b fuel (channelsBelow c * b / 8) t) := by
  induction fuel with
  | zero =>
    intro t c h _ hf
    rw [← hf]; exact h
  | succ fuel ih =>
    intro t c h hc hf
    have hlt : c < s.chLen.toNat := by omega
    obtain ⟨h1, h2⟩ := readPass_spec hb hb8 h hc hlt
    unfold readLoop
    rw [if_pos (by rw [h.cur, h.only.chLen]; exact hlt)]
    simp only [h1]
    exact ih h2 (by omega) (by omega)

/-- The whole loop of READ_PAYLOAD (43_cursor_read.md R165, R167, R168). -/
theorem readLoop_whole {s : State} {b : Nat} (hb : 1 ≤ b) (hb8 : b ≤ 8) (hl : 4 ≤ s.chLen.toNat) :
    Collected s b s.chLen.toNat (readLoop b (s.chLen.toNat - 4) 0 ((s.withCur 4).withAcc 0 0)) := by
  have h0 : Collected s b 4 ((s.withCur 4).withAcc 0 0) := by
    refine ⟨by simp, by simp [channelsBelow], fun u _ => by simp [channelsBelow], fun i q _ => ?_,
      ((ReadOnly.refl s).withCur _).withAcc _ _⟩
    simp [channelsBelow]
  have := readLoop_spec hb hb8 (s.chLen.toNat - 4) h0 (Nat.le_refl 4) (by omega)
  simpa [channelsBelow] using this

theorem channelsBelow_chLen {s : State} (h4 : s.chLen.toNat % 4 = 0) (hl : 4 ≤ s.chLen.toNat) :
    channelsBelow s.chLen.toNat = usableCount s := by
  unfold channelsBelow usableCount; omega

end Sys2Proof.Machine
end

