-- ==== Sys2Proof/Laws/Command.lean ====
section
/-! SUPPORT. How a command starts and ends, how an error is raised, and what the FilePacker's and the header's shared
operations do to cells (10_state.md R27; 60_exceptions.md R206 to R208; 41_filepacker.md R110, R118; 42_cursor_write.md
R136). -/

namespace Sys2Proof.Machine

/-! ### The start and the end of a command -/

/-- The state a command's pseudocode starts from: `BUSY` is 1, `DONE` is 0. -/
def State.started (s : State) : State := s.withStatus s.status.start

@[simp] theorem readCell_started (s : State) : readCell s.started = readCell s := by simp [State.started]
@[simp] theorem readCell_ended (s : State) (e : ErrCode) : readCell (s.ended e) = readCell s := by
  funext sp i
  exact readCell_congr (by cases sp <;> rfl) rfl

@[simp] theorem mem_started (s : State) (sp : Space) : s.started.mem sp = s.mem sp := by cases sp <;> rfl
@[simp] theorem mem_ended (s : State) (e : ErrCode) (sp : Space) : (s.ended e).mem sp = s.mem sp := by cases sp <;> rfl

theorem runCommand_fatal {s : State} (body : State → CmdResult) (h : s.status.fatal = true) :
    runCommand body s = .next s := by
  simp [runCommand, h]

theorem runCommand_done {s t : State} {body : State → CmdResult} (hf : s.status.fatal = false)
    (h : body s.started = .done t) : runCommand body s = .next (t.withStatus (t.status.finish .ok)) := by
  unfold State.started at h
  simp [runCommand, hf, h]

theorem runCommand_raised {s t : State} {body : State → CmdResult} {e : ErrCode} (hf : s.status.fatal = false)
    (h : body s.started = .raised e t) : runCommand body s = .next (raiseError e t) := by
  unfold State.started at h
  simp [runCommand, hf, h]

/-- A command always answers a next state: it was refused, it ran through, or it raised an error. -/
theorem runCommand_cases {s t : State} {body : State → CmdResult} (h : runCommand body s = .next t) :
    (s.status.fatal = true ∧ t = s) ∨
    (s.status.fatal = false ∧ ∃ u, body s.started = .done u ∧ t = u.withStatus (u.status.finish .ok)) ∨
    (s.status.fatal = false ∧ ∃ e u, body s.started = .raised e u ∧ t = raiseError e u) := by
  cases hf : s.status.fatal with
  | true => rw [runCommand_fatal body hf] at h; cases h; exact .inl ⟨rfl, rfl⟩
  | false =>
    cases hb : body s.started with
    | done u => rw [runCommand_done hf hb] at h; cases h; exact .inr (.inl ⟨rfl, u, rfl, rfl⟩)
    | raised e u => rw [runCommand_raised hf hb] at h; cases h; exact .inr (.inr ⟨rfl, e, u, rfl, rfl⟩)

theorem runCommand_next (body : State → CmdResult) (s : State) : ∃ t, runCommand body s = .next t := by
  unfold runCommand
  split
  · exact ⟨_, rfl⟩
  · split <;> exact ⟨_, rfl⟩

/-! ### Errors -/

/-- The entry of a recoverable error raised where the command started (60_exceptions.md R206, R210). -/
theorem raiseError_started {s : State} {e : ErrCode} (h : e ≠ .cursorMismatch) : raiseError e s.started = s.ended e := by
  cases e <;> first | exact absurd rfl h | rfl

/-- A command whose pseudocode raises a recoverable error before it has written anything. -/
theorem runCommand_error {s : State} {body : State → CmdResult} {e : ErrCode} (hf : s.status.fatal = false)
    (he : e ≠ .cursorMismatch) (h : body s.started = .raised e s.started) : runCommand body s = .next (s.ended e) := by
  rw [runCommand_raised hf h, raiseError_started he]

theorem forgetPayload_eq (s : State) : forgetPayload s = s.withMem .chan (forgetPayload s).chan := by
  exact writeBytes_eq s .chan 4 _

theorem readCell_forgetPayload {s : State} {sp : Space} {k : Nat} (h : sp ≠ .chan ∨ k < 4 ∨ s.chLen.toNat ≤ k) :
    readCell (forgetPayload s) sp k = readCell s sp k := by
  unfold forgetPayload
  rw [readCell_writeBytes, if_neg]
  simp only [List.length_map, List.length_range]
  rintro ⟨rfl, h1, h2⟩
  rcases h with h | h | h
  · exact h rfl
  · omega
  · omega

/-- The entry of the fatal error (60_exceptions.md R207). -/
theorem raiseError_cursorMismatch (s : State) :
    raiseError .cursorMismatch s = ((s.withMem .chan (forgetPayload s).chan).withBt 0).withStatus
      { busy := false, done := true, fatal := true, phase := .idle, err := .cursorMismatch } := by
  show ((forgetPayload s).withBt 0).withStatus _ = _
  rw [forgetPayload_eq]
  rfl

/-! ### FilePacker -/

theorem packCheck_none {s : State} :
    packCheck s = none ↔ 1 ≤ s.nameLen.toNat ∧ s.nameLen.toNat ≤ 255 ∧
      5 + s.nameLen.toNat + s.contLen.toNat ≤ s.params.maxLen := by
  unfold packCheck packTotal packedLength nameLegal
  split
  · rename_i h; simp at h; simp; omega
  · split
    · rename_i h; simp at h; simp; omega
    · rename_i h h'; simp at h h'; simp; omega

theorem packCheck_some {s : State} {e : ErrCode} (h : packCheck s = some e) :
    (e = .invalidName ∧ ¬ (1 ≤ s.nameLen.toNat ∧ s.nameLen.toNat ≤ 255)) ∨
    (e = .lengthInvalid ∧ (1 ≤ s.nameLen.toNat ∧ s.nameLen.toNat ≤ 255) ∧
      s.params.maxLen < 5 + s.nameLen.toNat + s.contLen.toNat) := by
  unfold packCheck packTotal packedLength nameLegal at h
  split at h
  · rename_i hc; cases h; simp at hc; exact .inl ⟨rfl, by omega⟩
  · split at h
    · rename_i hn hc; cases h; simp at hn hc; exact .inr ⟨rfl, by omega, by omega⟩
    · cases h

/-- `PackBody()` writes `PKT` and nothing else. -/
theorem packBody_eq (s : State) : packBody s = s.withMem .pkt (packBody s).pkt := by
  have h : ∀ (t : State) (start : Nat) (vs : List Byte), t = s.withMem .pkt (t.mem .pkt) →
      writeBytes t .pkt start vs = s.withMem .pkt ((writeBytes t .pkt start vs).mem .pkt) := by
    intro t start vs ht
    generalize hm : (writeBytes t .pkt start vs).mem .pkt = m
    rw [writeBytes_eq, hm, ht, State.withMem_withMem]
  exact h _ _ _ (h _ _ _ (h _ _ _ rfl))

/-- What `PackBody()` leaves in a cell: the packed file in `PKT[0 .. 5 + n + m)` (30_encoding.md R73), the rest as it was. -/
theorem readCell_packBody (s : State) (sp : Space) (k : Nat) :
    readCell (packBody s) sp k =
      if sp = .pkt then
        if k = 0 then BitVec.ofNat 8 s.nameLen.toNat
        else if k < 1 + s.nameLen.toNat then readCell s .name (k - 1)
        else if k < 5 + s.nameLen.toNat then (be32 s.contLen.toNat).getD (k - (1 + s.nameLen.toNat)) 0
        else if k < 5 + s.nameLen.toNat + s.contLen.toNat then readCell s .cont (k - (5 + s.nameLen.toNat))
        else readCell s .pkt k
      else readCell s sp k := by
  have hlen : (be32 s.contLen.toNat).length = 4 := rfl
  unfold packBody
  simp only []
  rw [readCell_copy, readCell_writeBytes_space (sp' := .cont) _ (by decide),
    readCell_writeBytes_space (sp' := .cont) _ (by decide), readCell_writeBytes, readCell_copy, hlen, Nat.zero_add,
    Nat.zero_add]
  simp only [readCell_writeCell, reduceCtorEq, false_and, if_false]
  by_cases hs : sp = .pkt
  · subst hs
    simp only [true_and, if_true]
    by_cases h0 : k = 0
    · subst h0
      rw [if_neg (by omega), if_neg (by omega), if_neg (by omega)]
      simp
    · simp only [h0, if_false]
      by_cases h1 : k < 1 + s.nameLen.toNat
      · rw [if_neg (by omega), if_neg (by omega), if_pos (by omega), if_pos h1]
      · rw [if_neg h1]
        by_cases h2 : k < 5 + s.nameLen.toNat
        · rw [if_neg (by omega), if_pos (by omega), if_pos h2]
        · rw [if_neg h2]
          by_cases h3 : k < 5 + s.nameLen.toNat + s.contLen.toNat
          · rw [if_pos (by omega), if_pos h3]
          · rw [if_neg (by omega), if_neg (by omega), if_neg (by omega), if_neg h3]
  · simp [hs]

/-- The writes of UNPACK reach `NAME`, `CONT`, `NAMELEN` and `CONTLEN` and nothing else. -/
theorem unpackStore_eq (s : State) (n m : Nat) :
    unpackStore s n m = (((s.withMem .name (unpackStore s n m).name).withMem .cont (unpackStore s n m).cont).withNameLen
      (BitVec.ofNat 64 n)).withContLen (BitVec.ofNat 32 m) := by
  unfold unpackStore
  simp only []
  rw [writeBytes_eq s .name, writeBytes_eq _ .cont]
  rfl

theorem readCell_unpackStore (s : State) (n m : Nat) (sp : Space) (k : Nat) :
    readCell (unpackStore s n m) sp k =
      if sp = .name ∧ k < n then readCell s .pkt (1 + k)
      else if sp = .cont ∧ k < m then readCell s .pkt (5 + n + k)
      else readCell s sp k := by
  unfold unpackStore
  simp only [readCell_withContLen, readCell_withNameLen, readCell_copy, Nat.zero_add, Nat.zero_le, true_and, Nat.sub_zero]
  by_cases hs : sp = .cont
  · subst hs; simp
  · simp [hs]

theorem MemoryOk.packBody {bound : Nat} {s : State} (h : MemoryOk bound s)
    (hb : 5 + s.nameLen.toNat + s.contLen.toNat ≤ bound) : MemoryOk bound (packBody s) := by
  have hbe : (be32 s.contLen.toNat).length = 4 := rfl
  unfold Machine.packBody
  refine (((h.writeCell _ _ (by omega)).writeBytes _ _ (.inr ?_)).writeBytes _ _ (.inr ?_)).writeBytes _ _ (.inr ?_)
  · rw [readBytes_length]; omega
  · rw [hbe]; omega
  · rw [readBytes_length]; omega

theorem MemoryOk.unpackStore {bound n m : Nat} {s : State} (h : MemoryOk bound s) (hb : n + m ≤ bound) :
    MemoryOk bound (unpackStore s n m) := by
  have h1 := MemoryOk.congr (t := (Machine.writeBytes s .name 0 (readBytes s .pkt 1 n)).withNameLen (BitVec.ofNat 64 n))
    (h.writeBytes .name (readBytes s .pkt 1 n) (start := 0) (.inr (by rw [readBytes_length]; omega))) fun sp => by simp
  refine (h1.writeBytes .cont _ (start := 0) (.inr ?_)).congr fun sp => by unfold Machine.unpackStore; simp; rfl
  rw [readBytes_length]; omega

/-- `unbe32` undoes `be32` on the 32-bit values (30_encoding.md R73, R74). -/
theorem unbe32_be32 {v : Nat} (h : v < 2 ^ 32) :
    unbe32 (BitVec.ofNat 8 (v / 2 ^ 24)) (BitVec.ofNat 8 (v / 2 ^ 16)) (BitVec.ofNat 8 (v / 2 ^ 8)) (BitVec.ofNat 8 v) = v := by
  simp only [unbe32, BitVec.toNat_ofNat]
  omega

theorem unbe32_lt (a b c d : Byte) : unbe32 a b c d < 2 ^ 32 := by
  have := a.isLt; have := b.isLt; have := c.isLt; have := d.isLt
  unfold unbe32; omega

/-! ### The checks -/

theorem bitsLegal_iff {v : Nat} : bitsLegal v = true ↔ 1 ≤ v ∧ v ≤ 8 := by simp [bitsLegal]
theorem bufferLegal_iff {maxLen len : Nat} : bufferLegal maxLen len = true ↔ len % 4 = 0 ∧ len ≤ maxLen := by
  simp [bufferLegal]
theorem cursorBufferLegal_iff {maxLen len : Nat} :
    cursorBufferLegal maxLen len = true ↔ len % 4 = 0 ∧ 4 ≤ len ∧ len ≤ maxLen := by
  simp [cursorBufferLegal, and_assoc]

/-! ### The header -/

/-- A byte with its low bit replaced by the low bit of a header value (42_cursor_write.md R130, R136). -/
theorem toNat_headerChannel (c : Byte) (h k : Nat) :
    ((c &&& ~~~ mask 8 1) ||| headerBit h k).toNat = c.toNat / 2 * 2 + h / 2 ^ k % 2 := by
  have hb : headerBit h k = 0 ∨ headerBit h k = 1 := by
    unfold headerBit
    have := Nat.mod_two_eq_zero_or_one (h / 2 ^ k)
    rcases this with h | h <;> rw [h] <;> simp
  have ht : (headerBit h k).toNat = h / 2 ^ k % 2 := by
    unfold headerBit
    rw [BitVec.toNat_ofNat]
    exact Nat.mod_eq_of_lt (by omega)
  rw [← ht]
  have key : ∀ c : Byte, ((c &&& ~~~ mask 8 1) ||| 0).toNat = c.toNat / 2 * 2 + 0 ∧
      ((c &&& ~~~ mask 8 1) ||| 1).toNat = c.toNat / 2 * 2 + 1 := by decide +revert
  rcases hb with h | h
  · rw [h]; exact (key c).1
  · rw [h]; exact (key c).2

/-- The header phase from cursor 0 in a buffer of at least one pixel (42_cursor_write.md R136, R137): it runs through,
the cursor ends at 4. -/
theorem headerPhase_spec {s : State} (h : Nat) (hl : 4 ≤ s.chLen.toNat) (hc : s.cur.toNat = 0) :
    ∃ t, headerPhase h s = .done t ∧ t = (s.withMem .chan t.chan).withCur 4 ∧
      ∀ k, readCell t .chan k =
        if k < 3 then (readCell s .chan k &&& ~~~ mask 8 1) ||| headerBit h (2 - k)
        else if k = 3 then s.params.alphaBlank else readCell s .chan k := by
  have e1 := writeChannel_inside (s := s) (headerBit h 2) 1 (by omega)
  simp only [hc, Nat.zero_add, show ¬ (1 % 4 = 3) by decide, if_false] at e1
  generalize h1 : (writeCell s .chan 0 _).withCur _ = s1 at e1
  have c1 : s1.cur.toNat = 1 := by rw [← h1]; simp
  have l1 : s1.chLen = s.chLen := by rw [← h1]; simp [writeCell]
  have e2 := writeChannel_inside (s := s1) (headerBit h 1) 1 (by rw [c1, l1]; omega)
  simp only [c1, show ¬ ((1 + 1) % 4 = 3) by decide, if_false] at e2
  generalize h2 : (writeCell s1 .chan 1 _).withCur _ = s2 at e2
  have c2 : s2.cur.toNat = 2 := by rw [← h2]; simp
  have l2 : s2.chLen = s.chLen := by rw [← h2]; simp [writeCell, l1]
  have e3 := writeChannel_inside (s := s2) (headerBit h 0) 1 (by rw [c2, l2]; omega)
  simp only [c2, show (2 + 1) % 4 = 3 by decide, if_true] at e3
  generalize h3 : (writeCell _ .chan (2 + 1) _).withCur _ = s3 at e3
  refine ⟨s3, ?_, ?_, ?_⟩
  · simp only [headerPhase, e1, e2, e3, CmdResult.andThen]
  · subst h3 h2 h1
    simp only [writeCell_eq, State.withCur_withMem, State.withMem_withMem, State.withCur_withCur, State.withCur_chan]
    rfl
  · intro k
    have p2 : s2.params = s.params := by rw [← h2, ← h1]; simp [writeCell]
    subst h3
    simp only [readCell_withCur, readCell_writeCell, true_and, p2]
    by_cases hk3 : k = 3
    · subst hk3; simp
    · simp only [hk3, if_false, Nat.reduceAdd]
      by_cases hk2 : k = 2
      · subst hk2 h2 h1; simp [readCell_writeCell]
      · simp only [hk2, if_false]
        subst h2
        simp only [readCell_withCur, readCell_writeCell, true_and]
        by_cases hk1 : k = 1
        · subst hk1 h1; simp [readCell_writeCell]
        · simp only [hk1, if_false]
          subst h1
          simp only [readCell_withCur, readCell_writeCell, true_and]
          by_cases hk0 : k = 0
          · subst hk0; simp
          · rw [if_neg hk0, if_neg (by omega)]

end Sys2Proof.Machine
end

