-- ==== Sys2Proof/Laws/Decode.lean ====
section
/-! SUPPORT. The decoder and the encoder are inverse on one command word (30_encoding.md R71). -/

namespace Sys2Proof

@[simp] theorem decode_encode (i : Instr) : decode (encode i) = .ok i := by cases i <;> rfl

/-- Only the command's own word decodes to it: no two rows of the opcode table overlap. -/
theorem eq_encode_of_decode {w : Byte} {i : Instr} (h : decode w = .ok i) : w = encode i := by
  have key : ∀ w : Byte, (match decode w with | .ok i => decide (w = encode i) | .error _ => true) = true := by
    decide +kernel
  simpa [h] using key w

end Sys2Proof
end

