-- ==== Sys2Proof/Laws/Exec.lean ====
section
/-! SUPPORT. One inversion lemma per command: everything `exec` of it can answer. With `exec_eq` and `Outcome`, the
provers need not unfold a meaning again. -/

namespace Sys2Proof.Machine

/-! ### The write side, in any state -/

/-- What every part of the write loops keeps, whatever the state it starts in. -/
structure CursorKeeps (s t : State) : Prop where
  only : CursorOnly s t
  resets : t.env.resets = s.env.resets
  script : t.env.script = s.env.script
  memory : ∀ bound, s.chLen.toNat % 4 = 0 → s.chLen.toNat ≤ bound → MemoryOk bound s → MemoryOk bound t

/-- A part of the write loops ends well or in the fatal error, and keeps what `CursorKeeps` says. -/
def CursorResult (s : State) (r : CmdResult) : Prop :=
  ∃ t, CursorKeeps s t ∧ (r = .done t ∨ r = .raised .cursorMismatch t)

theorem CursorKeeps.refl (s : State) : CursorKeeps s s := ⟨.refl s, rfl, rfl, fun _ _ _ h => h⟩

theorem CursorKeeps.withAcc {s t : State} (h : CursorKeeps s t) (a : BitVec 16) (n : BitVec 5) :
    CursorKeeps s (t.withAcc a n) :=
  ⟨h.only.withAcc a n, h.resets, h.script, fun b h1 h2 h3 => (h.memory b h1 h2 h3).congr fun sp => by cases sp <;> rfl⟩

theorem CursorKeeps.withCur {s t : State} (h : CursorKeeps s t) (c : Word) : CursorKeeps s (t.withCur c) :=
  ⟨h.only.withCur c, h.resets, h.script, fun b h1 h2 h3 => (h.memory b h1 h2 h3).congr fun sp => by cases sp <;> rfl⟩

theorem CursorKeeps.afterDraw {s t : State} (h : CursorKeeps s t) : CursorKeeps s (afterDraw t) :=
  ⟨h.only.afterDraw, h.resets, h.script, fun b h1 h2 h3 => (h.memory b h1 h2 h3).congr fun sp => by cases sp <;> rfl⟩

theorem CursorKeeps.writeCell {s t : State} (h : CursorKeeps s t) (v : Byte) {i : Nat}
    (hi : s.chLen.toNat % 4 = 0 → i < s.chLen.toNat) : CursorKeeps s (writeCell t .chan i v) :=
  ⟨h.only.writeCell i v, h.resets, h.script, fun b h1 h2 h3 =>
    (h.memory b h1 h2 h3).writeCell .chan v (Nat.lt_of_lt_of_le (hi h1) h2)⟩

theorem CursorResult.done {s t : State} (h : CursorKeeps s t) : CursorResult s (.done t) := ⟨t, h, .inl rfl⟩

theorem CursorResult.andThen {s : State} {r : CmdResult} {f : State → CmdResult} (h : CursorResult s r)
    (hf : ∀ t, CursorKeeps s t → CursorResult s (f t)) : CursorResult s (r.andThen f) := by
  obtain ⟨t, ht, rfl | rfl⟩ := h
  · exact hf t ht
  · exact ⟨t, ht, .inr rfl⟩

theorem writeChannel_keeps {s t : State} (h : CursorKeeps s t) (v : Byte) (w : Nat) :
    CursorResult s (writeChannel v w t) := by
  by_cases hlt : t.cur.toNat < t.chLen.toNat
  · have hc : t.chLen = s.chLen := h.only.chLen
    rw [writeChannel_inside v w hlt]
    refine .done ?_
    have h1 := (h.writeCell ((readCell t .chan t.cur.toNat &&& ~~~ mask 8 w) ||| v) (fun _ => hc ▸ hlt)).withCur
      (BitVec.ofNat 64 (t.cur.toNat + 1))
    simp only []
    split
    · refine (h1.writeCell _ fun h4 => ?_).withCur _
      rw [← hc] at h4 ⊢; omega
    · exact h1
  · rw [writeChannel_overflow v w (Nat.not_lt.1 hlt)]
    exact ⟨t, h, .inr rfl⟩

theorem pushBits_keeps {s : State} (b : Nat) (v : Byte) (k : Nat) :
    ∀ {t : State}, CursorKeeps s t → CursorResult s (pushBits b v k t) := by
  induction k with
  | zero => exact fun h => .done h
  | succ k ih =>
    intro t h
    refine CursorResult.andThen ?_ fun u hu => ih hu
    unfold pushBit
    simp only []
    split
    · exact (writeChannel_keeps (h.withAcc _ _) _ _).andThen fun u hu => .done (hu.withAcc _ _)
    · exact .done (h.withAcc _ _)

theorem payloadPhase_keeps {s : State} (b todo : Nat) :
    ∀ {i : Nat} {t : State}, CursorKeeps s t → CursorResult s (payloadPhase b todo i t) := by
  induction todo with
  | zero => exact fun h => .done h
  | succ todo ih => exact fun h => (pushBits_keeps b _ 8 h).andThen fun u hu => ih hu

theorem partialFlush_keeps {s t : State} (b : Nat) (h : CursorKeeps s t) : CursorResult s (partialFlush b t) := by
  unfold partialFlush
  split
  · exact .done h
  · exact (writeChannel_keeps h.afterDraw _ _).andThen fun u hu => .done (hu.withAcc _ _)

theorem trailingPhase_keeps {s : State} (b fuel : Nat) :
    ∀ {t : State}, CursorKeeps s t → CursorResult s (trailingPhase b fuel t) := by
  induction fuel with
  | zero => exact fun h => .done h
  | succ fuel ih =>
    intro t h
    unfold trailingPhase
    split
    · exact (writeChannel_keeps h.afterDraw _ _).andThen fun u hu => ih hu
    · exact .done h

theorem writePhases_keeps (b : Nat) (s : State) : CursorResult s (writePhases b s) :=
  ((payloadPhase_keeps b _ ((CursorKeeps.refl s).withAcc 0 0)).andThen fun _ h => partialFlush_keeps b h).andThen
    fun _ h => trailingPhase_keeps b _ h

theorem headerPhase_keeps {s t : State} (x : Nat) (h : CursorKeeps s t) : CursorResult s (headerPhase x t) :=
  ((writeChannel_keeps h _ _).andThen fun _ h => writeChannel_keeps h _ _).andThen fun _ h => writeChannel_keeps h _ _

/-! ### The read side, in any state -/

theorem emitByte_memory {bound n : Nat} {s : State} (v : Byte) (hp : s.payLen.toNat ≤ bound) (h : MemoryOk bound s) :
    MemoryOk bound (emitByte n v s) := by
  unfold emitByte
  split
  · exact h.writeCell .pay v (by omega)
  · exact h

theorem emitByte_payLen (n : Nat) (v : Byte) (s : State) : (emitByte n v s).payLen = s.payLen := by
  unfold emitByte; split <;> simp [writeCell]

theorem readLoop_memory {bound : Nat} (b fuel : Nat) : ∀ {n : Nat} {s : State}, s.payLen.toNat ≤ bound →
    MemoryOk bound s → MemoryOk bound (readLoop b fuel n s) := by
  induction fuel with
  | zero => exact fun _ h => h
  | succ fuel ih =>
    intro n s hp h
    have hc : ∀ (x : State), MemoryOk bound x → ∀ c a k, MemoryOk bound ((x.withCur c).withAcc a k) :=
      fun x hx c a k => hx.congr fun sp => by cases sp <;> rfl
    unfold readLoop
    split
    · unfold readPass
      simp only []
      split
      · exact ih hp (h.congr fun sp => by cases sp <;> rfl)
      · split
        · exact ih (by rw [emitByte_payLen]; exact hp) (emitByte_memory _ hp (hc _ h _ _ _))
        · exact ih hp (hc _ h _ _ _)
    · exact h

/-! ### One lemma per command -/

/-- Every meaning is a body run as a command. -/
def bodyOf : Instr → State → CmdResult
  | .validateBits => validateBitsBody
  | .capacity     => capacityBody
  | .pack         => packCommandBody
  | .packPad      => packPadBody
  | .unpack       => unpackBody
  | .writeHeader  => writeHeaderBody
  | .writePayload => writePayloadBody
  | .readHeader   => readHeaderBody
  | .readPayload  => readPayloadBody

theorem exec_eq (i : Instr) (s : State) : exec i s = runCommand (bodyOf i) s := by cases i <;> rfl

/-- What a command can answer in a state that is not fatal: a recoverable error (with everything as it was), or what
`P` says. -/
def Outcome (i : Instr) (s : State) (errors : ErrCode → Prop) (P : State → Prop) : Prop :=
  ∃ t, exec i s = .next t ∧ ((∃ e, e ≠ .ok ∧ e ≠ .cursorMismatch ∧ errors e ∧ t = s.ended e) ∨ P t)

theorem Outcome.error {i : Instr} {s : State} {E : ErrCode → Prop} {P : State → Prop} {e : ErrCode}
    (hf : s.status.fatal = false) (h : bodyOf i s.started = .raised e s.started) (h1 : e ≠ .ok)
    (h2 : e ≠ .cursorMismatch) (h3 : E e) : Outcome i s E P :=
  ⟨_, by rw [exec_eq, runCommand_error hf h2 h], .inl ⟨e, h1, h2, h3, rfl⟩⟩

theorem Outcome.done {i : Instr} {s t : State} {E : ErrCode → Prop} {P : State → Prop}
    (hf : s.status.fatal = false) (h : bodyOf i s.started = .done t) (hP : P (t.withStatus (t.status.finish .ok))) :
    Outcome i s E P :=
  ⟨_, by rw [exec_eq, runCommand_done hf h], .inr hP⟩

theorem validateBits_cases {s : State} (hf : s.status.fatal = false) :
    Outcome .validateBits s (fun e => e = .bitsOutOfRange ∧ ¬ (1 ≤ s.bits.toNat ∧ s.bits.toNat ≤ 8))
      (fun t => (1 ≤ s.bits.toNat ∧ s.bits.toNat ≤ 8) ∧ t = s.ended .ok) := by
  by_cases hb : bitsLegal s.bits.toNat = true
  · exact .done hf (t := s.started) (if_pos hb) ⟨bitsLegal_iff.1 hb, rfl⟩
  · exact .error hf (if_neg hb) (by decide) (by decide) ⟨rfl, fun h => hb (bitsLegal_iff.2 h)⟩

theorem capacity_cases {s : State} (hf : s.status.fatal = false) :
    Outcome .capacity s
      (fun e => (e = .bitsOutOfRange ∧ ¬ (1 ≤ s.bits.toNat ∧ s.bits.toNat ≤ 8)) ∨
        (e = .lengthInvalid ∧ (1 ≤ s.bits.toNat ∧ s.bits.toNat ≤ 8) ∧
          ¬ (s.chLen.toNat % 4 = 0 ∧ s.chLen.toNat ≤ s.params.maxLen)))
      (fun t => (1 ≤ s.bits.toNat ∧ s.bits.toNat ≤ 8) ∧ (s.chLen.toNat % 4 = 0 ∧ s.chLen.toNat ≤ s.params.maxLen) ∧
        t = (s.ended .ok).withCap (BitVec.ofInt 64 (capacityBits s.chLen.toNat s.bits.toNat))
          (BitVec.ofInt 64 (capacityBytes s.chLen.toNat s.bits.toNat))) := by
  by_cases hb : bitsLegal s.bits.toNat = true
  · by_cases hl : bufferLegal s.params.maxLen s.chLen.toNat = true
    · refine .done hf (t := s.started.withCap (BitVec.ofInt 64 (capacityBits s.chLen.toNat s.bits.toNat))
        (BitVec.ofInt 64 (capacityBytes s.chLen.toNat s.bits.toNat))) ?_
        ⟨bitsLegal_iff.1 hb, bufferLegal_iff.1 hl, rfl⟩
      simp [bodyOf, capacityBody, State.started, hb, hl]
    · refine .error hf (e := .lengthInvalid) ?_ (by decide) (by decide)
        (.inr ⟨rfl, bitsLegal_iff.1 hb, fun h => hl (bufferLegal_iff.2 h)⟩)
      simp [bodyOf, capacityBody, State.started, hb, hl]
  · refine .error hf (e := .bitsOutOfRange) ?_ (by decide) (by decide) (.inl ⟨rfl, fun h => hb (bitsLegal_iff.2 h)⟩)
    simp [bodyOf, capacityBody, State.started, hb]

theorem packCheck_started (s : State) : packCheck s.started = packCheck s := rfl
theorem packTotal_started (s : State) : packTotal s.started = packTotal s := rfl

theorem packCheck_error {s : State} {e : ErrCode} (h : packCheck s = some e) : e ≠ .ok ∧ e ≠ .cursorMismatch := by
  rcases packCheck_some h with ⟨rfl, -⟩ | ⟨rfl, -⟩ <;> decide

theorem pack_cases {s : State} (hf : s.status.fatal = false) :
    Outcome .pack s (fun e => packCheck s = some e)
      (fun t => packCheck s = none ∧
        t = (((packBody s.started).withPktLen (BitVec.ofNat 64 (packTotal s))).withStatus (s.status.finish .ok))) := by
  cases hp : packCheck s with
  | some e =>
    refine .error hf (e := e) ?_ (packCheck_error hp).1 (packCheck_error hp).2 rfl
    simp [bodyOf, packCommandBody, packCheck_started, hp]
  | none =>
    refine .done hf (t := (packBody s.started).withPktLen (BitVec.ofNat 64 (packTotal s))) ?_ ⟨rfl, ?_⟩
    · simp [bodyOf, packCommandBody, packCheck_started, hp, packTotal_started]
    · rw [packBody_eq s.started]; rfl

theorem packPad_cases {s : State} (hf : s.status.fatal = false) :
    Outcome .packPad s
      (fun e => packCheck s = some e ∨ (packCheck s = none ∧
        ((e = .lengthTooSmall ∧ s.reqLen.toInt < (packTotal s : Int)) ∨
          (e = .lengthInvalid ∧ (packTotal s : Int) ≤ s.reqLen.toInt ∧ (s.params.maxLen : Int) < s.reqLen.toInt))))
      (fun t => packCheck s = none ∧ (packTotal s : Int) ≤ s.reqLen.toInt ∧ s.reqLen.toInt ≤ (s.params.maxLen : Int) ∧
        t = ((writeBytes (packBody s.started) .pkt (packTotal s)
          (List.replicate (s.reqLen.toInt.toNat - packTotal s) 0)).withPktLen s.reqLen).withStatus
            (s.status.finish .ok)) := by
  cases hp : packCheck s with
  | some e =>
    refine .error hf (e := e) ?_ (packCheck_error hp).1 (packCheck_error hp).2 (.inl rfl)
    simp [bodyOf, packPadBody, packCheck_started, hp]
  | none =>
    by_cases h1 : (packTotal s : Int) ≤ s.reqLen.toInt
    · by_cases h2 : s.reqLen.toInt ≤ (s.params.maxLen : Int)
      · refine .done hf (t := (writeBytes (packBody s.started) .pkt (packTotal s)
          (List.replicate (s.reqLen.toInt.toNat - packTotal s) 0)).withPktLen s.reqLen) ?_ ⟨rfl, h1, h2, ?_⟩
        · simp [bodyOf, packPadBody, packCheck_started, hp, packTotal_started]
          simp [State.started, h1, Int.not_lt.2 h2]
        · rw [writeBytes_eq, packBody_eq s.started]; rfl
      · refine .error hf (e := .lengthInvalid) ?_ (by decide) (by decide) (.inr ⟨rfl, .inr ⟨rfl, h1, by omega⟩⟩)
        simp [bodyOf, packPadBody, packCheck_started, hp, packTotal_started]
        simp [State.started, h1, Int.not_le.1 h2]
    · refine .error hf (e := .lengthTooSmall) ?_ (by decide) (by decide) (.inr ⟨rfl, .inl ⟨rfl, by omega⟩⟩)
      simp [bodyOf, packPadBody, packCheck_started, hp, packTotal_started]
      simp [State.started, h1]

theorem unpack_cases {s : State} {n m : Nat} (hf : s.status.fatal = false) (hn : n = (readCell s .pkt 0).toNat)
    (hm : m = packedContentLength s n) :
    Outcome .unpack s
      (fun e => (e = .lengthInvalid ∧ s.params.maxLen < s.pktLen.toNat) ∨
        (e = .corruptHeader ∧ s.pktLen.toNat ≤ s.params.maxLen ∧ (n = 0 ∨ s.pktLen.toNat < n + 5 + m)))
      (fun t => s.pktLen.toNat ≤ s.params.maxLen ∧ 1 ≤ n ∧ n + 5 + m ≤ s.pktLen.toNat ∧
        t = (unpackStore s.started n m).withStatus (s.status.finish .ok)) := by
  have hc : readCell s.started .pkt 0 = readCell s .pkt 0 := by simp
  have hm' : packedContentLength s.started n = m := by rw [hm]; simp [packedContentLength]
  have hl : s.started.pktLen = s.pktLen := rfl
  have hp : s.started.params = s.params := rfl
  by_cases h1 : s.pktLen.toNat ≤ s.params.maxLen
  · by_cases h2 : 1 ≤ n ∧ n + 5 + m ≤ s.pktLen.toNat
    · have hs : (unpackStore s.started n m).status = s.started.status := by rw [unpackStore_eq]; rfl
      refine .done hf (t := unpackStore s.started n m) ?_ ⟨h1, h2.1, h2.2, by rw [hs]; rfl⟩
      simp only [bodyOf, unpackBody, hc, ← hn, hm', hl, hp]
      have : n ≠ 0 := by omega
      simp [h1, this, show 1 ≤ s.pktLen.toNat by omega, show n + 5 ≤ s.pktLen.toNat by omega, h2.2]
    · refine .error hf (e := .corruptHeader) ?_ (by decide) (by decide) (.inr ⟨rfl, h1, by omega⟩)
      simp only [bodyOf, unpackBody, hc, ← hn, hm', hl, hp]
      by_cases a1 : 1 ≤ s.pktLen.toNat
      · by_cases a2 : n = 0
        · simp [h1, a1, a2]
        · by_cases a3 : n + 5 ≤ s.pktLen.toNat
          · have : ¬ n + 5 + m ≤ s.pktLen.toNat := by omega
            simp [h1, a1, a2, a3, this]
          · simp [h1, a1, a2, a3]
      · simp [h1, a1]
  · refine .error hf (e := .lengthInvalid) ?_ (by decide) (by decide) (.inl ⟨rfl, by omega⟩)
    simp [bodyOf, unpackBody, hl, hp, h1]

/-- A buffer the four cursor commands accept (20_memory.md R54). -/
def CursorBuffer (s : State) : Prop :=
  s.chLen.toNat % 4 = 0 ∧ 4 ≤ s.chLen.toNat ∧ s.chLen.toNat ≤ s.params.maxLen

theorem writeHeader_cases {s : State} (hf : s.status.fatal = false) :
    Outcome .writeHeader s
      (fun e => (e = .bitsOutOfRange ∧ ¬ (1 ≤ s.bits.toNat ∧ s.bits.toNat ≤ 8)) ∨
        (e = .lengthInvalid ∧ (1 ≤ s.bits.toNat ∧ s.bits.toNat ≤ 8) ∧ ¬ CursorBuffer s))
      (fun t => (1 ≤ s.bits.toNat ∧ s.bits.toNat ≤ 8) ∧ CursorBuffer s ∧
        t = ((((s.withMem .chan t.chan).withCur 4).withBt (BitVec.ofNat 4 s.bits.toNat)).withStatus
          ((s.status.withPhase .hdr).finish .ok)) ∧
        (∀ bound, s.chLen.toNat ≤ bound → MemoryOk bound s → MemoryOk bound t) ∧
        ∀ k, readCell t .chan k =
          if k < 3 then (readCell s .chan k &&& ~~~ mask 8 1) ||| headerBit (s.bits.toNat - 1) (2 - k)
          else if k = 3 then s.params.alphaBlank else readCell s .chan k) := by
  by_cases hb : bitsLegal s.bits.toNat = true
  · by_cases hl : cursorBufferLegal s.params.maxLen s.chLen.toNat = true
    · have hl' := cursorBufferLegal_iff.1 hl
      obtain ⟨t, ht, he, hk⟩ := headerPhase_spec (s := s.started.withCur 0) (s.bits.toNat - 1)
        (by exact hl'.2.1) rfl
      have hkeep := headerPhase_keeps (s.bits.toNat - 1) ((CursorKeeps.refl s.started).withCur 0)
      rw [ht] at hkeep
      obtain ⟨t', hkeep, h' | h'⟩ := hkeep
      · cases h'
        have hbits : t.bits = s.bits := by rw [he]; rfl
        refine .done hf (t := (t.withBt (BitVec.ofNat 4 t.bits.toNat)).withStatus (t.status.withPhase .hdr)) ?_
          ⟨bitsLegal_iff.1 hb, hl', ?_, ?_, ?_⟩
        · have hbody : bodyOf .writeHeader s.started = (headerPhase (s.bits.toNat - 1) (s.started.withCur 0)).andThen
              fun t => .done ((t.withBt (BitVec.ofNat 4 t.bits.toNat)).withStatus (t.status.withPhase .hdr)) := by
            have h1 : (! bitsLegal s.started.bits.toNat) = false := by simpa [State.started] using hb
            have h2 : (! cursorBufferLegal s.started.params.maxLen s.started.chLen.toNat) = false := by
              simpa [State.started] using hl
            simp only [bodyOf, writeHeaderBody, h1, h2]
            rfl
          rw [hbody, ht]; rfl
        · rw [he]; rfl
        · intro bound hb hm
          exact (hkeep.memory bound hl'.1 hb (hm.congr (mem_started s))).congr fun sp => by cases sp <;> rfl
        · intro k
          simpa [State.started] using hk k
      · cases h'
    · refine .error hf (e := .lengthInvalid) ?_ (by decide) (by decide)
        (.inr ⟨rfl, bitsLegal_iff.1 hb, fun h => hl (cursorBufferLegal_iff.2 h)⟩)
      simp [bodyOf, writeHeaderBody, State.started, hb, hl]
  · refine .error hf (e := .bitsOutOfRange) ?_ (by decide) (by decide) (.inl ⟨rfl, fun h => hb (bitsLegal_iff.2 h)⟩)
    simp [bodyOf, writeHeaderBody, State.started, hb]

/-- WRITE_PAYLOAD, its checks passed, is its three phases and the close of the sequence. -/
theorem writePayloadBody_eq (s : State) :
    writePayloadBody s =
      if s.status.phase ≠ .hdr then .raised .illegalCommand s
      else if ! cursorBufferLegal s.params.maxLen s.chLen.toNat then .raised .lengthInvalid s
      else if ! decide (s.payLen.toNat ≤ s.params.maxLen) then .raised .lengthInvalid s
      else (writePhases s.bt.toNat s).andThen closeWrite := rfl

/-- WRITE_PAYLOAD in any state, reachable or not: what is common to all its ends. -/
theorem writePayload_cases_any {s : State} (hf : s.status.fatal = false) :
    Outcome .writePayload s
      (fun e => (e = .illegalCommand ∧ s.status.phase = .idle) ∨
        (e = .lengthInvalid ∧ s.status.phase = .hdr ∧ (¬ CursorBuffer s ∨ s.params.maxLen < s.payLen.toNat)))
      (fun t => s.status.phase = .hdr ∧ CursorBuffer s ∧ s.payLen.toNat ≤ s.params.maxLen ∧
        ∃ u, CursorKeeps s.started u ∧
          ((t = (u.withBt 0).withStatus ((s.status.withPhase .idle).finish .ok) ∧ u.cur = s.chLen ∧
              writePhases s.bt.toNat s.started = .done u) ∨
            (t = raiseError .cursorMismatch u ∧ (writePhases s.bt.toNat s.started).andThen closeWrite
              = .raised .cursorMismatch u))) := by
  by_cases hp : s.status.phase = .hdr
  · by_cases hl : cursorBufferLegal s.params.maxLen s.chLen.toNat = true
    · by_cases hm : s.payLen.toNat ≤ s.params.maxLen
      · have hbody : bodyOf .writePayload s.started = (writePhases s.bt.toNat s.started).andThen closeWrite := by
          simp only [bodyOf, writePayloadBody_eq]
          simp [State.started, hl, hm, Status.start, hp]
        obtain ⟨u, hu, hr⟩ := writePhases_keeps s.bt.toNat s.started
        have hst : u.status = s.started.status := hu.only.status
        have hfatal : raiseError .cursorMismatch u = raiseError .cursorMismatch u := rfl
        rcases hr with hr | hr
        · by_cases hc : u.cur = u.chLen
          · refine .done hf (t := (u.withBt 0).withStatus (u.status.withPhase .idle)) ?_
              ⟨hp, cursorBufferLegal_iff.1 hl, hm, u, hu, .inl ⟨?_, by rw [hc, hu.only.chLen]; rfl, hr⟩⟩
            · rw [hbody, hr]; simp [CmdResult.andThen, closeWrite, hc]
            · rw [hst]; rfl
          · have hcl : (writePhases s.bt.toNat s.started).andThen closeWrite = .raised .cursorMismatch u := by
              rw [hr]; simp [CmdResult.andThen, closeWrite, hc]
            exact ⟨_, by rw [exec_eq, runCommand_raised hf (hbody.trans hcl)],
              .inr ⟨hp, cursorBufferLegal_iff.1 hl, hm, u, hu, .inr ⟨rfl, hcl⟩⟩⟩
        · have hcl : (writePhases s.bt.toNat s.started).andThen closeWrite = .raised .cursorMismatch u := by
            rw [hr]; rfl
          exact ⟨_, by rw [exec_eq, runCommand_raised hf (hbody.trans hcl)],
            .inr ⟨hp, cursorBufferLegal_iff.1 hl, hm, u, hu, .inr ⟨rfl, hcl⟩⟩⟩
      · refine .error hf (e := .lengthInvalid) ?_ (by decide) (by decide) (.inr ⟨rfl, hp, .inr (by omega)⟩)
        simp only [bodyOf, writePayloadBody_eq]
        simp [State.started, hl, hm, Status.start, hp]
    · refine .error hf (e := .lengthInvalid) ?_ (by decide) (by decide)
        (.inr ⟨rfl, hp, .inl fun h => hl (cursorBufferLegal_iff.2 h)⟩)
      simp only [bodyOf, writePayloadBody_eq]
      simp [State.started, hl, Status.start, hp]
  · refine .error hf (e := .illegalCommand) ?_ (by decide) (by decide) (.inl ⟨rfl, ?_⟩)
    · simp only [bodyOf, writePayloadBody_eq]
      simp [State.started, Status.start, hp]
    · cases h : s.status.phase
      · rfl
      · exact absurd h hp

/-- WRITE_PAYLOAD with a pending header as 10_state.md R28 describes it: whether the payload fits decides how it ends. -/
theorem writePayload_cases {s : State} (hf : s.status.fatal = false)
    (hinv : s.status.phase = .hdr → s.cur = 4 ∧ 1 ≤ s.bt.toNat ∧ s.bt.toNat ≤ 8) :
    Outcome .writePayload s
      (fun e => (e = .illegalCommand ∧ s.status.phase = .idle) ∨
        (e = .lengthInvalid ∧ s.status.phase = .hdr ∧ (¬ CursorBuffer s ∨ s.params.maxLen < s.payLen.toNat)))
      (fun t => s.status.phase = .hdr ∧ CursorBuffer s ∧ s.payLen.toNat ≤ s.params.maxLen ∧
        ∃ u, CursorKeeps s.started u ∧
          Written s.started s.bt.toNat (writtenBit s.started s.bt.toNat) (usableCount s) u ∧
          ((8 * s.payLen.toNat ≤ usableCount s * s.bt.toNat ∧ u.acc = 0 ∧ u.accBits = 0 ∧
              u.env = envAfter s (usableCount s - 8 * s.payLen.toNat / s.bt.toNat) ∧
              t = (u.withBt 0).withStatus ((s.status.withPhase .idle).finish .ok)) ∨
            (usableCount s * s.bt.toNat < 8 * s.payLen.toNat ∧ u.accBits.toNat ≤ 8 ∧
              u.acc.toNat < 2 ^ u.accBits.toNat ∧ t = raiseError .cursorMismatch u))) := by
  obtain ⟨t, ht, h | ⟨hp, hl, hm, u, hu, h⟩⟩ := writePayload_cases_any hf
  · exact ⟨t, ht, .inl h⟩
  · obtain ⟨hc, hb, hb8⟩ := hinv hp
    have hspec := writePhases_spec (s := s.started) hb hb8 hl.1 hl.2.1 (by
      show s.cur.toNat = 4; rw [hc]; rfl)
    refine ⟨t, ht, .inr ⟨hp, hl, hm, u, hu, ?_⟩⟩
    by_cases hfit : 8 * s.payLen.toNat ≤ usableCount s * s.bt.toNat
    · rw [if_pos (show 8 * s.started.payLen.toNat ≤ usableCount s.started * s.bt.toNat from hfit)] at hspec
      obtain ⟨x, hx, hw, ha, hn, he⟩ := hspec
      have hcur : x.cur = x.chLen := by
        apply BitVec.eq_of_toNat_eq
        rw [hw.cur, hw.only.chLen]
        exact usableIndex_usableCount (s := s) hl.1 hl.2.1
      rcases h with ⟨h, -, hd⟩ | ⟨-, hr⟩
      · rw [hx] at hd; cases hd
        exact ⟨hw, .inl ⟨hfit, ha, hn, he, h⟩⟩
      · rw [hx] at hr
        simp [CmdResult.andThen, closeWrite, hcur] at hr
    · rw [if_neg (show ¬ 8 * s.started.payLen.toNat ≤ usableCount s.started * s.bt.toNat from hfit)] at hspec
      obtain ⟨x, hx, ho⟩ := hspec
      rcases h with ⟨-, -, hd⟩ | ⟨h, hr⟩
      · rw [hx] at hd; cases hd
      · rw [hx] at hr; cases hr
        exact ⟨ho.written, .inr ⟨by omega, ho.accBits, ho.acc, h⟩⟩

theorem headerValue_lt (a b c : Byte) : headerValue a b c < 8 := by unfold headerValue; omega

theorem readHeader_cases {s : State} (hf : s.status.fatal = false) :
    Outcome .readHeader s (fun e => e = .lengthInvalid ∧ ¬ CursorBuffer s)
      (fun t => CursorBuffer s ∧ t = (s.ended .ok).withBits
        (BitVec.ofNat 8 (headerValue (readCell s .chan 0) (readCell s .chan 1) (readCell s .chan 2) + 1))) := by
  by_cases hl : cursorBufferLegal s.params.maxLen s.chLen.toNat = true
  · have hv := headerValue_lt (readCell s .chan 0) (readCell s .chan 1) (readCell s .chan 2)
    have hb : bitsLegal (headerValue (readCell s .chan 0) (readCell s .chan 1) (readCell s .chan 2) + 1) = true :=
      bitsLegal_iff.2 (by omega)
    refine .done hf (t := s.started.withBits (BitVec.ofNat 8
      (headerValue (readCell s .chan 0) (readCell s .chan 1) (readCell s .chan 2) + 1))) ?_
      ⟨cursorBufferLegal_iff.1 hl, rfl⟩
    simp [bodyOf, readHeaderBody, State.started, hl, hb]
  · refine .error hf (e := .lengthInvalid) ?_ (by decide) (by decide) ⟨rfl, fun h => hl (cursorBufferLegal_iff.2 h)⟩
    simp [bodyOf, readHeaderBody, State.started, hl]

theorem readPayload_cases {s : State} (hf : s.status.fatal = false) :
    Outcome .readPayload s
      (fun e => (e = .bitsOutOfRange ∧ ¬ (1 ≤ s.bits.toNat ∧ s.bits.toNat ≤ 8)) ∨
        (e = .lengthInvalid ∧ (1 ≤ s.bits.toNat ∧ s.bits.toNat ≤ 8) ∧
          (¬ CursorBuffer s ∨ capacityBytes s.chLen.toNat s.bits.toNat < (s.payLen.toNat : Int))))
      (fun t => (1 ≤ s.bits.toNat ∧ s.bits.toNat ≤ 8) ∧ CursorBuffer s ∧
        (s.payLen.toNat : Int) ≤ capacityBytes s.chLen.toNat s.bits.toNat ∧
        ∃ u, Collected s.started s.bits.toNat s.chLen.toNat u ∧
          (∀ bound, s.payLen.toNat ≤ bound → MemoryOk bound s → MemoryOk bound u) ∧
          t = (u.withBt 0).withStatus ((s.status.withPhase .idle).finish .ok)) := by
  by_cases hb : bitsLegal s.bits.toNat = true
  · have hb' := bitsLegal_iff.1 hb
    by_cases hl : cursorBufferLegal s.params.maxLen s.chLen.toNat = true
    · have hl' := cursorBufferLegal_iff.1 hl
      by_cases hc : (s.payLen.toNat : Int) ≤ capacityBytes s.chLen.toNat s.bits.toNat
      · have hw := readLoop_whole (s := s.started) hb'.1 hb'.2 hl'.2.1
        generalize hu : readLoop s.bits.toNat _ 0 _ = u at hw
        refine .done hf (t := (u.withBt 0).withStatus (u.status.withPhase .idle)) ?_
          ⟨hb', hl', hc, u, hw, ?_, ?_⟩
        · simp [bodyOf, readPayloadBody, State.started, hb, hl, hc]
          unfold State.started at hu
          simp at hu
          rw [hu]
        · intro bound hp hm
          rw [← hu]
          exact readLoop_memory _ _ hp (hm.congr fun sp => by cases sp <;> rfl)
        · rw [hw.only.status]; rfl
      · refine .error hf (e := .lengthInvalid) ?_ (by decide) (by decide) (.inr ⟨rfl, hb', .inr (by omega)⟩)
        simp [bodyOf, readPayloadBody, State.started, hb, hl, hc]
    · refine .error hf (e := .lengthInvalid) ?_ (by decide) (by decide)
        (.inr ⟨rfl, hb', .inl fun h => hl (cursorBufferLegal_iff.2 h)⟩)
      simp [bodyOf, readPayloadBody, State.started, hb, hl]
  · refine .error hf (e := .bitsOutOfRange) ?_ (by decide) (by decide) (.inl ⟨rfl, fun h => hb (bitsLegal_iff.2 h)⟩)
    simp [bodyOf, readPayloadBody, State.started, hb]

end Sys2Proof.Machine
end

