-- ==== Sys2Proof/Laws/Host.lean ====
section
/-! SUPPORT. What the host's moves do: a write of the window, a command started, a script played (10_state.md R21, R22;
30_encoding.md R80). -/

namespace Sys2Proof.Machine

/-- The answer of a command, once it is known which it is. -/
theorem Outcome.next {i : Instr} {s t : State} {E : ErrCode → Prop} {P : State → Prop} (o : Outcome i s E P)
    (h : exec i s = .next t) : (∃ e, e ≠ .ok ∧ e ≠ .cursorMismatch ∧ E e ∧ t = s.ended e) ∨ P t := by
  obtain ⟨t', ht, hp⟩ := o
  rw [ht] at h; cases h; exact hp

/-! ### Commands -/

theorem exec_next (i : Instr) (s : State) : ∃ t, exec i s = .next t := by
  rw [exec_eq]; exact runCommand_next _ s

/-- What every command keeps, in every state: the parameters, the script, the reset count; it leaves the block idle. -/
theorem exec_keeps {i : Instr} {s t : State} (hf : s.status.fatal = false) (h : exec i s = .next t) :
    t.params = s.params ∧ t.status.busy = false ∧ t.env.script = s.env.script ∧ t.env.resets = s.env.resets := by
  cases i with
  | validateBits => rcases (validateBits_cases hf).next h with ⟨e, -, -, -, rfl⟩ | ⟨-, rfl⟩ <;> exact ⟨rfl, rfl, rfl, rfl⟩
  | capacity => rcases (capacity_cases hf).next h with ⟨e, -, -, -, rfl⟩ | ⟨-, -, rfl⟩ <;> exact ⟨rfl, rfl, rfl, rfl⟩
  | pack =>
    rcases (pack_cases hf).next h with ⟨e, -, -, -, rfl⟩ | ⟨-, he⟩
    · exact ⟨rfl, rfl, rfl, rfl⟩
    · rw [he, packBody_eq]; exact ⟨rfl, rfl, rfl, rfl⟩
  | packPad =>
    rcases (packPad_cases hf).next h with ⟨e, -, -, -, rfl⟩ | ⟨-, -, -, he⟩
    · exact ⟨rfl, rfl, rfl, rfl⟩
    · rw [he, writeBytes_eq, packBody_eq]; exact ⟨rfl, rfl, rfl, rfl⟩
  | unpack =>
    rcases (unpack_cases hf rfl rfl).next h with ⟨e, -, -, -, rfl⟩ | ⟨-, -, -, he⟩
    · exact ⟨rfl, rfl, rfl, rfl⟩
    · rw [he, unpackStore_eq]; exact ⟨rfl, rfl, rfl, rfl⟩
  | writeHeader =>
    rcases (writeHeader_cases hf).next h with ⟨e, -, -, -, rfl⟩ | ⟨-, -, he, -⟩
    · exact ⟨rfl, rfl, rfl, rfl⟩
    · rw [he]; exact ⟨rfl, rfl, rfl, rfl⟩
  | writePayload =>
    rcases (writePayload_cases_any hf).next h with ⟨e, -, -, -, rfl⟩ | ⟨-, -, -, u, hu, ⟨he, -⟩ | ⟨he, -⟩⟩
    · exact ⟨rfl, rfl, rfl, rfl⟩
    · rw [he]; exact ⟨hu.only.params, rfl, hu.script, hu.resets⟩
    · rw [he, raiseError_cursorMismatch]; exact ⟨hu.only.params, rfl, hu.script, hu.resets⟩
  | readHeader => rcases (readHeader_cases hf).next h with ⟨e, -, -, -, rfl⟩ | ⟨-, rfl⟩ <;> exact ⟨rfl, rfl, rfl, rfl⟩
  | readPayload =>
    rcases (readPayload_cases hf).next h with ⟨e, -, -, -, rfl⟩ | ⟨-, -, -, u, hu, -, he⟩
    · exact ⟨rfl, rfl, rfl, rfl⟩
    · rw [he]
      have henv := hu.only.env
      exact ⟨hu.only.params, rfl, congrArg Env.script henv, congrArg Env.resets henv⟩

theorem exec_script {i : Instr} {s t : State} (h : exec i s = .next t) : t.env.script = s.env.script := by
  cases hf : s.status.fatal with
  | true => rw [exec_eq, runCommand_fatal _ hf] at h; cases h; rfl
  | false => exact (exec_keeps hf h).2.2.1

theorem startCommand_next (w : Byte) (s : State) : ∃ t, startCommand w s = .next t := by
  unfold startCommand
  split
  · exact exec_next _ s
  · exact runCommand_next _ s

/-- What a write of `CMD` comes to: a command runs, or it is refused, or the value is reserved. -/
theorem startCommand_cases {w : Byte} {s t : State} (h : startCommand w s = .next t) :
    (s.status.fatal = true ∧ t = s) ∨ (s.status.fatal = false ∧ t = s.ended .illegalCommand) ∨
      (s.status.fatal = false ∧ ∃ i, decode w = .ok i ∧ exec i s = .next t) := by
  cases hf : s.status.fatal with
  | true =>
    left
    refine ⟨rfl, ?_⟩
    unfold startCommand at h
    split at h
    · rw [exec_eq, runCommand_fatal _ hf] at h; cases h; rfl
    · rw [runCommand_fatal _ hf] at h; cases h; rfl
  | false =>
    right
    unfold startCommand at h
    split at h
    · exact .inr ⟨rfl, _, ‹_›, h⟩
    · rw [runCommand_error (e := .illegalCommand) hf (by decide) rfl] at h
      cases h; exact .inl ⟨rfl, rfl⟩

/-! ### Writes of the window -/

/-- What a write of the window can do: start a command, or change one operand register and nothing else. -/
theorem hostWrite_cases {off : Nat} {v : Word} {s t : State} (h : hostWrite off v s = .next t) :
    (off = 0 ∧ ∃ u answers, startCommand (v.setWidth 8) s = .next u ∧ t = u.withDraws answers) ∨
    (t.status = s.status ∧ t.cur = s.cur ∧ t.bt = s.bt ∧ t.acc = s.acc ∧ t.accBits = s.accBits ∧
      t.capBits = s.capBits ∧ t.capBytes = s.capBytes ∧ t.mem = s.mem ∧ t.params = s.params ∧ t.env = s.env) := by
  unfold hostWrite at h
  split at h
  · cases h
  split at h
  · rename_i r hr
    cases r
    case cmd =>
      have hoff : off = 0 := by
        have := List.find?_some (p := fun r : Reg => r.offset == off) hr
        exact (eq_of_beq this).symm
      obtain ⟨u, hu⟩ := startCommand_next (v.setWidth 8) s
      simp only [writeReg, hu, dropDraws] at h
      cases h
      refine .inl ⟨hoff, u, ?_⟩
      split
      · exact ⟨[], hu, rfl⟩
      · exact ⟨u.env.draws, hu, rfl⟩
    all_goals
      cases h
      right
      refine ⟨rfl, rfl, rfl, rfl, rfl, rfl, rfl, ?_, rfl, rfl⟩
      funext sp
      cases sp <;> rfl
  · cases h; exact .inr ⟨rfl, rfl, rfl, rfl, rfl, rfl, rfl, rfl, rfl, rfl⟩

theorem hostWrite_next {off : Nat} {v : Word} {s : State} (h : windowOffsetWf off = true) :
    ∃ t, hostWrite off v s = .next t := by
  unfold hostWrite
  simp only [h, Bool.not_true, Bool.false_eq_true, if_false]
  split
  · rename_i r _
    cases r <;> first | exact ⟨_, rfl⟩ | skip
    obtain ⟨t, ht⟩ := startCommand_next (v.setWidth 8) s
    exact ⟨_, by rw [writeReg, ht]; rfl⟩
  · exact ⟨_, rfl⟩

/-! ### Scripts -/

theorem step_cons {a : HostAction} {rest : List HostAction} {s : State} (h : s.env.script = a :: rest) :
    step s = perform a (s.withScript rest) := by
  unfold step; rw [h]

theorem writeBytes_withScript (s : State) (sp : Space) (start : Nat) (vs : List Byte) (rest : List HostAction) :
    writeBytes (s.withScript rest) sp start vs = (writeBytes s sp start vs).withScript rest := by
  induction vs generalizing s start with
  | nil => rfl
  | cons v vs ih =>
    unfold writeBytes
    rw [← ih]
    congr 1
    cases sp <;> rfl

/-- One move of a played script. -/
theorem play_cons {a : HostAction} {rest : List HostAction} {s u : State}
    (h : perform a (s.withScript rest) = .next (u.withScript rest)) : play (a :: rest) s = play rest u := by
  have : step (s.withScript (a :: rest)) = .next (u.withScript rest) := h
  simp only [play, List.length_cons, runSteps, this]

/-- A `SET` of a register other than `CMD`. -/
theorem play_set {r : Reg} {v : Word} {rest : List HostAction} {s u : State} (hb : s.status.busy = false)
    (h : writeReg (s.withScript rest) v r = .next (u.withScript rest)) : play (setReg r v :: rest) s = play rest u := by
  apply play_cons
  rw [← h]
  unfold setReg perform whenIdle
  rw [show (s.withScript rest).status.busy = false from hb]
  cases r <;> rfl

/-- A `LOAD` inside the space. -/
theorem play_load {sp : Space} {bytes : List Byte} {rest : List HostAction} {s : State} (hb : s.status.busy = false)
    (hl : bytes.length ≤ s.params.maxLen) : play (load sp bytes :: rest) s = play rest (writeBytes s sp 0 bytes) := by
  apply play_cons
  rw [← writeBytes_withScript]
  unfold load perform whenIdle hostStore
  rw [show (s.withScript rest).status.busy = false from hb]
  simp [hl]

theorem play_draws {answers : List Byte} {rest : List HostAction} {s : State} :
    play (.draws answers :: rest) s = play rest (s.withDraws answers) := play_cons rfl

/-- A `CMD mnemonic` as the next line of a script. -/
theorem play_issue_cons {i : Instr} {rest : List HostAction} {s t : State} (hb : s.status.busy = false)
    (h : exec i (s.withScript rest) = .next t) :
    play (issue i :: rest) s = play rest (if i = .writePayload then t.withDraws [] else t) := by
  have hs : t.env.script = rest := exec_script h
  have ht : (if i = .writePayload then t.withDraws [] else t) =
      (if i = .writePayload then t.withDraws [] else t).withScript rest := by
    rw [← hs]; split <;> rfl
  apply play_cons
  rw [← ht]
  have hw : ((encode i).setWidth 64 : Word).setWidth 8 = encode i := by simp
  have hp : perform (issue i) (s.withScript rest) =
      dropDraws (((encode i).setWidth 64 : Word).setWidth 8)
        (startCommand (((encode i).setWidth 64 : Word).setWidth 8) (s.withScript rest)) := by
    unfold issue perform whenIdle
    rw [show (s.withScript rest).status.busy = false from hb]
    rfl
  rw [hp, hw]
  simp only [startCommand, decode_encode, h, dropDraws]
  cases i <;> rfl

theorem State.withScript_self {s : State} {rest : List HostAction} (h : s.env.script = rest) : s.withScript rest = s := by
  subst h; rfl

/-- A `CMD mnemonic` as the last line of a script: the commands that make no draw. -/
theorem play_issue {i : Instr} {s t : State} (hi : i ≠ .writePayload) (hb : s.status.busy = false)
    (h : exec i (s.withScript []) = .next t) : play [issue i] s = .next t := by
  rw [play_issue_cons hb h, if_neg hi]
  exact congrArg Host.Outcome.next (State.withScript_self (exec_script h))

/-- `CMD WRITE_PAYLOAD` as the last line of a script. -/
theorem play_issue_writePayload {s t : State} (hb : s.status.busy = false)
    (h : exec .writePayload (s.withScript []) = .next t) : play [issue .writePayload] s = .next (t.withDraws []) := by
  rw [play_issue_cons hb h, if_pos rfl]
  exact congrArg Host.Outcome.next (State.withScript_self (s := t.withDraws []) (exec_script h))

/-- With no move pending the machine stays as it is, however long (70_reset_and_hazards.md R241). -/
theorem runSteps_idle (k : Nat) {s : State} (h : s.env.script = []) : runSteps k s = .next s := by
  induction k with
  | zero => rfl
  | succ k ih =>
    have : step s = .next s := by unfold step; rw [h]
    simp only [runSteps, this, ih]

theorem play_stopUnlessOk_ok {rest : List HostAction} {s : State} (h : s.status.err = .ok) :
    play (.stopUnlessOk :: rest) s = play rest s := by
  apply play_cons
  show Host.Outcome.next _ = _
  rw [show (s.withScript rest).status.err = .ok from h, if_pos rfl]

/-- The rest of a sequence is given up at the first command that ended with an error (30_encoding.md R81). -/
theorem play_stopUnlessOk_error {rest : List HostAction} {s : State} (h : s.status.err ≠ .ok) :
    play (.stopUnlessOk :: rest) s = .next (s.withScript []) := by
  have : step (s.withScript (.stopUnlessOk :: rest)) = .next (s.withScript []) := by
    show Host.Outcome.next _ = _
    split
    · exact absurd ‹_› h
    · rfl
  simp only [play, List.length_cons, runSteps, this]
  exact runSteps_idle _ rfl

theorem play_nil (s : State) : play [] s = .next (s.withScript []) := rfl

end Sys2Proof.Machine
end

