-- ==== Sys2Proof/Laws/PerInstr.lean ====
section
/-! SUPPORT. Statements made for every instruction, one lemma per constructor. -/

namespace Sys2Proof.Laws.EncodingFits

/-- The instruction is well formed, its command word is not a reserved one, and its row's word, numbered as the opcode
table numbers it, decodes to it (30_encoding.md R70, R71). -/
def Statement (i : Instr) : Prop :=
  i.wf = true ∧ commandWordWf (encode i) = true ∧ decodeTableWord 8 (encode i).toNat = some i

theorem validateBits : Statement .validateBits := ⟨rfl, rfl, rfl⟩
theorem capacity : Statement .capacity := ⟨rfl, rfl, rfl⟩
theorem pack : Statement .pack := ⟨rfl, rfl, rfl⟩
theorem packPad : Statement .packPad := ⟨rfl, rfl, rfl⟩
theorem unpack : Statement .unpack := ⟨rfl, rfl, rfl⟩
theorem writeHeader : Statement .writeHeader := ⟨rfl, rfl, rfl⟩
theorem writePayload : Statement .writePayload := ⟨rfl, rfl, rfl⟩
theorem readHeader : Statement .readHeader := ⟨rfl, rfl, rfl⟩
theorem readPayload : Statement .readPayload := ⟨rfl, rfl, rfl⟩

end Sys2Proof.Laws.EncodingFits
end

