-- ==== Sys2Proof/Laws/WholeWrite.lean ====
section
/-! SUPPORT. The channels after a successful WRITE_PAYLOAD, and after WRITE_HEADER and WRITE_PAYLOAD together
(42_cursor_write.md R136, R147). -/

namespace Sys2Proof.Machine

@[simp] theorem writtenBit_started (s : State) (b : Nat) : writtenBit s.started b = writtenBit s b := by
  funext j q; simp [writtenBit, payloadBit, drawAt, State.started]

@[simp] theorem channelBit_started (s : State) : channelBit s.started = channelBit s := by
  funext b t; simp [channelBit]

/-- A successful WRITE_PAYLOAD with a pending header: what fits, what stays, and every channel bit by bit. -/
theorem writePayload_ok {t u : State} (hf : t.status.fatal = false) (hc : t.cur = 4)
    (hb : 1 ≤ t.bt.toNat ∧ t.bt.toNat ≤ 8) (h : exec .writePayload t = .next u) (hok : u.status.err = .ok) :
    CursorBuffer t ∧ 8 * t.payLen.toNat ≤ usableCount t * t.bt.toNat ∧
    (u.status.fatal = false ∧ u.status.busy = false ∧ u.chLen = t.chLen ∧ u.params = t.params ∧ u.pay = t.pay ∧
      u.env.resets = t.env.resets) ∧
    ∀ i q, q < 8 → (readCell u .chan i).getLsbD q =
      if 4 ≤ i ∧ i < t.chLen.toNat then
        if i % 4 = 3 then t.params.alphaBlank.getLsbD q
        else if q < t.bt.toNat then writtenBit t t.bt.toNat (usableNumber i) q else (readCell t .chan i).getLsbD q
      else (readCell t .chan i).getLsbD q := by
  rcases (writePayload_cases hf fun _ => ⟨hc, hb⟩).next h with ⟨e, ho, -, -, rfl⟩ | ⟨-, hl, -, w, hw, hwr, h⟩
  · exact absurd hok ho
  rcases h with ⟨hfit, -, -, -, he⟩ | ⟨-, -, -, he⟩
  · have hN : usableIndex (usableCount t) = t.chLen.toNat := usableIndex_usableCount hl.1 hl.2.1
    have hch := hwr.chan
    rw [hN] at hch
    simp only [readCell_started, writtenBit_started] at hch
    refine ⟨hl, hfit, ?_, ?_⟩
    · rw [he]
      exact ⟨hf, rfl, hw.only.chLen, hw.only.params, hw.only.mem (sp := .pay) (by decide), hw.resets⟩
    · intro i q hq
      rw [he]
      simp only [readCell_withStatus, readCell_withBt]
      exact hch i q hq
  · rw [he, raiseError_cursorMismatch] at hok; cases hok

/-- WRITE_HEADER and WRITE_PAYLOAD, both ended with `OK`; only the draws may be changed in between. -/
theorem wholeWrite_ok {s t t' u : State} (hf : s.status.fatal = false) (h1 : exec .writeHeader s = .next t)
    (h2 : t.status.err = .ok) (ht' : ∃ e : Env, e.resets = t.env.resets ∧ t' = t.withEnv e)
    (h3 : exec .writePayload t' = .next u) (h4 : u.status.err = .ok) :
    (1 ≤ s.bits.toNat ∧ s.bits.toNat ≤ 8) ∧ CursorBuffer s ∧ 8 * s.payLen.toNat ≤ usableCount s * s.bits.toNat ∧
    (u.status.fatal = false ∧ u.status.busy = false ∧ u.chLen = s.chLen ∧ u.params = s.params ∧ u.pay = s.pay ∧
      u.env.resets = s.env.resets) ∧
    (∀ k, k < 3 → readCell u .chan k = (readCell s .chan k &&& ~~~ mask 8 1) ||| headerBit (s.bits.toNat - 1) (2 - k)) ∧
    ∀ i, 3 ≤ i → ∀ q, q < 8 → (readCell u .chan i).getLsbD q =
      if i < s.chLen.toNat then
        if i % 4 = 3 then s.params.alphaBlank.getLsbD q
        else if q < s.bits.toNat then
          if usableNumber i * s.bits.toNat + (s.bits.toNat - 1 - q) < 8 * s.payLen.toNat then
            payloadBit s (usableNumber i * s.bits.toNat + (s.bits.toNat - 1 - q))
          else (drawAt t' (usableNumber i - 8 * s.payLen.toNat / s.bits.toNat)).getLsbD q
        else (readCell s .chan i).getLsbD q
      else (readCell s .chan i).getLsbD q := by
  rcases (writeHeader_cases hf).next h1 with ⟨e, ho, -, -, rfl⟩ | ⟨hb, hl, he, -, hk⟩
  · exact absurd h2 ho
  obtain ⟨e, hr, rfl⟩ := ht'
  have tf : (t.withEnv e).status.fatal = false := by rw [he]; exact hf
  have tc : (t.withEnv e).cur = 4 := by rw [he]; rfl
  have tb : (t.withEnv e).bt.toNat = s.bits.toNat := by rw [he]; simp; omega
  have tl : (t.withEnv e).chLen = s.chLen := by rw [he]; rfl
  have tpl : (t.withEnv e).payLen = s.payLen := by rw [he]; rfl
  have tpa : (t.withEnv e).params = s.params := by rw [he]; rfl
  have tpay : (t.withEnv e).pay = s.pay := by rw [he]; rfl
  have tres : (t.withEnv e).env.resets = s.env.resets := by rw [State.withEnv_env, hr, he]; rfl
  have tus : usableCount (t.withEnv e) = usableCount s := by unfold usableCount; rw [tl]
  have trc : ∀ i, readCell (t.withEnv e) .chan i = readCell t .chan i := fun i =>
    readCell_congr rfl (by rw [State.withEnv_env, hr])
  obtain ⟨-, hfit, ⟨uf, ub, ul, up, upay, ures⟩, hch⟩ := writePayload_ok tf tc (by rw [tb]; exact hb) h3 h4
  rw [tus, tb, tpl] at hfit
  refine ⟨hb, hl, hfit, ⟨uf, ub, ul.trans tl, up.trans tpa, upay.trans tpay, ures.trans tres⟩, ?_, ?_⟩
  · intro k hk3
    apply BitVec.eq_of_getLsbD_eq
    intro q hq
    rw [hch _ _ hq, if_neg (by omega), trc, hk, if_pos hk3]
  · intro i hi q hq
    have hpb : payloadBit (t.withEnv e) = payloadBit s := by
      funext x
      unfold payloadBit
      rw [readCell_congr (s := s) (t := t.withEnv e) (by show Memory.read (t.withEnv e).pay _ = _; rw [tpay]; rfl) tres]
    rw [hch _ _ hq, tl, tb, tpa, trc]
    unfold writtenBit
    simp only [tpl, hpb]
    by_cases h3 : i = 3
    · subst h3
      have hlt : 3 < s.chLen.toNat := hl.2.1
      rw [if_neg (by omega), hk, if_neg (by omega), if_pos rfl, if_pos hlt, if_pos (by decide)]
    · have e1 : (4 ≤ i ∧ i < s.chLen.toNat) ↔ i < s.chLen.toNat := by omega
      have e2 : readCell t .chan i = readCell s .chan i := by rw [hk, if_neg (by omega), if_neg h3]
      simp only [e1, e2]

/-- Three channels that carry the header of depth `b` are read back as `b` (43_cursor_read.md R161). -/
theorem headerValue_written {b : Nat} (hb : 1 ≤ b ∧ b ≤ 8) (c0 c1 c2 : Byte) :
    headerValue ((c0 &&& ~~~ mask 8 1) ||| headerBit (b - 1) 2) ((c1 &&& ~~~ mask 8 1) ||| headerBit (b - 1) 1)
      ((c2 &&& ~~~ mask 8 1) ||| headerBit (b - 1) 0) + 1 = b := by
  unfold headerValue
  rw [toNat_headerChannel, toNat_headerChannel, toNat_headerChannel]
  simp
  omega

end Sys2Proof.Machine
end

