-- ==== Sys2Proof/Tests/Slice0.lean ====
section
/-! SUPPORT. The model's own tests (expected values from spec/95_test_vectors.md and the encoding of 30_encoding.md), the
well-formedness smoke tests, and for every statement with hypotheses states and operands that meet them. -/

open Sys2Proof Sys2Proof.Machine

namespace Sys2Proof.Tests

/-! ### Helpers -/

/-- The state an outcome answers, if it is a next state. -/
def result : Host.Outcome State Fault Refusal → Option State
  | .next s => some s
  | .fault _ => none
  | .refused _ => none

/-- The state after a command. -/
def after (i : Instr) (s : State) : State := (result (exec i s)).getD s

/-- The state after a step. -/
def stepped (s : State) : State := (result (step s)).getD s

theorem exec_after (i : Instr) (s : State) (h : (result (exec i s)).isSome = true) : exec i s = .next (after i s) := by
  unfold after; cases hx : exec i s <;> simp_all [result]

/-- The state after a script. -/
def played (moves : List HostAction) (s : State) : State := (result (play moves s)).getD s

theorem play_played (moves : List HostAction) (s : State) (h : (result (play moves s)).isSome = true) :
    play moves s = .next (played moves s) := by
  unfold played; cases hx : play moves s <;> simp_all [result]

theorem step_stepped (s : State) (h : (result (step s)).isSome = true) : step s = .next (stepped s) := by
  unfold stepped; cases hx : step s <;> simp_all [result]

/-- The cells `start ..` holding the bytes of a list. -/
def cells : Nat → List Nat → Memory
  | _, [] => []
  | i, v :: vs => (i, BitVec.ofNat 8 v) :: cells (i + 1) vs

/-- The first `n` cells of a space, as numbers. -/
def shown (s : State) (sp : Space) (n : Nat) : List Nat := (readBytes s sp 0 n).map BitVec.toNat

/-- A machine with `MAXLEN` 64 whose `CHAN` holds the given bytes, at depth `b`. -/
def image (b : Nat) (bytes : List Nat) : State :=
  { State.reset with params := { maxLen := 64, alphaBlank := 0 }, bits := BitVec.ofNat 8 b,
                     chLen := BitVec.ofNat 64 bytes.length, chan := cells 0 bytes }

/-- `image` with a file in `NAME` and `CONT`, and `REQLEN`. -/
def file (name cont : List Nat) (req : Int) : State :=
  { image 1 [] with name := cells 0 name, nameLen := BitVec.ofNat 64 name.length, cont := cells 0 cont,
                    contLen := BitVec.ofNat 32 cont.length, reqLen := BitVec.ofInt 64 req }

/-- `image` with a packed buffer in `PKT`, `NAMELEN` 77 and `CONTLEN` 88. -/
def packed (bytes : List Nat) : State :=
  { image 1 [] with pkt := cells 0 bytes, pktLen := BitVec.ofNat 64 bytes.length, nameLen := 77, contLen := 88 }

/-- `image` with a payload in `PAY`. -/
def carrying (b : Nat) (bytes pay : List Nat) : State :=
  { image b bytes with pay := cells 0 pay, payLen := BitVec.ofNat 64 pay.length }

/-- `carrying` after a WRITE_HEADER: header pending, depth latched, and the answers of the next draws. -/
def pending (b : Nat) (bytes pay draws : List Nat) : State :=
  { (carrying b bytes pay).withDraws (draws.map (BitVec.ofNat 8)) with
      status := { busy := false, done := true, fatal := false, phase := .hdr, err := .ok }, cur := 4, bt := BitVec.ofNat 4 b }

/-- Twenty channels of zeros behind the header pixel of depth 3. -/
def zeros20 : List Nat := [0, 1, 0, 0] ++ List.replicate 16 0

/-- The channels after vector W2. -/
def w2 : List Nat := [0x00, 0x01, 0x00, 0x00, 0x06, 0x07, 0x05, 0x00, 0x02, 0x06, 0x06, 0x00, 0x07, 0x06, 0x07, 0x00,
  0x03, 0x07, 0x02, 0x00]

/-- The fatal state of vector W7. -/
def w7 : State := after .writePayload (pending 1 (List.replicate 8 0) [0xFF] [])

/-- The host's next move is one write of `CMD`. -/
def commanded (s : State) (w : Nat) : State := s.withScript [.write 0x00 (BitVec.ofNat 64 w)]

/-! ### Well-formedness refuses ill-formed terms -/

theorem test_wf_params : Params.wf { maxLen := 3, alphaBlank := 0 } = false ∧
    Params.wf { maxLen := 2 ^ 56 + 1, alphaBlank := 0 } = false ∧ Params.wf { maxLen := 4, alphaBlank := 0 } = true ∧
    Params.wf { maxLen := 2 ^ 56, alphaBlank := 0 } = true := by decide

theorem test_wf_commandWord : commandWordWf 0x12 = false ∧ commandWordWf 0x00 = false ∧ commandWordWf 0x0A = false ∧
    commandWordWf 0xFF = false ∧ commandWordWf 0x01 = true ∧ commandWordWf 0x09 = true := by decide

theorem test_wf_window : windowOffsetWf 0x14 = false ∧ windowOffsetWf 0x5C = false ∧ windowOffsetWf 0x58 = true ∧
    windowOffsetWf 0x61 = true := by decide

theorem test_wf_hostAction : HostAction.wf Params.default (.write 0x11 0) = false ∧
    HostAction.wf Params.default (.copy 0x20 0x51) = false ∧ HostAction.wf Params.default (.copy 0x21 0x50) = false ∧
    HostAction.wf Params.default (.store .chan (2 ^ 48) [0]) = false ∧
    HostAction.wf Params.default (.store .chan (2 ^ 48 - 1) [0]) = true := by decide

/-! ### The opcode map (30_encoding.md R70, R71, R78): bits 7:4 are `rsv`, bits 3:0 are `op` -/

theorem test_decode_words :
    decodeTableWord 8 0b00000001 = some .validateBits ∧ decodeTableWord 8 0b00000010 = some .capacity ∧
    decodeTableWord 8 0b00000011 = some .pack ∧ decodeTableWord 8 0b00000100 = some .packPad ∧
    decodeTableWord 8 0b00000101 = some .unpack ∧ decodeTableWord 8 0b00000110 = some .writeHeader ∧
    decodeTableWord 8 0b00000111 = some .writePayload ∧ decodeTableWord 8 0b00001000 = some .readHeader ∧
    decodeTableWord 8 0b00001001 = some .readPayload := by decide

theorem test_decode_reserved :
    decodeTableWord 8 0b00000000 = none ∧ decodeTableWord 8 0b00001010 = none ∧ decodeTableWord 8 0b00001111 = none ∧
    decodeTableWord 8 0b00010010 = none ∧ decodeTableWord 8 0b10000001 = none ∧ decodeTableWord 8 0b11111111 = none := by
  decide

/-- P2's encoding, up to its reserved byte. -/
theorem test_decode_program :
    (match decodeProgram [0x02, 0x06, 0x07, 0x02] with | .ok is => is | .error _ => []) =
      [.capacity, .writeHeader, .writePayload, .capacity] := by decide

theorem test_fetchWord : (stepped (State.reset.withFetchWord 8 0b00000111)).status.word = 0x0702 ∧
    (stepped (State.reset.withFetchWord 8 0b00000001)).status.word = 0x0002 := by decide

/-! ### One step of each command -/

/-- V1. -/
theorem test_validateBits_ok : (after .validateBits (image 1 [])).status.word = 0x0002 := by decide

/-- V5. -/
theorem test_validateBits_error : (after .validateBits (image 9 [])).status.word = 0x0102 := by decide

/-- CAP9. -/
theorem test_capacity : (after .capacity (image 3 zeros20)).capBits.toInt = 36 ∧
    (after .capacity (image 3 zeros20)).capBytes.toInt = 4 := by decide

/-- CAP1. -/
theorem test_capacity_negative : (after .capacity (image 1 [])).capBits.toInt = -3 ∧
    (after .capacity (image 1 [])).capBytes.toInt = -1 := by decide

/-- F0. -/
theorem test_pack : shown (after .pack (file [0x61, 0x2E, 0x74, 0x78, 0x74] [0x68, 0x69] 0)) .pkt 12 =
    [0x05, 0x61, 0x2E, 0x74, 0x78, 0x74, 0x00, 0x00, 0x00, 0x02, 0x68, 0x69] := by decide

/-- F4. -/
theorem test_pack_name : (after .pack { file [] [1] 0 with nameLen := 256 }).status.word = 0x0202 := by decide

/-- F9. -/
theorem test_packPad : shown (after .packPad (file [0x78] [0xAA] 10)) .pkt 10 =
    [0x01, 0x78, 0x00, 0x00, 0x00, 0x01, 0xAA, 0x00, 0x00, 0x00] := by decide

/-- F8. -/
theorem test_packPad_negative : (after .packPad (file [0x78] [] (-19))).status.word = 0x0302 := by decide

/-- G2. -/
theorem test_unpack :
    (after .unpack (packed [0x01, 0x78, 0x00, 0x00, 0x00, 0x01, 0xAA, 0x55, 0x55])).nameLen = 1 ∧
    (after .unpack (packed [0x01, 0x78, 0x00, 0x00, 0x00, 0x01, 0xAA, 0x55, 0x55])).contLen = 1 ∧
    shown (after .unpack (packed [0x01, 0x78, 0x00, 0x00, 0x00, 0x01, 0xAA, 0x55, 0x55])) .name 1 = [0x78] ∧
    shown (after .unpack (packed [0x01, 0x78, 0x00, 0x00, 0x00, 0x01, 0xAA, 0x55, 0x55])) .cont 1 = [0xAA] := by decide

/-- G6. -/
theorem test_unpack_corrupt :
    (after .unpack (packed [0x01, 0x78, 0x00, 0x00, 0x00, 0x02, 0xAA])).status.word = 0x0402 ∧
    (after .unpack (packed [0x01, 0x78, 0x00, 0x00, 0x00, 0x02, 0xAA])).nameLen = 77 := by decide

/-- H3. -/
theorem test_writeHeader : shown (after .writeHeader (image 3 [0xA5, 0x5A, 0xFF, 0x77])) .chan 4 = [0xA4, 0x5B, 0xFE, 0x00] ∧
    (after .writeHeader (image 3 [0xA5, 0x5A, 0xFF, 0x77])).status.word = 0x000A := by decide

/-- H11. -/
theorem test_writeHeader_length : (after .writeHeader (image 2 [0, 0, 0, 0, 0, 0])).status.word = 0x0602 := by decide

/-- W2. -/
theorem test_writePayload : shown (after .writePayload (pending 3 zeros20 [0xDE, 0xAD, 0xBE, 0xEF] [0x55, 0xAA])) .chan 20 = w2 ∧
    (after .writePayload (pending 3 zeros20 [0xDE, 0xAD, 0xBE, 0xEF] [0x55, 0xAA])).env.drawCount = 2 := by decide

/-- W7. -/
theorem test_writePayload_fatal : w7.status.word = 0x0506 ∧ w7.cur = 8 ∧ w7.bt = 0 ∧ w7.env.drawCount = 0 := by decide

/-- H9. -/
theorem test_readHeader : (after .readHeader (image 1 [0x00, 0x03, 0x04, 0xFF, 0x12, 0x34, 0x56, 0x78])).bits = 3 := by decide

/-- H10. -/
theorem test_readHeader_length : (after .readHeader (image 1 [0, 0, 0, 0, 0, 0])).status.word = 0x0602 := by decide

/-- W15: the wrong depth. -/
theorem test_readPayload : shown (after .readPayload (carrying 1 w2 [0x00])) .pay 1 = [0x62] ∧
    (after .readPayload (carrying 1 w2 [0x00])).cur = 20 := by decide

/-- W11. -/
theorem test_readPayload_length : (after .readPayload { pending 2 (List.replicate 8 0) [0, 0, 0] [] with bits := 7 }).status.word = 0x060A := by decide

/-- E4, E7, E6, E8. -/
theorem test_commands : (stepped (commanded State.reset 0x12)).status.word = 0x0702 ∧
    (stepped (commanded w7 0x0A)).status.word = 0x0506 ∧ (stepped (commanded w7 0x02)).status.word = 0x0506 ∧
    (stepped (w7.withScript [.reset])).status.word = 0x0000 := by decide

/-! ### Witnesses: states and operands that meet the hypotheses of the statements, clause by clause -/

/-- A machine whose host has one move pending. -/
def moved (a : HostAction) : State := (image 1 zeros20).withScript [a]

theorem witness_StepRunsTheDecodedCommand :
    (commanded (image 3 zeros20) 0x102).env.script = .write 0x00 0x102 :: [] ∧
    (commanded (image 3 zeros20) 0x102).status.busy = false ∧
    decode ((0x102 : Word).setWidth 8) = .ok .capacity ∧ decode ((0x07 : Word).setWidth 8) = .ok .writePayload :=
  ⟨by decide, by decide, rfl, rfl⟩

theorem witness_ReservedCommandValueIsIllegal :
    (commanded State.reset 0x00).env.script = .write 0x00 0x00 :: [] ∧
    (commanded State.reset 0x0A).env.script = .write 0x00 0x0A :: [] ∧
    (commanded State.reset 0x0A).status.busy = false ∧ (commanded State.reset 0x0A).status.fatal = false ∧
    ((0x00 : Word).setWidth 8 : Byte).toNat = 0x00 ∧ 0x0A ≤ ((0x0A : Word).setWidth 8 : Byte).toNat := by decide

theorem witness_FatalStateRefusesEveryCommand : (commanded w7 0x02).status.fatal = true ∧
    (commanded w7 0x02).env.script = .write 0x00 0x02 :: [] ∧ (commanded w7 0x02).status.busy = false := by decide

theorem witness_RegisterWindow : Reg.writableWidth .bits = some 8 ∧ Reg.writableWidth .contLen = some 32 ∧
    Reg.writableWidth .pktLen = some 64 ∧ Reg.writableWidth .chLen = some 64 ∧
    Reg.writableWidth .payLen = some 64 ∧ Reg.writableWidth .nameLen = some 64 ∧ Reg.writableWidth .reqLen = some 64 ∧
    Reg.cur ∈ [Reg.status, .capBits, .capBytes, .cur] ∧ 0x60 ≤ 0x60 := by decide

theorem witness_HostStoreWritesItsCellsOnly :
    (moved (.store .pay 63 [7])).env.script = .store .pay 63 [7] :: [] ∧ (moved (.store .pay 63 [7])).status.busy = false ∧
    63 + [(7 : Byte)].length ≤ (moved (.store .pay 63 [7])).params.maxLen ∧
    (moved (.store .pay 64 [7])).env.script = .store .pay 64 [7] :: [] ∧ (moved (.store .pay 64 [7])).status.busy = false ∧
    (moved (.store .pay 64 [7])).params.maxLen < 64 + [(7 : Byte)].length ∧ [(7 : Byte)] ≠ [] := by decide

theorem witness_ResetMovePutsEveryRegisterAtReset : (w7.withScript [.reset]).env.script = .reset :: [] := by decide

theorem witness_OnlyResetClearsFatal :
    step (commanded w7 0x01) = .next (stepped (commanded w7 0x01)) ∧ (commanded w7 0x01).status.fatal = true ∧
    step (w7.withScript [.reset]) = .next (stepped (w7.withScript [.reset])) ∧
    (w7.withScript [.reset]).status.fatal = true :=
  ⟨step_stepped _ (by decide), by decide, step_stepped _ (by decide), by decide⟩

theorem witness_EveryHostMoveEnds :
    (moved (.write 0x60 1)).env.script = .write 0x60 1 :: [] ∧ (moved (.write 0x60 1)).status.busy = false ∧
    HostAction.wf (moved (.write 0x60 1)).params (.write 0x60 1) = true ∧
    (moved (.write 0x5C 1)).env.script = .write 0x5C 1 :: [] ∧ (moved (.write 0x5C 1)).status.busy = false ∧
    HostAction.wf (moved (.write 0x5C 1)).params (.write 0x5C 1) = false ∧
    HostAction.wf (moved (.store .cont 64 [0])).params (.store .cont 64 [0]) = false := by decide

theorem witness_StepsKeepTheParameters :
    step (commanded (image 3 zeros20) 6) = .next (stepped (commanded (image 3 zeros20) 6)) := step_stepped _ (by decide)

theorem witness_OnlyCommandsAndResetRunTheBlock :
    step (moved (.copy 0x20 0x18)) = .next (stepped (moved (.copy 0x20 0x18))) ∧
    (∀ a rest, (moved (.copy 0x20 0x18)).env.script = a :: rest →
      a ≠ .reset ∧ (∀ v, a ≠ .write 0x00 v) ∧ ∀ src, a ≠ .copy 0x00 src) ∧
    step (image 3 zeros20) = .next (stepped (image 3 zeros20)) ∧ (image 3 zeros20).env.script = [] := by
  refine ⟨step_stepped _ (by decide), ?_, step_stepped _ (by decide), by decide⟩
  intro a rest h
  cases h
  simp

/-- A header pending, at the greatest depth, and the step that writes the payload. -/
theorem witness_EveryStepKeepsTheInvariant :
    Inv (commanded (pending 8 zeros20 [1] []) 0x07) ∧
    step (commanded (pending 8 zeros20 [1] []) 0x07) = .next (stepped (commanded (pending 8 zeros20 [1] []) 0x07)) :=
  ⟨{ params := by decide, idle := by decide, latched := by decide, unlatched := by decide, fatal := by decide,
     fatalIdle := by decide, fresh := by decide, cursor := by decide, accumulator := by decide, capacity := by decide,
     memory := fun sp => by cases sp <;> decide }, step_stepped _ (by decide)⟩

theorem witness_RecoverableErrorsChangeNothingElse : (image 9 zeros20).status.fatal = false ∧
    (after .capacity (image 9 zeros20)).status.err ≠ .ok ∧
    (after .capacity (image 9 zeros20)).status.err ≠ .cursorMismatch ∧
    exec .capacity (image 9 zeros20) = .next (after .capacity (image 9 zeros20)) ∧
    startCommand 0x02 (image 9 zeros20) = .next (after .capacity (image 9 zeros20)) :=
  ⟨by decide, by decide, by decide, exec_after _ _ (by decide), exec_after .capacity _ (by decide)⟩

theorem witness_ErrorsOfEachCommand : (image 9 zeros20).status.fatal = false ∧
    exec .readPayload (image 9 zeros20) = .next (after .readPayload (image 9 zeros20)) :=
  ⟨by decide, exec_after _ _ (by decide)⟩

theorem witness_FatalErrorEntry : (pending 1 (List.replicate 8 0) [0xFF] []).status.fatal = false ∧
    exec .writePayload (pending 1 (List.replicate 8 0) [0xFF] []) = .next w7 ∧ w7.status.fatal = true ∧
    w7.status.err = .cursorMismatch :=
  ⟨by decide, exec_after _ _ (by decide), by decide, by decide⟩

theorem witness_CommandsChangeOnlyWhatTheyList :
    (pending 3 zeros20 [1, 2, 3, 4] []).status.fatal = false ∧
    ((pending 3 zeros20 [1, 2, 3, 4] []).status.phase = .hdr → (pending 3 zeros20 [1, 2, 3, 4] []).cur = 4 ∧
      1 ≤ (pending 3 zeros20 [1, 2, 3, 4] []).bt.toNat ∧ (pending 3 zeros20 [1, 2, 3, 4] []).bt.toNat ≤ 8) ∧
    exec .writePayload (pending 3 zeros20 [1, 2, 3, 4] []) =
      .next (after .writePayload (pending 3 zeros20 [1, 2, 3, 4] [])) ∧
    ¬ writesCell (pending 3 zeros20 [1, 2, 3, 4] []) .writePayload .chan 3 ∧
    ¬ writesCell (pending 3 zeros20 [1, 2, 3, 4] []) .writePayload .chan 20 :=
  ⟨by decide, by decide, exec_after _ _ (by decide), fun h => absurd h.2.1 (by decide), fun h => absurd h.2.2 (by decide)⟩

theorem witness_ValidateBitsOutcome : (image 0 []).status.fatal = false ∧ ¬ (1 ≤ (image 0 []).bits.toNat) ∧
    1 ≤ (image 1 []).bits.toNat ∧ (image 8 []).bits.toNat ≤ 8 ∧ ¬ ((image 9 []).bits.toNat ≤ 8) := by decide

/-- `CHLEN` 0, 4, `MAXLEN` are taken; 6 and `MAXLEN + 4` are not. -/
theorem witness_CapacityOutcome : (image 8 []).status.fatal = false ∧ (image 8 []).params.wf = true ∧
    (image 8 []).chLen.toNat % 4 = 0 ∧ (image 8 []).bits.toNat ≤ 8 ∧ ¬ ((image 9 []).bits.toNat ≤ 8) ∧
    ((image 8 []).withChLen 64).chLen.toNat ≤ (image 8 []).params.maxLen ∧
    ¬ (((image 8 []).withChLen 6).chLen.toNat % 4 = 0) ∧
    ¬ (((image 8 []).withChLen 68).chLen.toNat ≤ (image 8 []).params.maxLen) := by decide

theorem witness_CapacityDependsOnLengthAndDepth :
    (image 3 zeros20).status.fatal = false ∧ (carrying 3 w2 [1]).status.fatal = false ∧
    (image 3 zeros20).chLen = (carrying 3 w2 [1]).chLen ∧ (image 3 zeros20).bits = (carrying 3 w2 [1]).bits ∧
    (image 3 zeros20).params.maxLen = (carrying 3 w2 [1]).params.maxLen ∧
    exec .capacity (image 3 zeros20) = .next (after .capacity (image 3 zeros20)) ∧
    exec .capacity (carrying 3 w2 [1]) = .next (after .capacity (carrying 3 w2 [1])) ∧
    (after .capacity (image 3 zeros20)).status.err = .ok ∧ (0 % 4 = 0 ∧ 4 % 4 = 0 ∧ 0 ≤ 4 ∧ 1 ≤ 8 ∧ 8 ≤ 8) ∧
    (4 % 4 = 0 ∧ 20 % 4 = 0 ∧ 4 ≤ 4 ∧ 4 ≤ 20 ∧ 1 ≤ 1 ∧ 1 ≤ 8 ∧ 8 ≤ 8) :=
  ⟨by decide, by decide, by decide, by decide, by decide, exec_after _ _ (by decide), exec_after _ _ (by decide), by decide, by decide,
    by decide⟩

theorem witness_FitLaw : (20 : Nat) % 4 = 0 ∧ 4 ≤ 20 ∧ 1 ≤ 3 ∧ 3 ≤ 8 ∧ ((4 : Nat) : Int) ≤ capacityBytes 20 3 ∧
    ¬ (((5 : Nat) : Int) ≤ capacityBytes 20 3) := by decide

/-- `NAMELEN` 0, 1, 255, 256, and a file one byte too long for `MAXLEN`. -/
theorem witness_PackOutcome : (file [] [] 0).status.fatal = false ∧ ¬ (1 ≤ (file [] [] 0).nameLen.toNat) ∧
    ¬ (((file [] [] 0).withNameLen 256).nameLen.toNat ≤ 255) ∧ 1 ≤ (file [0x78] [] 0).nameLen.toNat ∧
    5 + (file [0x78] [] 0).nameLen.toNat + ((file [0x78] [] 0).withContLen 58).contLen.toNat ≤ (file [0x78] [] 0).params.maxLen ∧
    (file [0x78] [] 0).params.maxLen < 5 + (file [0x78] [] 0).nameLen.toNat + ((file [0x78] [] 0).withContLen 59).contLen.toNat := by
  decide

/-- `REQLEN` below `T`, equal to `T`, equal to `MAXLEN`, above `MAXLEN`. -/
theorem witness_PackPadOutcome : (file [0x78] [] 6).status.fatal = false ∧ (file [0x78] [] 5).reqLen.toInt < 5 + 1 + 0 ∧
    (file [0x78] [] (-1)).reqLen.toInt < 5 + 1 + 0 ∧
    5 + ((file [0x78] [] 6).nameLen.toNat : Int) + (file [0x78] [] 6).contLen.toNat ≤ (file [0x78] [] 6).reqLen.toInt ∧
    (file [0x78] [] 64).reqLen.toInt ≤ ((file [0x78] [] 64).params.maxLen : Int) ∧
    ((file [0x78] [] 65).params.maxLen : Int) < (file [0x78] [] 65).reqLen.toInt ∧
    1 ≤ (file [0x78] [] 6).nameLen.toNat ∧ (file [0x78] [] 6).nameLen.toNat ≤ 255 ∧ ¬ (1 ≤ (file [] [] 6).nameLen.toNat) ∧
    (file [0x78] [] 6).params.maxLen < 5 + (file [0x78] [] 6).nameLen.toNat + ((file [0x78] [] 6).withContLen 59).contLen.toNat := by
  decide

/-- G1 (exact fit), G3, G4, G5, G6, and `PKTLEN` above `MAXLEN`. -/
theorem witness_UnpackOutcome :
    (packed [0x01, 0x78, 0x00, 0x00, 0x00, 0x00]).status.fatal = false ∧
    (readCell (packed [0x01, 0x78, 0x00, 0x00, 0x00, 0x00]) .pkt 0).toNat = 1 ∧
    (readCell (packed [0x01, 0x78, 0x00, 0x00, 0x00, 0x00]) .pkt 5).toNat = 0 ∧
    1 + 5 + 0 ≤ (packed [0x01, 0x78, 0x00, 0x00, 0x00, 0x00]).pktLen.toNat ∧
    (packed []).pktLen.toNat < 1 ∧ (readCell (packed [0x00, 0x78, 0x00, 0x00, 0x00, 0x00]) .pkt 0).toNat = 0 ∧
    (packed [0x01, 0x78, 0x00, 0x00, 0x00]).pktLen.toNat < 1 + 5 ∧
    (packed [0x01, 0x78, 0x00, 0x00, 0x00, 0x02, 0xAA]).pktLen.toNat < 1 + 5 + 2 ∧
    (packed []).params.maxLen < ((packed []).withPktLen 65).pktLen.toNat := by decide

theorem witness_PackingIsPure :
    (file [0x78] [0xAA] 10).status.fatal = false ∧ (file [0x78, 1] [0xAA] 10).status.fatal = false ∧
    (file [0x78] [0xAA] 10).params.maxLen = ((file [0x78, 1] [0xAA] 10).withNameLen 1).params.maxLen ∧
    (file [0x78] [0xAA] 10).nameLen = ((file [0x78, 1] [0xAA] 10).withNameLen 1).nameLen ∧
    (file [0x78] [0xAA] 10).contLen = ((file [0x78, 1] [0xAA] 10).withNameLen 1).contLen ∧
    (file [0x78] [0xAA] 10).reqLen = ((file [0x78, 1] [0xAA] 10).withNameLen 1).reqLen ∧
    (∀ k, k < (file [0x78] [0xAA] 10).nameLen.toNat → readCell (file [0x78] [0xAA] 10) .name k =
      readCell ((file [0x78, 1] [0xAA] 10).withNameLen 1) .name k) ∧
    (∀ k, k < (file [0x78] [0xAA] 10).contLen.toNat → readCell (file [0x78] [0xAA] 10) .cont k =
      readCell ((file [0x78, 1] [0xAA] 10).withNameLen 1) .cont k) ∧
    exec .packPad (file [0x78] [0xAA] 10) = .next (after .packPad (file [0x78] [0xAA] 10)) ∧
    exec .packPad ((file [0x78, 1] [0xAA] 10).withNameLen 1) =
      .next (after .packPad ((file [0x78, 1] [0xAA] 10).withNameLen 1)) ∧
    (after .packPad (file [0x78] [0xAA] 10)).status.err = .ok :=
  ⟨by decide, by decide, by decide, by decide, by decide, by decide, by decide, by decide, exec_after _ _ (by decide),
    exec_after _ _ (by decide), by decide⟩

/-- F6, and its output in a machine whose `NAMELEN` is 77, whose `CONTLEN` is 88 and whose `NAME` is empty. -/
theorem witness_PackThenUnpackReturnsTheFile :
    let s := file [0x78] [] 6
    let v := packed [0x01, 0x78, 0x00, 0x00, 0x00, 0x00]
    s.status.fatal = false ∧ 1 ≤ s.nameLen.toNat ∧ s.nameLen.toNat ≤ 255 ∧
    5 + s.nameLen.toNat + s.contLen.toNat ≤ s.params.maxLen ∧
    5 + (s.nameLen.toNat : Int) + s.contLen.toNat ≤ s.reqLen.toInt ∧ s.reqLen.toInt ≤ (s.params.maxLen : Int) ∧
    v.status.fatal = false ∧ v.params.maxLen = (after .packPad s).params.maxLen ∧ v.pktLen = (after .packPad s).pktLen ∧
    (∀ k, k < (after .packPad s).pktLen.toNat → readCell v .pkt k = readCell (after .packPad s) .pkt k) ∧
    v.nameLen ≠ s.nameLen := by decide

/-- G2 beside the same file with other padding. -/
theorem witness_UnpackIgnoresThePadding :
    let s := packed [0x01, 0x78, 0x00, 0x00, 0x00, 0x01, 0xAA, 0x55, 0x55]
    let t := packed [0x01, 0x78, 0x00, 0x00, 0x00, 0x01, 0xAA, 0x12]
    s.status.fatal = false ∧ t.status.fatal = false ∧ exec .unpack s = .next (after .unpack s) ∧
    (after .unpack s).status.err = .ok ∧ t.pktLen.toNat ≤ t.params.maxLen ∧
    (after .unpack s).nameLen.toNat + 5 + (after .unpack s).contLen.toNat ≤ t.pktLen.toNat ∧
    ∀ k, k < (after .unpack s).nameLen.toNat + 5 + (after .unpack s).contLen.toNat →
      readCell t .pkt k = readCell s .pkt k :=
  ⟨by decide, by decide, exec_after _ _ (by decide), by decide, by decide, by decide, by decide⟩

/-- The last usable channel of the buffer, and the end of the buffer. -/
theorem witness_WriteChannelOutcome :
    1 ≤ 8 ∧ 8 ≤ 8 ∧ (0xFF : Byte).toNat < 2 ^ 8 ∧ ((image 8 zeros20).withCur 18).cur.toNat < (image 8 zeros20).chLen.toNat ∧
    ((image 8 zeros20).withCur 18).cur.toNat + 2 < 2 ^ 64 ∧ (image 8 zeros20).chLen.toNat ≤ ((image 8 zeros20).withCur 20).cur.toNat := by
  decide

theorem witness_WriteChannelCursorInvariants :
    (image 8 zeros20).chLen.toNat % 4 = 0 ∧ ((image 8 zeros20).withCur 18).cur.toNat % 4 ≠ 3 ∧
    (∃ t, writeChannel 0xFF 8 ((image 8 zeros20).withCur 18) = .done t) ∧
    (((image 8 zeros20).withCur 18).cur.toNat + 1) % 4 = 3 := ⟨by decide, by decide, ⟨_, rfl⟩, by decide⟩

/-- `CHLEN` 4 and `MAXLEN` are taken, 0, 6 and `MAXLEN + 4` are not; `BITS` 1 and 8 are taken, 0 and 9 are not. -/
theorem witness_WriteHeaderOutcome : (image 1 [0, 0, 0, 0]).status.fatal = false ∧
    (1 ≤ (image 1 [0, 0, 0, 0]).bits.toNat ∧ (image 8 [0, 0, 0, 0]).bits.toNat ≤ 8) ∧
    (¬ (1 ≤ (image 0 []).bits.toNat) ∧ ¬ ((image 9 []).bits.toNat ≤ 8)) ∧
    ((image 1 [0, 0, 0, 0]).chLen.toNat % 4 = 0 ∧ 4 ≤ (image 1 [0, 0, 0, 0]).chLen.toNat) ∧
    ((image 1 []).withChLen 64).chLen.toNat ≤ (image 1 []).params.maxLen ∧ ¬ (4 ≤ (image 1 []).chLen.toNat) ∧
    ¬ (((image 1 []).withChLen 6).chLen.toNat % 4 = 0) ∧
    ¬ (((image 1 []).withChLen 68).chLen.toNat ≤ (image 1 []).params.maxLen) := by decide

theorem witness_WritePayloadNeedsAPendingHeader : (image 1 zeros20).status.fatal = false ∧
    (image 1 zeros20).status.phase = .idle ∧ Instr.capacity ∈ [Instr.validateBits, .capacity, .pack, .packPad, .unpack, .readHeader] ∧
    exec .capacity (image 1 zeros20) = .next (after .capacity (image 1 zeros20)) :=
  ⟨by decide, by decide, by decide, exec_after _ _ (by decide)⟩

/-- The host changed `CHLEN`, or set `PAYLEN` above `MAXLEN`, after WRITE_HEADER. -/
theorem witness_WritePayloadLengthErrors : (pending 3 zeros20 [] []).status.fatal = false ∧
    (pending 3 zeros20 [] []).status.phase = .hdr ∧ ¬ (((pending 3 zeros20 [] []).withChLen 18).chLen.toNat % 4 = 0) ∧
    ¬ (4 ≤ ((pending 3 zeros20 [] []).withChLen 0).chLen.toNat) ∧
    (pending 3 zeros20 [] []).params.maxLen < ((pending 3 zeros20 [] []).withPayLen 65).payLen.toNat := by decide

/-- Depth 3, a payload as long as the capacity; depth 8, no payload. -/
theorem witness_WritePayloadClosedForm : ReadyToWrite (pending 3 zeros20 [1, 2, 3, 4] []) ∧
    8 * (pending 3 zeros20 [1, 2, 3, 4] []).payLen.toNat ≤
      3 * ((pending 3 zeros20 [1, 2, 3, 4] []).chLen.toNat / 4 - 1) * (pending 3 zeros20 [1, 2, 3, 4] []).bt.toNat ∧
    ReadyToWrite (pending 8 [0, 0, 0, 0] [] []) := by unfold ReadyToWrite; decide

theorem witness_WritePayloadDrawCount : ReadyToWrite (pending 3 zeros20 [1, 2, 3, 4] []) ∧
    exec .writePayload (pending 3 zeros20 [1, 2, 3, 4] []) = .next (after .writePayload (pending 3 zeros20 [1, 2, 3, 4] [])) ∧
    (after .writePayload (pending 3 zeros20 [1, 2, 3, 4] [])).status.err = .ok ∧
    12 = 3 * ((pending 3 zeros20 [1, 2, 3, 4] []).chLen.toNat / 4 - 1) ∧
    32 = 8 * (pending 3 zeros20 [1, 2, 3, 4] []).payLen.toNat ∧ 3 = (pending 3 zeros20 [1, 2, 3, 4] []).bt.toNat ∧
    2 = (if 32 % 3 ≠ 0 then 1 else 0) + 12 - (32 + 3 - 1) / 3 ∧
    ((pending 3 zeros20 [1, 2, 3, 4] []).payLen.toNat : Int) = capacityBytes (pending 3 zeros20 [1, 2, 3, 4] []).chLen.toNat 3 :=
  ⟨by unfold ReadyToWrite; decide, exec_after _ _ (by decide), by decide, by decide, by decide, by decide, by decide, by decide⟩

/-- One byte more than the capacity, and exactly the capacity. -/
theorem witness_WritePayloadOverflowIsFatal : ReadyToWrite (pending 3 zeros20 [1, 2, 3, 4, 5] []) ∧
    capacityBytes (pending 3 zeros20 [1, 2, 3, 4, 5] []).chLen.toNat (pending 3 zeros20 [1, 2, 3, 4, 5] []).bt.toNat <
      ((pending 3 zeros20 [1, 2, 3, 4, 5] []).payLen.toNat : Int) ∧
    ¬ (capacityBytes (pending 3 zeros20 [1, 2, 3, 4] []).chLen.toNat (pending 3 zeros20 [1, 2, 3, 4] []).bt.toNat <
      ((pending 3 zeros20 [1, 2, 3, 4] []).payLen.toNat : Int)) := by unfold ReadyToWrite; decide

/-- The states of vector W2, from before WRITE_HEADER to after WRITE_PAYLOAD. -/
def s2 : State := carrying 3 (List.replicate 20 0) [0xDE, 0xAD, 0xBE, 0xEF]
def t2 : State := after .writeHeader s2
def u2 : State := after .writePayload t2

/-- The image of a state in a machine that has forgotten everything else: `BITS` 1, no payload. -/
def imageOnly (u : State) : State :=
  { State.reset with chLen := u.chLen, chan := u.chan, params := u.params, payLen := 4 }

theorem sameImage_imageOnly (u : State) (h : u.env.resets = 0) : SameImage u (imageOnly u) :=
  ⟨rfl, rfl, fun k _ => by unfold readCell; rw [h]; rfl⟩

theorem witness_WholeWriteChangesLowBitsAndAlpha : s2.status.fatal = false ∧ exec .writeHeader s2 = .next t2 ∧
    t2.status.err = .ok ∧ exec .writePayload t2 = .next u2 ∧ u2.status.err = .ok :=
  ⟨by decide, exec_after _ _ (by decide), by decide, exec_after _ _ (by decide), by decide⟩

theorem witness_ReadHeaderOutcome : (image 1 [0, 0, 0, 0]).status.fatal = false ∧
    ((image 1 [0, 0, 0, 0]).chLen.toNat % 4 = 0 ∧ 4 ≤ (image 1 [0, 0, 0, 0]).chLen.toNat) ∧
    ((image 1 []).withChLen 64).chLen.toNat ≤ (image 1 []).params.maxLen ∧ ¬ (4 ≤ (image 1 []).chLen.toNat) ∧
    ¬ (((image 1 []).withChLen 6).chLen.toNat % 4 = 0) ∧
    ¬ (((image 1 []).withChLen 68).chLen.toNat ≤ (image 1 []).params.maxLen) := by decide

/-- H9's two buffers; and a whole write of W2. -/
theorem witness_HeaderIndependence :
    let s := image 1 [0xFE, 0xFF, 0xFE, 0x00, 1, 2, 3, 4]
    let t := image 1 [0x00, 0x03, 0x04, 0xFF, 0x12, 0x34, 0x56, 0x78]
    s.status.fatal = false ∧ t.status.fatal = false ∧ s.chLen = t.chLen ∧ s.params.maxLen = t.params.maxLen ∧
    (∀ k, k < 3 → (readCell s .chan k).getLsbD 0 = (readCell t .chan k).getLsbD 0) ∧
    exec .readHeader s = .next (after .readHeader s) ∧ exec .readHeader t = .next (after .readHeader t) ∧
    (after .readHeader s).status.err = .ok ∧ exec .writeHeader s2 = .next t2 ∧ t2.status.err = .ok ∧
    exec .writePayload t2 = .next u2 ∧ SameImage u2 (imageOnly u2) ∧ (imageOnly u2).status.fatal = false ∧
    (imageOnly u2).bits ≠ s2.bits :=
  ⟨by decide, by decide, by decide, by decide, by decide, exec_after _ _ (by decide), exec_after _ _ (by decide), by decide,
    exec_after _ _ (by decide), by decide, exec_after _ _ (by decide), sameImage_imageOnly _ (by decide), by decide, by decide⟩

/-- `PAYLEN` equal to the capacity and one above it; `BITS` 0, 1, 8, 9 and `CHLEN` as for WRITE_HEADER. -/
theorem witness_ReadPayloadOutcome : (carrying 3 w2 [0, 0, 0, 0]).status.fatal = false ∧
    1 ≤ (carrying 1 w2 []).bits.toNat ∧ (carrying 8 w2 []).bits.toNat ≤ 8 ∧ ¬ (1 ≤ (carrying 0 w2 []).bits.toNat) ∧
    ¬ ((carrying 9 w2 []).bits.toNat ≤ 8) ∧ (carrying 3 w2 []).chLen.toNat % 4 = 0 ∧ 4 ≤ (carrying 3 w2 []).chLen.toNat ∧
    (carrying 3 w2 []).chLen.toNat ≤ (carrying 3 w2 []).params.maxLen ∧
    ¬ (((carrying 3 w2 []).withChLen 6).chLen.toNat % 4 = 0) ∧
    ((carrying 3 w2 [0, 0, 0, 0]).payLen.toNat : Int) ≤ capacityBytes (carrying 3 w2 []).chLen.toNat (carrying 3 w2 []).bits.toNat ∧
    capacityBytes (carrying 3 w2 []).chLen.toNat (carrying 3 w2 []).bits.toNat < ((carrying 3 w2 [0, 0, 0, 0, 0]).payLen.toNat : Int) := by
  decide

/-- W2's channels, and the same with other upper bits and alphas. -/
theorem witness_ReadPayloadSeesOnlyLowBits :
    let s := carrying 3 w2 [0, 0]
    let t := carrying 3 (w2.map (fun v => v + 0x50 * 2)) [0, 0]
    s.status.fatal = false ∧ t.status.fatal = false ∧ s.chLen = t.chLen ∧ s.bits = t.bits ∧ s.payLen = t.payLen ∧
    s.params.maxLen = t.params.maxLen ∧ readCell s .chan 4 ≠ readCell t .chan 4 ∧
    (∀ k, k < s.chLen.toNat → 4 ≤ k → k % 4 ≠ 3 → ∀ q, q < s.bits.toNat →
      (readCell s .chan k).getLsbD q = (readCell t .chan k).getLsbD q) ∧
    exec .readPayload s = .next (after .readPayload s) ∧ exec .readPayload t = .next (after .readPayload t) ∧
    (after .readPayload s).status.err = .ok :=
  ⟨by decide, by decide, by decide, by decide, by decide, by decide, by decide, by decide, exec_after _ _ (by decide),
    exec_after _ _ (by decide), by decide⟩

/-- W2's channels with bit 2 of usable channel 0 (index 4) flipped: 06 becomes 02. -/
theorem witness_OneChannelBitIsOnePayloadBit :
    let s := carrying 3 w2 [0, 0]
    let t := carrying 3 (w2.set 4 0x02) [0, 0]
    s.status.fatal = false ∧ t.status.fatal = false ∧ s.chLen = t.chLen ∧ s.bits = t.bits ∧ s.payLen = t.payLen ∧
    s.params.maxLen = t.params.maxLen ∧ 2 < s.bits.toNat ∧ 0 < 3 * (s.chLen.toNat / 4 - 1) ∧
    (∀ i, i < 3 * (s.chLen.toNat / 4 - 1) → ∀ p, p < s.bits.toNat →
      (readCell t .chan (4 + 4 * (i / 3) + i % 3)).getLsbD p =
        ((readCell s .chan (4 + 4 * (i / 3) + i % 3)).getLsbD p ^^ (decide (i = 0) && decide (p = 2)))) ∧
    exec .readPayload s = .next (after .readPayload s) ∧ exec .readPayload t = .next (after .readPayload t) ∧
    (after .readPayload s).status.err = .ok :=
  ⟨by decide, by decide, by decide, by decide, by decide, by decide, by decide, by decide, by decide,
    exec_after _ _ (by decide), exec_after _ _ (by decide), by decide⟩

theorem witness_CursorRoundTrip : s2.status.fatal = false ∧ exec .writeHeader s2 = .next t2 ∧ t2.status.err = .ok ∧
    exec .writePayload t2 = .next u2 ∧ u2.status.err = .ok ∧ SameImage u2 (imageOnly u2) ∧
    (imageOnly u2).status.fatal = false ∧ (imageOnly u2).pay = [] ∧
    (((4 : Word).toNat : Nat) : Int) ≤ capacityBytes s2.chLen.toNat s2.bits.toNat :=
  ⟨by decide, exec_after _ _ (by decide), by decide, exec_after _ _ (by decide), by decide,
    sameImage_imageOnly _ (by decide), by decide, by decide, by decide⟩

theorem witness_MacroReadReturnsWhatMacroWriteHid : s2.params.wf = true ∧ s2.status.busy = false ∧ s2.status.fatal = false ∧
    1 ≤ (3 : Byte).toNat ∧ (3 : Byte).toNat ≤ 8 ∧
    (s2.chLen.toNat % 4 = 0 ∧ 4 ≤ s2.chLen.toNat ∧ s2.chLen.toNat ≤ s2.params.maxLen) ∧
    (s2.payLen.toNat : Int) ≤ capacityBytes s2.chLen.toNat (3 : Byte).toNat ∧
    play (macroWrite 3) s2 = .next (played (macroWrite 3) s2) ∧
    SameImage (played (macroWrite 3) s2) (imageOnly (played (macroWrite 3) s2)) ∧
    (imageOnly (played (macroWrite 3) s2)).status.busy = false ∧
    (imageOnly (played (macroWrite 3) s2)).status.fatal = false ∧
    ¬ ((s2.withChLen 6).chLen.toNat % 4 = 0) :=
  ⟨by decide, by decide, by decide, by decide, by decide, by decide, by decide, play_played _ _ (by decide),
    sameImage_imageOnly _ (by decide), by decide, by decide, by decide⟩

/-! ### The host procedures -/

/-- A provider that keeps the contract: 28 zero bytes in front, checked and taken off again. -/
def toy : Aead where
  encrypt _ plain := List.replicate 28 0 ++ plain
  decrypt _ blob := if blob.take 28 = List.replicate 28 0 then some (blob.drop 28) else none

theorem toy_lawful : toy.Lawful := by
  intro key plain _
  constructor
  · simp [toy]
  · simp [toy]

def toyKey : List Byte := List.replicate 32 0

/-- The smallest image for depth 8 (CAP11) and the smallest file (F1). -/
def pixels52 : List Byte := List.replicate 52 0

theorem witness_HideInputs : HideInputs toyKey pixels52 [0x78] [] 8 (image 1 []) := by unfold HideInputs; decide

theorem witness_HideRejectsTooLargeFiles : HideInputs toyKey pixels52 [0x78] [] 7 (image 1 []) ∧
    capacityBytes pixels52.length (7 : Byte).toNat - 28 < 5 + (([0x78] : List Byte).length : Int) + ([] : List Byte).length := by
  unfold HideInputs; decide

theorem witness_HideNeedsTheSmallestImage : HideInputs toyKey (List.replicate 48 0) [0x78] [] 8 (image 1 []) ∧
    (List.replicate 48 (0 : Byte)).length < smallestBuffer (8 : Byte).toNat ∧ (52 : Nat) % 4 = 0 ∧ 1 ≤ 8 ∧ 8 ≤ 8 := by
  unfold HideInputs; decide

/-- A provider that adds nothing (clause 1), and the lawful one (clause 2). -/
theorem witness_HideDetectsFaultyCollaborators : HideInputs toyKey pixels52 [0x78] [] 8 (image 1 []) ∧
    36 = capacityBytes pixels52.length (8 : Byte).toNat ∧
    5 + (([0x78] : List Byte).length : Int) + ([] : List Byte).length ≤ 36 - 28 ∧
    packedFile [0x78] [] (36 - 28 : Int).toNat = [0x01, 0x78, 0, 0, 0, 0, 0, 0] ∧
    ((({ encrypt := fun _ p => p, decrypt := fun _ p => some p } : Aead).encrypt toyKey
      [0x01, 0x78, 0, 0, 0, 0, 0, 0]).length : Int) ≠ 36 ∧
    ((toy.encrypt toyKey [0x01, 0x78, 0, 0, 0, 0, 0, 0]).length : Int) = 36 :=
  ⟨witness_HideInputs, by decide, by decide, by decide, by decide, by decide⟩

/-- A blank image: depth 1, a blob of four zero bytes, which the lawful provider rejects. -/
theorem witness_RevealRejectsWhatTheAeadRejects : (image 1 []).params.wf = true ∧ (image 1 []).status.busy = false ∧
    (image 1 []).status.fatal = false ∧ pixels52.length % 4 = 0 ∧ 4 ≤ pixels52.length ∧
    pixels52.length ≤ (image 1 []).params.maxLen ∧
    ((List.replicate 4 (0 : Byte)).length : Int) = capacityBytes pixels52.length (pixelDepth pixels52) ∧
    (∀ k, k < (List.replicate 4 (0 : Byte)).length → ∀ q, q < 8 → ((List.replicate 4 (0 : Byte)).getD k 0).getLsbD q =
      pixelBit pixels52 (pixelDepth pixels52) (8 * k + (7 - q))) ∧
    toy.Lawful ∧ toy.decrypt toyKey (List.replicate 4 0) = none :=
  ⟨by decide, by decide, by decide, by decide, by decide, by decide, by decide, by decide, toy_lawful, by decide⟩

theorem witness_HideSucceedsWhenTheFileFits : toy.Lawful ∧ (∀ buffer : List Byte, id buffer = buffer) ∧
    HideInputs toyKey pixels52 [0x78] [] 8 (image 1 []) ∧
    5 + (([0x78] : List Byte).length : Int) + ([] : List Byte).length ≤ capacityBytes pixels52.length (8 : Byte).toNat - 28 :=
  ⟨toy_lawful, fun _ => rfl, witness_HideInputs, by decide⟩

/-- The default depth is 1, for which 52 channels are too few (CAP11 and R190: 368). -/
theorem test_hideByDefault :
    (match (hideByDefault toy id toyKey pixels52 [0x78] [] [] (image 1 [])).result with | .ok _ => none | .error e => some e) =
      some .fileTooLarge ∧ (hideByDefault toy id toyKey pixels52 [0x78] [] [] (image 8 [])).state.bits = 1 := by
  decide +kernel

/-- What `hide` answers on the smallest image. -/
def hidden : HostRun (List Byte) := hide toy id toyKey pixels52 [0x78] [] 8 [] (image 1 [])

theorem hidden_ok : (match hidden.result with | .ok e => e.length | .error _ => 0) = 52 := by decide +kernel

theorem witness_RevealReturnsTheHiddenFile : ∃ encoded t, toy.Lawful ∧ HideInputs toyKey pixels52 [0x78] [] 8 (image 1 []) ∧
    hide toy id toyKey pixels52 [0x78] [] 8 [] (image 1 []) = { state := t, result := .ok encoded } ∧
    (image 5 zeros20).params = (image 1 []).params ∧ (image 5 zeros20).status.busy = false ∧
    (image 5 zeros20).status.fatal = false := by
  have h := hidden_ok
  unfold hidden at h
  generalize hx : hide toy id toyKey pixels52 [0x78] [] 8 [] (image 1 []) = r at h ⊢
  obtain ⟨t, result⟩ := r
  cases result with
  | error e => simp at h
  | ok encoded => exact ⟨encoded, t, toy_lawful, witness_HideInputs, rfl, by decide, by decide, by decide⟩

end Sys2Proof.Tests
end

/-! PROOFS. The statements of 10_state.md: what reset leaves, `STATUS` as the host reads it, the register window, what one
step can do, the invariant, and the frame of every command. -/

namespace Sys2Proof.Machine

/-! ### Reset and `STATUS` as the host reads them -/

/-- Settles O3: every register of the reset state is a literal, and no space lists a cell. -/
theorem resetLeavesTheSpecifiedState : Obligations.ResetLeavesTheSpecifiedState := by
  have hcells : ∀ sp i, Memory.read (State.reset.mem sp) i = none ∧
      readCell State.reset sp i = Config.unwrittenByte 0 sp i := by
    intro sp i
    cases sp <;> exact ⟨rfl, rfl⟩
  exact ⟨rfl, rfl, rfl, rfl, rfl, rfl, rfl, rfl, rfl, rfl, rfl, rfl, rfl, rfl, rfl, hcells⟩

/-- `STATUS` as a number: the error code above four zero bits and the four flags (10_state.md R23). -/
theorem Status.word_toNat (st : Status) :
    ∃ flags, flags < 16 ∧ st.word.toNat = 256 * st.err.code.toNat + flags := by
  have append : ∀ {n m : Nat} (x : BitVec n) (y : BitVec m), (x ++ y).toNat = x.toNat * 2 ^ m + y.toNat := by
    intro n m x y
    rw [BitVec.toNat_append, ← Nat.shiftLeft_add_eq_or_of_lt y.isLt, Nat.shiftLeft_eq]
  have hphase := st.phase.bit.toNat_le
  have hfatal := st.fatal.toNat_le
  have hdone := st.done.toNat_le
  have hbusy := st.busy.toNat_le
  refine ⟨8 * st.phase.bit.toNat + 4 * st.fatal.toNat + 2 * st.done.toNat + st.busy.toNat, by omega, ?_⟩
  simp only [Status.word, append, BitVec.toNat_ofBool, BitVec.ofNat_eq_ofNat, BitVec.toNat_zero]
  omega

theorem Phase.bit_eq (p : Phase) : p.bit = decide (p = .hdr) := by cases p <;> rfl

/-- Settles O7: bit by bit for the flags, and as a number for the fields above them. -/
theorem statusWordLayout : Obligations.StatusWordLayout := by
  refine ⟨fun st => ?_, rfl, rfl, rfl, rfl, rfl, rfl, rfl, rfl⟩
  obtain ⟨flags, hlt, hword⟩ := st.word_toNat
  refine ⟨?_, ?_, ?_, ?_, by omega, by omega⟩
  all_goals
    simp only [Status.word, BitVec.getLsbD_append, ← Phase.bit_eq]
    simp

/-! ### The register window -/

theorem Reg.atOffset_offset (r : Reg) : Reg.atOffset r.offset = some r := by cases r <;> rfl

theorem Reg.windowOffsetWf_offset (r : Reg) : windowOffsetWf r.offset = true := by cases r <;> rfl

theorem Reg.offset_lt (r : Reg) : r.offset < 0x60 := by cases r <;> decide

/-- From 0x60 on the window is reserved (10_state.md R21). -/
theorem Reg.atOffset_reserved {off : Nat} (h : 0x60 ≤ off) : Reg.atOffset off = none := by
  refine List.find?_eq_none.2 fun r _ hr => ?_
  have := r.offset_lt
  rw [eq_of_beq hr] at this
  omega

theorem hostRead_offset (s : State) (r : Reg) : hostRead s r.offset = readReg s r := by
  simp [hostRead, r.atOffset_offset]

theorem hostWrite_offset (r : Reg) (v : Word) (s : State) : hostWrite r.offset v s = writeReg s v r := by
  simp [hostWrite, r.windowOffsetWf_offset, r.atOffset_offset]

theorem hostRead_reserved (s : State) {off : Nat} (h : 0x60 ≤ off) : hostRead s off = 0 := by
  simp [hostRead, Reg.atOffset_reserved h]

theorem hostWrite_reserved (v : Word) (s : State) {off : Nat} (h : 0x60 ≤ off) : hostWrite off v s = .next s := by
  have hwf : windowOffsetWf off = true := by simp [windowOffsetWf, h]
  simp [hostWrite, hwf, Reg.atOffset_reserved h]

/-- The state after a host write of a register that starts no command: `v` cut to the width of a writable register, and
nothing for a read-only one (10_state.md R21). -/
def storeReg (s : State) (v : Word) : Reg → State
  | .bits    => s.withBits (v.setWidth 8)
  | .chLen   => s.withChLen v
  | .payLen  => s.withPayLen v
  | .nameLen => s.withNameLen v
  | .contLen => s.withContLen (v.setWidth 32)
  | .reqLen  => s.withReqLen v
  | .pktLen  => s.withPktLen v
  | .cmd | .status | .capBits | .capBytes | .cur => s

theorem writeReg_eq_storeReg (s : State) (v : Word) {r : Reg} (h : r ≠ .cmd) :
    writeReg s v r = .next (storeReg s v r) := by
  cases r with
  | cmd => exact absurd rfl h
  | _ => rfl

theorem readReg_storeReg_same (s : State) (v : Word) {r : Reg} {w : Nat} (h : r.writableWidth = some w) :
    (readReg (storeReg s v r) r).toNat = v.toNat % 2 ^ w := by
  cases r <;> cases h <;> simp [storeReg, readReg] <;> omega

theorem readReg_storeReg_other (s : State) (v : Word) {r r' : Reg} (h : r' ≠ r) :
    readReg (storeReg s v r) r' = readReg s r' := by
  revert h
  cases r <;> cases r' <;> simp [storeReg, readReg]

/-- A host write of an operand register reaches no cell, no internal register, no parameter and nothing of the host's. -/
theorem storeReg_keeps (s : State) (v : Word) (r : Reg) :
    (storeReg s v r).mem = s.mem ∧ (storeReg s v r).bt = s.bt ∧ (storeReg s v r).acc = s.acc ∧
      (storeReg s v r).accBits = s.accBits ∧ (storeReg s v r).params = s.params ∧ (storeReg s v r).env = s.env ∧
      (storeReg s v r).status = s.status := by
  cases r <;> simp [storeReg]

/-- Settles O8: a slot is reached at its register's offset, where a read is `readReg` and a write `storeReg`. -/
theorem registerWindow : Obligations.RegisterWindow := by
  refine ⟨rfl, fun s v => ⟨fun r w hw => ?_, fun r hr => ?_, rfl, ?_, ?_, rfl, rfl, rfl, ?_, rfl, rfl, rfl, rfl, rfl,
    fun off hoff => ⟨hostRead_reserved s hoff, hostWrite_reserved v s hoff⟩⟩⟩
  · have hcmd : r ≠ .cmd := by rintro rfl; cases hw
    refine ⟨storeReg s v r, by rw [hostWrite_offset, writeReg_eq_storeReg s v hcmd], ?_, fun r' hr' => ?_,
      storeReg_keeps s v r⟩
    · rw [hostRead_offset, readReg_storeReg_same s v hw]
    · rw [hostRead_offset, hostRead_offset, readReg_storeReg_other s v hr']
  · rw [hostWrite_offset]
    fin_cases hr <;> rfl
  · exact BitVec.toNat_setWidth_of_le (by decide)
  · exact BitVec.toNat_setWidth_of_le (by decide)
  · exact BitVec.toNat_setWidth_of_le (by decide)

/-! ### What a step can do -/

/-- The two states agree on everything the invariant speaks of, but for the memories. -/
structure SameControl (s t : State) : Prop where
  status   : t.status = s.status
  cur      : t.cur = s.cur
  bt       : t.bt = s.bt
  acc      : t.acc = s.acc
  accBits  : t.accBits = s.accBits
  capBits  : t.capBits = s.capBits
  capBytes : t.capBytes = s.capBytes
  params   : t.params = s.params

theorem SameControl.withMem {s t : State} (h : SameControl s t) (sp : Space) (m : Memory) :
    SameControl s (t.withMem sp m) := by
  cases sp <;> exact ⟨h.status, h.cur, h.bt, h.acc, h.accBits, h.capBits, h.capBytes, h.params⟩

theorem SameControl.writeBytes {s t : State} (h : SameControl s t) (sp : Space) (start : Nat) (bytes : List Byte) :
    SameControl s (writeBytes t sp start bytes) := by
  rw [writeBytes_eq]
  exact h.withMem sp _

/-- A move of the host that neither runs a command nor resets the block. -/
structure QuietMove (s t : State) : Prop where
  control : SameControl s t
  memory  : MemoryOk s.params.maxLen s → MemoryOk s.params.maxLen t

theorem QuietMove.of_mem_eq {s t : State} (h : SameControl s t) (hm : t.mem = s.mem) : QuietMove s t :=
  ⟨h, fun hs => hs.congr fun sp => congrFun hm sp⟩

theorem QuietMove.refl (s : State) : QuietMove s s := .of_mem_eq ⟨rfl, rfl, rfl, rfl, rfl, rfl, rfl, rfl⟩ rfl

theorem QuietMove.withScript (s : State) (rest : List HostAction) : QuietMove s (s.withScript rest) :=
  .of_mem_eq ⟨rfl, rfl, rfl, rfl, rfl, rfl, rfl, rfl⟩ (State.mem_withScript s rest)

theorem QuietMove.withDraws (s : State) (answers : List Byte) : QuietMove s (s.withDraws answers) :=
  .of_mem_eq ⟨rfl, rfl, rfl, rfl, rfl, rfl, rfl, rfl⟩ (State.mem_withDraws s answers)

theorem whenIdle_next {s t : State} {r : Host.Outcome State Fault Refusal} (h : whenIdle s r = .next t) :
    r = .next t := by
  unfold whenIdle at h
  split at h
  · cases h
  · exact h

/-- What a host store can do (20_memory.md R50). -/
theorem hostStore_next {sp : Space} {start : Nat} {bytes : List Byte} {s t : State}
    (h : hostStore sp start bytes s = .next t) :
    t = writeBytes s sp start bytes ∧ (bytes = [] ∨ start + bytes.length ≤ s.params.maxLen) := by
  unfold hostStore at h
  split at h
  · rename_i hfit
    cases h
    exact ⟨rfl, by simpa using hfit⟩
  · cases h

theorem hostStore_quiet {sp : Space} {start : Nat} {bytes : List Byte} {s t : State}
    (h : hostStore sp start bytes s = .next t) : QuietMove s t := by
  obtain ⟨rfl, hfit⟩ := hostStore_next h
  exact ⟨(QuietMove.refl s).control.writeBytes sp start bytes, fun hm => hm.writeBytes sp bytes hfit⟩

/-- A write of `CMD`, from the start of the command to its end; the prepared draw answers may be gone (log entry 3). -/
def CommandMove (s t : State) : Prop :=
  ∃ (w : Byte) (u : State) (answers : List Byte), startCommand w s = .next u ∧ t = u.withDraws answers

theorem hostWrite_quiet_or_command {off : Nat} {v : Word} {s t : State} (h : hostWrite off v s = .next t) :
    QuietMove s t ∨ CommandMove s t := by
  rcases hostWrite_cases h with
    ⟨-, u, answers, hu, ht⟩ | ⟨hst, hcur, hbt, hacc, hn, hcb, hcB, hm, hp, -⟩
  · exact .inr ⟨_, u, answers, hu, ht⟩
  · exact .inl (.of_mem_eq ⟨hst, hcur, hbt, hacc, hn, hcb, hcB, hp⟩ hm)

theorem hostCopy_next {dst src : Nat} {s t : State} (h : hostCopy dst src s = .next t) :
    hostWrite dst (hostRead s src) s = .next t := by
  unfold hostCopy at h
  split at h
  · cases h
  · exact h

/-- Everything a move of the host can do. -/
theorem perform_cases {a : HostAction} {s t : State} (h : perform a s = .next t) :
    QuietMove s t ∨ CommandMove s t ∨ t = applyReset s := by
  cases a with
  | write off v => exact (hostWrite_quiet_or_command (whenIdle_next h)).imp_right .inl
  | copy dst src => exact (hostWrite_quiet_or_command (hostCopy_next (whenIdle_next h))).imp_right .inl
  | store sp start bytes => exact .inl (hostStore_quiet (whenIdle_next h))
  | draws answers =>
    cases h
    exact .inl (.withDraws s answers)
  | stopUnlessOk =>
    cases h
    left
    split
    · exact .refl s
    · exact .withScript s []
  | reset => cases h; exact .inr (.inr rfl)

/-- Everything a step can do: nothing, or the next move of the host, taken off the script. -/
theorem step_cases {s t : State} (h : step s = .next t) :
    t = s ∨ ∃ rest, QuietMove (s.withScript rest) t ∨ CommandMove (s.withScript rest) t ∨
      t = applyReset (s.withScript rest) := by
  unfold step at h
  split at h
  · cases h; exact .inl rfl
  · rename_i a rest _
    exact .inr ⟨rest, perform_cases h⟩

/-! ### The parameters -/

theorem startCommand_params {w : Byte} {s t : State} (h : startCommand w s = .next t) : t.params = s.params := by
  rcases startCommand_cases h with ⟨-, rfl⟩ | ⟨-, rfl⟩ | ⟨hf, i, -, hx⟩
  · rfl
  · rfl
  · exact (exec_keeps hf hx).1

/-- Settles O13: of all a step can do, neither a quiet move, nor a command, nor reset writes a parameter. -/
theorem stepsKeepTheParameters : Obligations.StepsKeepTheParameters := by
  intro s t h
  rcases step_cases h with rfl | ⟨rest, hq | ⟨w, u, answers, hu, rfl⟩ | rfl⟩
  · rfl
  · exact hq.control.params
  · exact (startCommand_params hu :)
  · rfl

/-! ### The invariant at reset -/

/-- The state after reset meets the invariant with any legal parameters and whatever stands outside the block
(10_state.md R35). -/
theorem inv_reset {p : Params} (hp : p.wf = true) (e : Env) : Inv { State.reset with params := p, env := e } where
  params := hp
  idle := rfl
  latched h := nomatch h
  unlatched _ := rfl
  fatal := by simp [State.reset, Status.reset]
  fatalIdle _ := rfl
  fresh _ := ⟨rfl, rfl⟩
  cursor := ⟨rfl, Nat.zero_le _⟩
  accumulator := by simp [State.reset]
  capacity := by simp [State.reset]
  memory sp := by cases sp <;> exact ⟨List.Pairwise.nil, fun c hc => nomatch hc⟩

/-- Settles O15: the defaults of the parameters are legal. -/
theorem invariantHoldsAtReset : Obligations.InvariantHoldsAtReset :=
  inv_reset (p := Params.default) (by decide) State.reset.env

/-! ### The invariant at the end of a command -/

theorem Inv.memoryOk {s : State} (h : Inv s) : MemoryOk s.params.maxLen s := h.memory

theorem Inv.congr {s t : State} (h : Inv s) (hc : SameControl s t) (hm : MemoryOk s.params.maxLen t) : Inv t := by
  obtain ⟨hst, hcur, hbt, hacc, hn, hcb, hcB, hp⟩ := hc
  obtain ⟨⟩ := s
  obtain ⟨⟩ := t
  cases hst; cases hcur; cases hbt; cases hacc; cases hn; cases hcb; cases hcB; cases hp
  exact { h with memory := hm }

theorem Inv.quietMove {s t : State} (h : Inv s) (hq : QuietMove s t) : Inv t :=
  h.congr hq.control (hq.memory h.memoryOk)

theorem Inv.maxLen_le {s : State} (h : Inv s) : s.params.maxLen ≤ 2 ^ 56 := by
  have hp := h.params
  simp only [Params.wf, Bool.and_eq_true, decide_eq_true_eq] at hp
  exact hp.2

/-- A command that ends without the fatal error and writes nothing but `STATUS` keeps the invariant. -/
theorem Inv.ended {s : State} {e : ErrCode} (h : Inv s) (hf : s.status.fatal = false) (he : e ≠ .cursorMismatch) :
    Inv (s.ended e) :=
  { h with
    idle := rfl
    fatal := ⟨fun hx => absurd (hf.symm.trans hx) (by decide), fun hx => absurd hx he⟩
    fresh := fun hd => nomatch hd
    memory := h.memoryOk.congr (mem_ended s e) }

/-- A command that ends a write sequence at the end of the buffer: `PHASE` and `BT` are 0, `CUR` is `CHLEN`
(42_cursor_write.md R142, 43_cursor_read.md R164, 60_exceptions.md R207). -/
theorem Inv.closeSequence {s u : State} {f : Bool} {e : ErrCode} (h : Inv s) (hb : CursorBuffer s)
    (hp : u.params = s.params) (hcb : u.capBits = s.capBits) (hcB : u.capBytes = s.capBytes) (hcur : u.cur = s.chLen)
    (hacc : u.accBits.toNat ≤ 8 ∧ u.acc.toNat < 2 ^ u.accBits.toNat) (hm : MemoryOk s.params.maxLen u)
    (hfe : f = true ↔ e = .cursorMismatch) :
    Inv ((u.withBt 0).withStatus { busy := false, done := true, fatal := f, phase := .idle, err := e }) where
  params := (congrArg Params.wf hp).trans h.params
  idle := rfl
  latched hx := nomatch hx
  unlatched _ := rfl
  fatal := hfe
  fatalIdle _ := rfl
  fresh hx := nomatch hx
  cursor := by
    obtain ⟨hmod, -, hle⟩ := hb
    simpa [hcur, hp] using ⟨hmod, hle⟩
  accumulator := hacc
  capacity := by simpa [hcb, hcB] using h.capacity
  memory := by
    have hm' : MemoryOk u.params.maxLen u := hp ▸ hm
    exact hm'.congr fun sp => by simp

/-! ### The invariant, command by command -/

theorem CursorOnly.capBits {s t : State} (h : CursorOnly s t) : t.capBits = s.capBits := by
  simpa using congrArg State.capBits h.eq
theorem CursorOnly.capBytes {s t : State} (h : CursorOnly s t) : t.capBytes = s.capBytes := by
  simpa using congrArg State.capBytes h.eq
theorem ReadOnly.capBits {s t : State} (h : ReadOnly s t) : t.capBits = s.capBits := by
  simpa using congrArg State.capBits h.eq
theorem ReadOnly.capBytes {s t : State} (h : ReadOnly s t) : t.capBytes = s.capBytes := by
  simpa using congrArg State.capBytes h.eq

/-- The read loop keeps the accumulator's bits below `ACCBITS` (10_state.md R29). -/
theorem Collected.accumulator {s t : State} {b c : Nat} (h : Collected s b c t) :
    t.accBits.toNat ≤ 8 ∧ t.acc.toNat < 2 ^ t.accBits.toNat := by
  have hn := h.accBits
  refine ⟨by omega, lt_two_pow_of_getLsbD fun u hu hu16 => ?_⟩
  rw [h.acc u hu16, ← hn]
  simp [Nat.not_lt.2 hu]

theorem MemoryOk.forgetPayload {bound : Nat} {s : State} (h : MemoryOk bound s) (hl : 4 ≤ s.chLen.toNat)
    (hb : s.chLen.toNat ≤ bound) : MemoryOk bound (forgetPayload s) := by
  refine h.writeBytes .chan _ (.inr ?_)
  rw [List.length_map, List.length_range]
  omega

theorem MemoryOk.withStatus {bound : Nat} {s : State} (h : MemoryOk bound s) (v : Status) :
    MemoryOk bound (s.withStatus v) := h.congr fun sp => by simp
theorem MemoryOk.withPktLen {bound : Nat} {s : State} (h : MemoryOk bound s) (v : Word) :
    MemoryOk bound (s.withPktLen v) := h.congr fun sp => by simp
theorem MemoryOk.started {bound : Nat} {s : State} (h : MemoryOk bound s) : MemoryOk bound s.started :=
  h.congr (mem_started s)

/-- The capacity pair fits its registers and its second half is the floor of an eighth of the first (40_capacity.md R101,
R102). -/
theorem capacity_keeps_inv {s t : State} (h : Inv s) (hf : s.status.fatal = false) (hx : exec .capacity s = .next t) :
    Inv t := by
  rcases (capacity_cases hf).next hx with ⟨e, -, he, -, rfl⟩ | ⟨⟨hb, hb8⟩, ⟨-, hle⟩, rfl⟩
  · exact h.ended hf he
  · have hi := h.ended (e := .ok) hf (by decide)
    obtain ⟨hlo, hhi⟩ := capacityBits_range h.maxLen_le hle hb hb8
    have hbytes : capacityBytes s.chLen.toNat s.bits.toNat = capacityBits s.chLen.toNat s.bits.toNat / 8 := rfl
    exact { hi with
      capacity := by
        simp only [State.withCap_capBits, State.withCap_capBytes]
        rw [toInt_ofInt_word (by omega) (by omega), toInt_ofInt_word (by omega) (by omega)]
        exact ⟨hbytes, hlo, hhi⟩
      memory := hi.memoryOk.congr fun sp => by simp }

theorem pack_keeps_inv {s t : State} (h : Inv s) (hf : s.status.fatal = false) (hx : exec .pack s = .next t) :
    Inv t := by
  rcases (pack_cases hf).next hx with ⟨e, -, he, -, rfl⟩ | ⟨hp, he⟩
  · exact h.ended hf he
  · have hfit := (packCheck_none.1 hp).2.2
    refine (h.ended (e := .ok) hf (by decide)).congr ?_ ?_
    · rw [he, packBody_eq]
      exact ⟨rfl, rfl, rfl, rfl, rfl, rfl, rfl, rfl⟩
    · rw [he]
      exact ((h.memoryOk.started.packBody hfit).withPktLen _).withStatus _

theorem packPad_keeps_inv {s t : State} (h : Inv s) (hf : s.status.fatal = false) (hx : exec .packPad s = .next t) :
    Inv t := by
  rcases (packPad_cases hf).next hx with ⟨e, -, he, -, rfl⟩ | ⟨hp, hlo, hhi, he⟩
  · exact h.ended hf he
  · have hfit := (packCheck_none.1 hp).2.2
    refine (h.ended (e := .ok) hf (by decide)).congr ?_ ?_
    · rw [he, writeBytes_eq, packBody_eq]
      exact ⟨rfl, rfl, rfl, rfl, rfl, rfl, rfl, rfl⟩
    · rw [he]
      refine (((h.memoryOk.started.packBody hfit).writeBytes .pkt _ (.inr ?_)).withPktLen _).withStatus _
      rw [List.length_replicate]
      omega

theorem unpack_keeps_inv {s t : State} (h : Inv s) (hf : s.status.fatal = false) (hx : exec .unpack s = .next t) :
    Inv t := by
  rcases (unpack_cases hf rfl rfl).next hx with ⟨e, -, he, -, rfl⟩ | ⟨hle, -, hfit, he⟩
  · exact h.ended hf he
  · refine (h.ended (e := .ok) hf (by decide)).congr ?_ ?_
    · rw [he, unpackStore_eq]
      exact ⟨rfl, rfl, rfl, rfl, rfl, rfl, rfl, rfl⟩
    · rw [he]
      refine (h.memoryOk.started.unpackStore ?_).withStatus _
      omega

/-- The pending header is what 10_state.md R28 says: the depth just latched, the cursor at the first pixel. -/
theorem writeHeader_keeps_inv {s t : State} (h : Inv s) (hf : s.status.fatal = false)
    (hx : exec .writeHeader s = .next t) : Inv t := by
  rcases (writeHeader_cases hf).next hx with ⟨e, -, he, -, rfl⟩ | ⟨⟨hb, hb8⟩, ⟨-, hl4, hle⟩, he, hm, -⟩
  · exact h.ended hf he
  · have hmem := hm _ hle h.memoryOk
    have hi := h.ended (e := .ok) hf (by decide)
    have hbt : (BitVec.ofNat 4 s.bits.toNat).toNat = s.bits.toNat := by
      rw [BitVec.toNat_ofNat, Nat.mod_eq_of_lt (by omega)]
    rw [he] at hmem ⊢
    exact { hi with
      latched := fun _ => ⟨rfl, by rw [← hbt] at hb hb8; exact ⟨hb, hb8⟩⟩
      unlatched := fun hp => nomatch hp
      fatalIdle := fun hx => absurd (hf.symm.trans hx) (by decide)
      fresh := fun hd => nomatch hd
      cursor := by simpa using Nat.le_trans hl4 hle
      memory := hmem }

theorem writePayload_keeps_inv {s t : State} (h : Inv s) (hf : s.status.fatal = false)
    (hx : exec .writePayload s = .next t) : Inv t := by
  rcases (writePayload_cases hf h.latched).next hx with ⟨e, -, he, -, rfl⟩ | ⟨-, hl, -, u, hu, hw, hend⟩
  · exact h.ended hf he
  · have hcur : u.cur = s.chLen := BitVec.eq_of_toNat_eq (hw.cur.trans (usableIndex_usableCount hl.1 hl.2.1))
    have hlen : u.chLen = s.chLen := hu.only.chLen
    have hm : MemoryOk s.params.maxLen u := hu.memory _ hl.1 hl.2.2 h.memoryOk.started
    rcases hend with ⟨-, hacc, hn, -, rfl⟩ | ⟨-, hn, hacc, rfl⟩
    · have hclosed := h.closeSequence (f := s.status.fatal) (e := .ok) hl hu.only.params hu.only.capBits
        hu.only.capBytes hcur (by simp [hacc, hn]) hm (by simp [hf])
      exact hclosed
    · rw [raiseError_cursorMismatch, ← forgetPayload_eq]
      have hp : (forgetPayload u).params = s.params := by rw [forgetPayload_eq]; exact hu.only.params
      refine h.closeSequence hl hp ?_ ?_ ?_ ?_ (hm.forgetPayload ?_ ?_) (by simp)
      · rw [forgetPayload_eq]; exact hu.only.capBits
      · rw [forgetPayload_eq]; exact hu.only.capBytes
      · rw [forgetPayload_eq]; exact hcur
      · rw [forgetPayload_eq]; exact ⟨hn, hacc⟩
      · rw [hlen]; exact hl.2.1
      · rw [hlen]; exact hl.2.2

theorem readPayload_keeps_inv {s t : State} (h : Inv s) (hf : s.status.fatal = false)
    (hx : exec .readPayload s = .next t) : Inv t := by
  rcases (readPayload_cases hf).next hx with ⟨e, -, he, -, rfl⟩ | ⟨⟨-, hb8⟩, hl, hfit, u, hu, hm, rfl⟩
  · exact h.ended hf he
  · have hpay : s.payLen.toNat ≤ s.params.maxLen := by
      have := capacityBytes_le hl.2.1 hb8
      have := hl.2.2
      omega
    exact h.closeSequence (f := s.status.fatal) (e := .ok) hl hu.only.params hu.only.capBits hu.only.capBytes
      (BitVec.eq_of_toNat_eq hu.cur) hu.accumulator (hm _ hpay h.memoryOk) (by simp [hf])

theorem exec_keeps_inv {i : Instr} {s t : State} (h : Inv s) (hf : s.status.fatal = false)
    (hx : exec i s = .next t) : Inv t := by
  cases i with
  | validateBits =>
    rcases (validateBits_cases hf).next hx with ⟨e, -, he, -, rfl⟩ | ⟨-, rfl⟩
    · exact h.ended hf he
    · exact h.ended hf (by decide)
  | capacity => exact capacity_keeps_inv h hf hx
  | pack => exact pack_keeps_inv h hf hx
  | packPad => exact packPad_keeps_inv h hf hx
  | unpack => exact unpack_keeps_inv h hf hx
  | writeHeader => exact writeHeader_keeps_inv h hf hx
  | writePayload => exact writePayload_keeps_inv h hf hx
  | readHeader =>
    rcases (readHeader_cases hf).next hx with ⟨e, -, he, -, rfl⟩ | ⟨-, rfl⟩
    · exact h.ended hf he
    · have hi := h.ended (e := .ok) hf (by decide)
      exact hi.congr ⟨rfl, rfl, rfl, rfl, rfl, rfl, rfl, rfl⟩ (hi.memoryOk.congr fun sp => by simp)
  | readPayload => exact readPayload_keeps_inv h hf hx

theorem startCommand_keeps_inv {w : Byte} {s t : State} (h : Inv s) (hx : startCommand w s = .next t) : Inv t := by
  rcases startCommand_cases hx with ⟨-, rfl⟩ | ⟨hf, rfl⟩ | ⟨hf, i, -, hi⟩
  · exact h
  · exact h.ended hf (by decide)
  · exact exec_keeps_inv h hf hi

/-- Settles O16: a quiet move leaves what the invariant speaks of alone, every command keeps it, and reset brings it
about. -/
theorem everyStepKeepsTheInvariant : Obligations.EveryStepKeepsTheInvariant := by
  intro s t h hstep
  rcases step_cases hstep with rfl | ⟨rest, hmove⟩
  · exact h
  have hs : Inv (s.withScript rest) := h.quietMove (.withScript s rest)
  rcases hmove with hq | ⟨w, u, answers, hu, rfl⟩ | rfl
  · exact hs.quietMove hq
  · exact (startCommand_keeps_inv hs hu).quietMove (.withDraws u answers)
  · exact inv_reset h.params _

/-! ### The frame of every command -/

/-- The registers that command `i` does not write are as they were (10_state.md R26, R36); so are `FATAL` and what stands
outside the block unless `i` is WRITE_PAYLOAD; `DONE` is 1. -/
structure RegistersKept (i : Instr) (s t : State) : Prop where
  bits : i ≠ .readHeader → t.bits = s.bits
  chLen : t.chLen = s.chLen
  payLen : t.payLen = s.payLen
  file : i ≠ .unpack → t.nameLen = s.nameLen ∧ t.contLen = s.contLen
  reqLen : t.reqLen = s.reqLen
  pktLen : i ≠ .pack → i ≠ .packPad → t.pktLen = s.pktLen
  capacity : i ≠ .capacity → t.capBits = s.capBits ∧ t.capBytes = s.capBytes
  sequence : i ≠ .writeHeader → i ≠ .writePayload → i ≠ .readPayload →
    t.cur = s.cur ∧ t.bt = s.bt ∧ t.status.phase = s.status.phase
  accumulator : i ≠ .writePayload → i ≠ .readPayload → t.acc = s.acc ∧ t.accBits = s.accBits
  env : i ≠ .writePayload → t.status.fatal = s.status.fatal ∧ t.env = s.env
  done : t.status.done = true

theorem RegistersKept.ended (i : Instr) (s : State) (e : ErrCode) : RegistersKept i s (s.ended e) := by
  constructor <;> simp [State.ended]

theorem exec_registersKept {i : Instr} {s t : State} (hf : s.status.fatal = false) (hx : exec i s = .next t) :
    RegistersKept i s t := by
  cases i with
  | validateBits =>
    rcases (validateBits_cases hf).next hx with ⟨e, -, -, -, rfl⟩ | ⟨-, rfl⟩
    · exact .ended _ s e
    · exact .ended _ s .ok
  | capacity =>
    rcases (capacity_cases hf).next hx with ⟨e, -, -, -, rfl⟩ | ⟨-, -, rfl⟩
    · exact .ended _ s e
    · constructor <;> simp [State.ended]
  | pack =>
    rcases (pack_cases hf).next hx with ⟨e, -, -, -, rfl⟩ | ⟨-, he⟩
    · exact .ended _ s e
    · rw [he, packBody_eq]
      constructor <;> simp [State.started, Status.finish]
  | packPad =>
    rcases (packPad_cases hf).next hx with ⟨e, -, -, -, rfl⟩ | ⟨-, -, -, he⟩
    · exact .ended _ s e
    · rw [he, writeBytes_eq, packBody_eq]
      constructor <;> simp [State.started, Status.finish]
  | unpack =>
    rcases (unpack_cases hf rfl rfl).next hx with ⟨e, -, -, -, rfl⟩ | ⟨-, -, -, he⟩
    · exact .ended _ s e
    · rw [he, unpackStore_eq]
      constructor <;> simp [State.started, Status.finish]
  | writeHeader =>
    rcases (writeHeader_cases hf).next hx with ⟨e, -, -, -, rfl⟩ | ⟨-, -, he, -⟩
    · exact .ended _ s e
    · rw [he]
      constructor <;> simp [Status.finish, Status.withPhase]
  | writePayload =>
    rcases (writePayload_cases_any hf).next hx with ⟨e, -, -, -, rfl⟩ | ⟨-, -, -, u, hu, ⟨he, -⟩ | ⟨he, -⟩⟩
    · exact .ended _ s e
    · rw [he, hu.only.eq]
      constructor <;> simp [State.started, Status.finish]
    · rw [he, raiseError_cursorMismatch, hu.only.eq]
      constructor <;> simp [State.started]
  | readHeader =>
    rcases (readHeader_cases hf).next hx with ⟨e, -, -, -, rfl⟩ | ⟨-, rfl⟩
    · exact .ended _ s e
    · constructor <;> simp [State.ended]
  | readPayload =>
    rcases (readPayload_cases hf).next hx with ⟨e, -, -, -, rfl⟩ | ⟨-, -, -, u, hu, -, he⟩
    · exact .ended _ s e
    · rw [he, hu.only.eq]
      constructor <;> simp [State.started, Status.finish, Status.withPhase]

/-! The cells, command by command (20_memory.md R58, column Writes). -/

/-- `PackBody()` writes the packed file's cells of `PKT` only (30_encoding.md R73). -/
theorem readCell_packBody_kept {s : State} {sp : Space} {k : Nat}
    (h : sp = .pkt → 5 + s.nameLen.toNat + s.contLen.toNat ≤ k) : readCell (packBody s) sp k = readCell s sp k := by
  rw [readCell_packBody]
  split
  · subst_vars
    have := h rfl
    rw [if_neg (by omega), if_neg (by omega), if_neg (by omega), if_neg (by omega)]
  · rfl

theorem pack_cells {s t : State} {sp : Space} {k : Nat} (hf : s.status.fatal = false) (hx : exec .pack s = .next t)
    (hk : ¬ writesCell s .pack sp k) : readCell t sp k = readCell s sp k := by
  rcases (pack_cases hf).next hx with ⟨e, -, -, -, rfl⟩ | ⟨-, rfl⟩
  · rw [readCell_ended]
  · rw [readCell_withStatus, readCell_withPktLen, readCell_packBody_kept, readCell_started]
    intro hs
    exact Nat.not_lt.1 fun hlt => hk ⟨hs, hlt⟩

theorem packPad_cells {s t : State} {sp : Space} {k : Nat} (hf : s.status.fatal = false)
    (hx : exec .packPad s = .next t) (hk : ¬ writesCell s .packPad sp k) : readCell t sp k = readCell s sp k := by
  rcases (packPad_cases hf).next hx with ⟨e, -, -, -, rfl⟩ | ⟨-, hlo, -, rfl⟩
  · rw [readCell_ended]
  · have hreq : sp = .pkt → s.reqLen.toInt ≤ k := fun hs => Int.not_lt.1 fun hlt => hk ⟨hs, hlt⟩
    have htotal : packTotal s = 5 + s.nameLen.toNat + s.contLen.toNat := by unfold packTotal packedLength; omega
    rw [readCell_withStatus, readCell_withPktLen, readCell_writeBytes, if_neg, readCell_packBody_kept, readCell_started]
    · intro hs
      have := hreq hs
      show 5 + s.nameLen.toNat + s.contLen.toNat ≤ k
      omega
    · rintro ⟨hs, -, hlt⟩
      have := hreq hs
      rw [List.length_replicate] at hlt
      omega

theorem unpack_cells {s t : State} {sp : Space} {k : Nat} (hf : s.status.fatal = false)
    (hx : exec .unpack s = .next t) (hk : ¬ writesCell s .unpack sp k) : readCell t sp k = readCell s sp k := by
  rcases (unpack_cases hf rfl rfl).next hx with ⟨e, -, -, -, rfl⟩ | ⟨-, -, -, rfl⟩
  · rw [readCell_ended]
  · rw [readCell_withStatus, readCell_unpackStore, if_neg fun h => hk (.inl h), if_neg fun h => hk (.inr h),
      readCell_started]

theorem writeHeader_cells {s t : State} {sp : Space} {k : Nat} (hf : s.status.fatal = false)
    (hx : exec .writeHeader s = .next t) (hk : ¬ writesCell s .writeHeader sp k) :
    readCell t sp k = readCell s sp k := by
  rcases (writeHeader_cases hf).next hx with ⟨e, -, -, -, rfl⟩ | ⟨-, -, he, -, hchan⟩
  · rw [readCell_ended]
  · by_cases hs : sp = .chan
    · subst hs
      have hk4 : 4 ≤ k := Nat.not_lt.1 fun hlt => hk ⟨rfl, hlt⟩
      rw [hchan, if_neg (by omega), if_neg (by omega)]
    · rw [he]
      exact readCell_congr (by simp [State.mem_withMem_other _ _ hs]) (by simp)

/-- The write cursor leaves every cell outside `CHAN[4 .. idx(k))` alone (42_cursor_write.md R147). -/
theorem Written.readCell_kept {s u : State} {b n : Nat} {vb : Nat → Nat → Bool} (h : Written s b vb n u) {sp : Space}
    {k : Nat} (hk : sp = .chan → ¬ (4 ≤ k ∧ k < usableIndex n)) : readCell u sp k = readCell s sp k := by
  by_cases hs : sp = .chan
  · subst hs
    refine BitVec.eq_of_getLsbD_eq fun q hq => ?_
    rw [h.chan k q hq, if_neg (hk rfl)]
  · exact readCell_congr (by rw [h.only.mem hs]) h.resets

theorem writePayload_cells {s t : State} {sp : Space} {k : Nat} (hf : s.status.fatal = false)
    (hinv : s.status.phase = .hdr → s.cur = 4 ∧ 1 ≤ s.bt.toNat ∧ s.bt.toNat ≤ 8) (hx : exec .writePayload s = .next t)
    (hk : ¬ writesCell s .writePayload sp k) : readCell t sp k = readCell s sp k := by
  rcases (writePayload_cases hf hinv).next hx with ⟨e, -, -, -, rfl⟩ | ⟨-, hl, -, u, hu, hw, hend⟩
  · rw [readCell_ended]
  · have hout : sp = .chan → ¬ (4 ≤ k ∧ k < s.chLen.toNat) := fun hs hc => hk ⟨hs, hc⟩
    have hkept : readCell u sp k = readCell s sp k := by
      rw [hw.readCell_kept (by rwa [usableIndex_usableCount hl.1 hl.2.1]), readCell_started]
    rcases hend with ⟨-, -, -, -, rfl⟩ | ⟨-, -, -, rfl⟩
    · rw [readCell_withStatus, readCell_withBt, hkept]
    · rw [raiseError_cursorMismatch, ← forgetPayload_eq, readCell_withStatus, readCell_withBt,
        readCell_forgetPayload, hkept]
      have hlen : u.chLen = s.chLen := hu.only.chLen
      rw [hlen]
      by_cases hs : sp = .chan
      · have := hout hs
        right; omega
      · exact .inl hs

theorem readPayload_cells {s t : State} {sp : Space} {k : Nat} (hf : s.status.fatal = false)
    (hx : exec .readPayload s = .next t) (hk : ¬ writesCell s .readPayload sp k) :
    readCell t sp k = readCell s sp k := by
  rcases (readPayload_cases hf).next hx with ⟨e, -, -, -, rfl⟩ | ⟨-, -, -, u, hu, -, rfl⟩
  · rw [readCell_ended]
  · rw [readCell_withStatus, readCell_withBt, ← readCell_started s]
    by_cases hs : sp = .pay
    · subst hs
      refine BitVec.eq_of_getLsbD_eq fun q hq => ?_
      rw [hu.pay k q hq, if_neg fun h => hk ⟨rfl, h.2⟩]
    · exact readCell_congr (by rw [hu.only.mem hs]) (by rw [hu.only.env])

theorem exec_cells {i : Instr} {s t : State} {sp : Space} {k : Nat} (hf : s.status.fatal = false)
    (hinv : s.status.phase = .hdr → s.cur = 4 ∧ 1 ≤ s.bt.toNat ∧ s.bt.toNat ≤ 8) (hx : exec i s = .next t)
    (hk : ¬ writesCell s i sp k) : readCell t sp k = readCell s sp k := by
  cases i with
  | validateBits => rcases (validateBits_cases hf).next hx with ⟨e, -, -, -, rfl⟩ | ⟨-, rfl⟩ <;> rw [readCell_ended]
  | capacity => rcases (capacity_cases hf).next hx with ⟨e, -, -, -, rfl⟩ | ⟨-, -, rfl⟩ <;> simp
  | pack => exact pack_cells hf hx hk
  | packPad => exact packPad_cells hf hx hk
  | unpack => exact unpack_cells hf hx hk
  | writeHeader => exact writeHeader_cells hf hx hk
  | writePayload => exact writePayload_cells hf hinv hx hk
  | readHeader => rcases (readHeader_cases hf).next hx with ⟨e, -, -, -, rfl⟩ | ⟨-, rfl⟩ <;> simp
  | readPayload => exact readPayload_cells hf hx hk

/-- Settles O20: the registers command by command, what every command keeps, and the cells command by command. -/
theorem commandsChangeOnlyWhatTheyList : Obligations.CommandsChangeOnlyWhatTheyList := by
  intro i s t hf hinv hx
  obtain ⟨bits, chLen, payLen, file, reqLen, pktLen, capacity, sequence, accumulator, env, done⟩ :=
    exec_registersKept hf hx
  obtain ⟨params, busy, script, resets⟩ := exec_keeps hf hx
  rw [hf] at env
  exact ⟨bits, chLen, payLen, file, reqLen, pktLen, capacity, sequence, accumulator, env, busy, done, params, resets,
    script, fun sp k hk => exec_cells hf hinv hx hk⟩

end Sys2Proof.Machine

/-! PROOFS. The statement of 20_memory.md: what a host store does to the cells. -/

namespace Sys2Proof.Machine

theorem whenIdle_of_idle {s : State} (r : Host.Outcome State Fault Refusal) (h : s.status.busy = false) :
    whenIdle s r = r := by
  simp [whenIdle, h]

/-- The host's next move is a store and no command runs: the store is made on the machine that has taken the move off
the script. -/
theorem step_store {sp : Space} {start : Nat} {bytes : List Byte} {rest : List HostAction} {s : State}
    (hscript : s.env.script = .store sp start bytes :: rest) (hidle : s.status.busy = false) :
    step s = hostStore sp start bytes (s.withScript rest) := by
  rw [step_cons hscript]
  exact whenIdle_of_idle _ hidle

theorem hostStore_inside (sp : Space) {start : Nat} {bytes : List Byte} {s : State}
    (h : start + bytes.length ≤ s.params.maxLen) :
    hostStore sp start bytes s = .next (writeBytes s sp start bytes) := by
  simp [hostStore, h]

/-- A store that reaches a cell at or above `MAXLEN` (20_memory.md R50; log entry 9). -/
theorem hostStore_outside (sp : Space) {start : Nat} {bytes : List Byte} {s : State}
    (h : s.params.maxLen < start + bytes.length) (hne : bytes ≠ []) :
    hostStore sp start bytes s = .fault .noSuchCell := by
  simp [hostStore, h, hne]

/-- Settles O9: inside `MAXLEN` the step is one `writeBytes`, which replaces one memory (`writeBytes_eq`) at the cells it
names (`readCell_writeBytes`). -/
theorem hostStoreWritesItsCellsOnly : Obligations.HostStoreWritesItsCellsOnly := by
  intro s sp start bytes rest hscript hidle
  rw [step_store hscript hidle]
  refine ⟨fun hfit => ?_, hostStore_outside sp (s := s.withScript rest)⟩
  refine ⟨_, hostStore_inside sp hfit, writeBytes_eq _ sp start bytes, fun sp' k => ?_⟩
  rw [readCell_writeBytes, readCell_withScript]

end Sys2Proof.Machine

/-! PROOFS. The statements of 30_encoding.md about codes: the opcode map over all bytes, and programs as byte strings. -/

namespace Sys2Proof

/-! ### The opcode map -/

theorem decode_eq_ok_iff {w : Byte} {i : Instr} : decode w = .ok i ↔ w = encode i :=
  ⟨eq_encode_of_decode, fun h => h ▸ decode_encode i⟩

/-- The codes are the bytes 0x01 to 0x09, without a gap (30_encoding.md R71). -/
theorem exists_eq_encode_iff {w : Byte} : (∃ i, w = encode i) ↔ 1 ≤ w.toNat ∧ w.toNat ≤ 9 := by
  constructor
  · rintro ⟨i, rfl⟩
    cases i <;> decide
  · rintro ⟨h1, h9⟩
    have hw : w = BitVec.ofNat 8 w.toNat := by simp
    interval_cases w.toNat
    · exact ⟨.validateBits, hw⟩
    · exact ⟨.capacity, hw⟩
    · exact ⟨.pack, hw⟩
    · exact ⟨.packPad, hw⟩
    · exact ⟨.unpack, hw⟩
    · exact ⟨.writeHeader, hw⟩
    · exact ⟨.writePayload, hw⟩
    · exact ⟨.readHeader, hw⟩
    · exact ⟨.readPayload, hw⟩

/-- The decoder refuses a byte exactly when it is no command's code. -/
theorem decode_error_iff {w : Byte} : (∃ e, decode w = .error e) ↔ ¬ ∃ i, w = encode i := by
  simp only [← decode_eq_ok_iff]
  cases decode w <;> simp

/-- Settles O1: the row of each command is its own code, and the codes are the bytes 0x01 to 0x09. -/
theorem opcodeMapIsTheTable : Obligations.OpcodeMapIsTheTable := by
  refine ⟨fun w i => ?_, fun w => ?_⟩
  · rw [decode_eq_ok_iff]
    cases i <;> simp [encode]
  · rw [decode_error_iff, exists_eq_encode_iff]
    omega

/-! ### Whole programs -/

/-- A program decodes when its first byte and the rest do (30_encoding.md R80). -/
theorem decodeProgram_cons_ok {w : Byte} {rest : List Byte} {is : List Instr} :
    decodeProgram (w :: rest) = .ok is ↔
      ∃ i tail, decode w = .ok i ∧ decodeProgram rest = .ok tail ∧ is = i :: tail := by
  rw [decodeProgram]
  cases decode w with
  | error e => simp
  | ok i => cases decodeProgram rest <;> simp [eq_comm]

/-- Settles O2, by induction on the byte string: its first byte is the code of the first command, by the inverse laws of
one command word, and the rest is the code of the rest. -/
theorem programEncodingRoundTrip : Obligations.ProgramEncodingRoundTrip := by
  intro bytes
  induction bytes with
  | nil => intro is; simp [decodeProgram, eq_comm]
  | cons w rest ih =>
    intro is
    rw [decodeProgram_cons_ok]
    simp only [decode_eq_ok_iff, ih]
    constructor
    · rintro ⟨i, tail, rfl, rfl, rfl⟩
      rfl
    · intro h
      obtain ⟨i, tail, rfl, hw, hrest⟩ := List.map_eq_cons_iff.1 h.symm
      exact ⟨i, tail, hw.symm, hrest.symm, rfl⟩

end Sys2Proof

/-! PROOFS. The statement of 30_encoding.md about the macros WRITE and READ (R81). -/

namespace Sys2Proof.Machine

theorem Params.maxLen_le {p : Params} (h : p.wf = true) : p.maxLen ≤ 2 ^ 56 :=
  of_decide_eq_true (Bool.and_eq_true_iff.1 h).2

/-! ### Moves of a played script -/

theorem storeReg_withScript (s : State) (v : Word) (r : Reg) (rest : List HostAction) :
    storeReg (s.withScript rest) v r = (storeReg s v r).withScript rest := by
  cases r <;> rfl

/-- A `SET reg, v` is one `storeReg`. -/
theorem play_setReg {r : Reg} {v : Word} {rest : List HostAction} {s : State} (hr : r ≠ .cmd)
    (hidle : s.status.busy = false) : play (setReg r v :: rest) s = play rest (storeReg s v r) :=
  play_set hidle (by rw [writeReg_eq_storeReg _ v hr, storeReg_withScript])

/-- A `SET dst, src` is one `storeReg` of what the host reads (30_encoding.md R81). -/
theorem play_copyReg {dst src : Reg} {rest : List HostAction} {s : State} (hdst : dst ≠ .cmd)
    (hidle : s.status.busy = false) :
    play (.copy dst.offset src.offset :: rest) s = play rest (storeReg s (readReg s src) dst) := by
  apply play_cons
  have hread : readReg (s.withScript rest) src = readReg s src := by cases src <;> rfl
  rw [perform, whenIdle_of_idle _ (by simpa using hidle), hostCopy, src.windowOffsetWf_offset, hostRead_offset,
    hostWrite_offset, writeReg_eq_storeReg _ _ hdst, storeReg_withScript, hread]
  rfl

/-- A `CMD mnemonic` with its answer known but for the script that is left. -/
theorem play_issue_of_exec {i : Instr} {rest : List HostAction} {s t : State} (hi : i ≠ .writePayload)
    (hidle : s.status.busy = false) (h : exec i (s.withScript rest) = .next (t.withScript rest)) :
    play (issue i :: rest) s = play rest t := by
  rw [play_issue_cons hidle h, if_neg hi]
  rfl

/-! ### Commands that end with `OK` -/

theorem Outcome.ok {i : Instr} {s : State} {E : ErrCode → Prop} {P : State → Prop} (o : Outcome i s E P)
    (hE : ∀ e, ¬ E e) : ∃ t, exec i s = .next t ∧ P t := by
  obtain ⟨t, ht, ⟨e, -, -, he, -⟩ | hP⟩ := o
  · exact absurd he (hE e)
  · exact ⟨t, ht, hP⟩

theorem exec_readHeader_ok {s : State} (hf : s.status.fatal = false) (hl : CursorBuffer s) :
    exec .readHeader s = .next ((s.ended .ok).withBits
      (BitVec.ofNat 8 (headerValue (readCell s .chan 0) (readCell s .chan 1) (readCell s .chan 2) + 1))) := by
  obtain ⟨t, ht, -, rfl⟩ := (readHeader_cases hf).ok fun e he => he.2 hl
  exact ht

theorem exec_readHeader_error {s : State} (hf : s.status.fatal = false) (hl : ¬ CursorBuffer s) :
    exec .readHeader s = .next (s.ended .lengthInvalid) := by
  obtain ⟨t, ht, ⟨e, -, -, ⟨rfl, -⟩, rfl⟩ | ⟨hl', -⟩⟩ := readHeader_cases hf
  · exact ht
  · exact absurd hl' hl

theorem exec_capacity_ok {s : State} (hf : s.status.fatal = false) (hb : 1 ≤ s.bits.toNat ∧ s.bits.toNat ≤ 8)
    (hl : s.chLen.toNat % 4 = 0 ∧ s.chLen.toNat ≤ s.params.maxLen) :
    exec .capacity s = .next ((s.ended .ok).withCap (BitVec.ofInt 64 (capacityBits s.chLen.toNat s.bits.toNat))
      (BitVec.ofInt 64 (capacityBytes s.chLen.toNat s.bits.toNat))) := by
  obtain ⟨t, ht, -, -, rfl⟩ := (capacity_cases hf).ok fun e he => by
    rcases he with ⟨-, he⟩ | ⟨-, -, he⟩
    · exact he hb
    · exact he hl
  exact ht

theorem ReadOnly.bits {s t : State} (h : ReadOnly s t) : t.bits = s.bits := by simpa using congrArg State.bits h.eq

theorem exec_readPayload_ok {s : State} (hf : s.status.fatal = false) (hb : 1 ≤ s.bits.toNat ∧ s.bits.toNat ≤ 8)
    (hl : CursorBuffer s) (hc : (s.payLen.toNat : Int) ≤ capacityBytes s.chLen.toNat s.bits.toNat) :
    ∃ t, exec .readPayload s = .next t ∧ t.status.err = .ok ∧ t.bits = s.bits ∧ t.capBytes = s.capBytes ∧
      t.payLen = s.payLen ∧ t.cur = s.chLen ∧
      ∀ k q, k < s.payLen.toNat → q < 8 →
        (readCell t .pay k).getLsbD q = channelBit s s.bits.toNat (8 * k + (7 - q)) := by
  obtain ⟨t, ht, -, -, -, u, hu, -, rfl⟩ := (readPayload_cases hf).ok fun e he => by
    rcases he with ⟨-, he⟩ | ⟨-, -, he | he⟩
    · exact he hb
    · exact he hl
    · omega
  refine ⟨_, ht, rfl, hu.only.bits, hu.only.capBytes, hu.only.payLen,
    BitVec.eq_of_toNat_eq hu.cur, fun k q hk hq => ?_⟩
  have hwhole : k < channelsBelow s.chLen.toNat * s.bits.toNat / 8 := by
    rw [capacityBytes_eq _ hl.2.1] at hc
    rw [channelsBelow_chLen hl.1 hl.2.1, usableCount]
    omega
  simpa using (hu.pay k q hq).trans (if_pos ⟨hwhole, hk⟩)

/-- A payload that fits, counted in bytes as the host does and in bits as the cursor does (40_capacity.md R104). -/
theorem fits_iff {s : State} (b : Nat) (hl : CursorBuffer s) :
    (s.payLen.toNat : Int) ≤ capacityBytes s.chLen.toNat b ↔ 8 * s.payLen.toNat ≤ usableCount s * b := by
  rw [capacityBytes_eq b hl.2.1, usableCount]
  omega

/-- After a WRITE_HEADER that ends with `OK` a WRITE_PAYLOAD can run, with whatever draws. -/
theorem exec_writeHeader_ok {s : State} (hf : s.status.fatal = false) (hb : 1 ≤ s.bits.toNat ∧ s.bits.toNat ≤ 8)
    (hl : CursorBuffer s) (hp : s.payLen.toNat ≤ s.params.maxLen) :
    ∃ t, exec .writeHeader s = .next t ∧ t.status.err = .ok ∧ t.status.busy = false ∧ t.chLen = s.chLen ∧
      t.payLen = s.payLen ∧ t.bt.toNat = s.bits.toNat ∧ ∀ e : Env, ReadyToWrite (t.withEnv e) := by
  obtain ⟨t, ht, -, -, he, -⟩ := (writeHeader_cases hf).ok fun e he => by
    rcases he with ⟨-, he⟩ | ⟨-, -, he⟩
    · exact he hb
    · exact he hl
  have hbt : (BitVec.ofNat 4 s.bits.toNat).toNat = s.bits.toNat := by
    rw [BitVec.toNat_ofNat]; exact Nat.mod_eq_of_lt (by omega)
  refine ⟨t, ht, ?_⟩
  rw [he]
  exact ⟨rfl, rfl, rfl, rfl, hbt, fun e => ⟨hf, rfl, rfl, hbt.symm ▸ hb.1, hbt.symm ▸ hb.2, hl.1, hl.2.1, hl.2.2, hp⟩⟩

theorem exec_writePayload_ok {s : State} (h : ReadyToWrite s) (hfit : 8 * s.payLen.toNat ≤ usableCount s * s.bt.toNat) :
    ∃ t, exec .writePayload s = .next t ∧ t.status.err = .ok := by
  obtain ⟨hf, hp, hc, hb1, hb8, h4, hl4, hlM, hm⟩ := h
  obtain ⟨t, ht, -, -, -, u, -, -, h⟩ := (writePayload_cases hf fun _ => ⟨hc, hb1, hb8⟩).ok fun e he => by
    rcases he with ⟨-, he⟩ | ⟨-, -, he | he⟩
    · rw [hp] at he; cases he
    · exact he ⟨h4, hl4, hlM⟩
    · omega
  rcases h with ⟨-, -, -, -, rfl⟩ | ⟨hover, -⟩
  · exact ⟨_, ht, rfl⟩
  · omega

/-! ### The macro WRITE -/

section
variable {s t t' u : State} (hf : s.status.fatal = false) (h1 : exec .writeHeader s = .next t)
  (h2 : t.status.err = .ok) (ht' : ∃ e : Env, e.resets = t.env.resets ∧ t' = t.withEnv e)
  (h3 : exec .writePayload t' = .next u) (h4 : u.status.err = .ok)
include hf h1 h2 ht' h3 h4

/-- The header channels of a whole write carry its depth (43_cursor_read.md R161). -/
theorem headerValue_wholeWrite :
    headerValue (readCell u .chan 0) (readCell u .chan 1) (readCell u .chan 2) + 1 = s.bits.toNat := by
  obtain ⟨hb, -, -, -, hheader, -⟩ := wholeWrite_ok hf h1 h2 ht' h3 h4
  rw [hheader 0 (by decide), hheader 1 (by decide), hheader 2 (by decide)]
  exact headerValue_written hb _ _ _

/-- The channels of a whole write carry its payload, bit by bit, inside the buffer (43_cursor_read.md R170). -/
theorem channelBit_wholeWrite {n : Nat} (hn : n < 8 * s.payLen.toNat) :
    usableIndex (n / s.bits.toNat) < s.chLen.toNat ∧ channelBit u s.bits.toNat n = payloadBit s n := by
  obtain ⟨hb, hl, hfit, -, -, hchan⟩ := wholeWrite_ok hf h1 h2 ht' h3 h4
  generalize s.bits.toNat = b at *
  have hj : n / b < usableCount s := (Nat.div_lt_iff_lt_mul hb.1).2 (by omega)
  have hlt : usableIndex (n / b) < s.chLen.toNat :=
    usableIndex_usableCount (s := s) hl.1 hl.2.1 ▸ usableIndex_strictMono hj
  have hmod : n % b < b := Nat.mod_lt n hb.1
  have hpos : n / b * b + (b - 1 - (b - 1 - n % b)) = n := by
    have := Nat.div_add_mod' n b
    omega
  refine ⟨hlt, ?_⟩
  rw [channelBit, hchan _ (by unfold usableIndex; omega) _ (by omega), if_pos hlt, if_neg (usableIndex_mod _),
    if_pos (by omega), usableNumber_usableIndex, hpos, if_pos hn]

end

/-- The macro WRITE of a payload that fits runs through with `OK`; the channels it leaves carry the depth and the payload. -/
theorem play_macroWrite {s : State} {b : Byte} (hidle : s.status.busy = false) (hf : s.status.fatal = false)
    (hb : 1 ≤ b.toNat ∧ b.toNat ≤ 8) (hl : CursorBuffer s)
    (hfit : (s.payLen.toNat : Int) ≤ capacityBytes s.chLen.toNat b.toNat) :
    ∃ t, play (macroWrite b) s = .next t ∧ t.status.err = .ok ∧ t.chLen = s.chLen ∧ t.params = s.params ∧
      headerValue (readCell t .chan 0) (readCell t .chan 1) (readCell t .chan 2) + 1 = b.toNat ∧
      ∀ n, n < 8 * s.payLen.toNat →
        usableIndex (n / b.toNat) < s.chLen.toNat ∧ channelBit t b.toNat n = payloadBit s n := by
  have hset : storeReg s (b.setWidth 64) .bits = s.withBits b := by simp [storeReg]
  have hpay : s.payLen.toNat ≤ s.params.maxLen := by
    have := capacityBytes_le hl.2.1 hb.2
    have := hl.2.2
    omega
  have hf' : ((s.withBits b).withScript [issue .writePayload]).status.fatal = false := hf
  obtain ⟨t, ht, htok, htidle, htch, htpay, htbt, hready⟩ := exec_writeHeader_ok hf' hb hl hpay
  obtain ⟨u, hu, huok⟩ := exec_writePayload_ok (hready { t.env with script := [] }) (by
    rw [usableCount, State.withEnv_payLen, State.withEnv_chLen, State.withEnv_bt, htch, htpay, htbt]
    exact (fits_iff b.toNat hl).1 hfit)
  have ht' : ∃ e : Env, e.resets = t.env.resets ∧ t.withScript [] = t.withEnv e :=
    ⟨{ t.env with script := [] }, rfl, rfl⟩
  obtain ⟨-, -, -, ⟨-, -, hch, hpa, -, -⟩, -⟩ := wholeWrite_ok hf' ht htok ht' hu huok
  refine ⟨u.withDraws [], ?_, huok, hch, hpa, ?_, fun n hn => ?_⟩
  · rw [macroWrite, play_setReg (by decide) hidle, hset, play_issue_cons (s := s.withBits b) hidle ht]
    exact play_issue_writePayload htidle hu
  · simpa using headerValue_wholeWrite hf' ht htok ht' hu huok
  · have h := channelBit_wholeWrite hf' ht htok ht' hu huok hn
    simpa [channelBit, payloadBit] using h

/-! ### The macro READ -/

/-- The machine on which the last command of the macro READ runs: READ_HEADER has set `BITS` to the depth `d`, CAPACITY the
capacity pair, and the host has copied `CAP_BYTES` to `PAYLEN` (30_encoding.md R81). -/
def readyToRead (v : State) (d : Byte) : State :=
  (((v.ended .ok).withBits d).withCap (BitVec.ofInt 64 (capacityBits v.chLen.toNat d.toNat))
    (BitVec.ofInt 64 (capacityBytes v.chLen.toNat d.toNat))).withPayLen
      (BitVec.ofInt 64 (capacityBytes v.chLen.toNat d.toNat))

/-- The five moves of the macro READ before its last. -/
theorem play_macroRead_prefix {v : State} {d : Byte} (hidle : v.status.busy = false) (hf : v.status.fatal = false)
    (hd : headerValue (readCell v .chan 0) (readCell v .chan 1) (readCell v .chan 2) + 1 = d.toNat)
    (hd8 : 1 ≤ d.toNat ∧ d.toNat ≤ 8) (hl : CursorBuffer v) :
    play macroRead v = play [issue .readPayload] (readyToRead v d) := by
  have hheader (rest : List HostAction) : exec .readHeader (v.withScript rest) =
      .next (((v.ended .ok).withBits d).withScript rest) := by
    rw [exec_readHeader_ok (s := v.withScript rest) hf hl, readCell_withScript, hd, BitVec.ofNat_toNat,
      BitVec.setWidth_eq]
    rfl
  have hcapacity (rest : List HostAction) : exec .capacity (((v.ended .ok).withBits d).withScript rest) =
      .next ((((v.ended .ok).withBits d).withCap (BitVec.ofInt 64 (capacityBits v.chLen.toNat d.toNat))
        (BitVec.ofInt 64 (capacityBytes v.chLen.toNat d.toNat))).withScript rest) :=
    exec_capacity_ok (s := ((v.ended .ok).withBits d).withScript rest) hf hd8 ⟨hl.1, hl.2.2⟩
  rw [macroRead, play_issue_of_exec (by decide) hidle (hheader _), play_stopUnlessOk_ok rfl,
    play_issue_of_exec (by decide) rfl (hcapacity _), play_stopUnlessOk_ok rfl,
    play_copyReg (by decide) rfl]
  rfl

/-- The macro READ on an idle machine with a legal buffer runs through with `OK`: the depth of the header, the whole
capacity as the length, and as the payload the bits of the channels. -/
theorem play_macroRead {v : State} {d : Byte} (hM : v.params.maxLen ≤ 2 ^ 56) (hidle : v.status.busy = false)
    (hf : v.status.fatal = false)
    (hd : headerValue (readCell v .chan 0) (readCell v .chan 1) (readCell v .chan 2) + 1 = d.toNat)
    (hd8 : 1 ≤ d.toNat ∧ d.toNat ≤ 8) (hl : CursorBuffer v) :
    ∃ u, play macroRead v = .next u ∧ u.status.err = .ok ∧ u.bits = d ∧
      u.capBytes.toInt = capacityBytes v.chLen.toNat d.toNat ∧ u.payLen = u.capBytes ∧ u.cur = v.chLen ∧
      ∀ k q : Nat, (k : Int) < capacityBytes v.chLen.toNat d.toNat → q < 8 →
        (readCell u .pay k).getLsbD q = channelBit v d.toNat (8 * k + (7 - q)) := by
  have hcap := capacityBytes_le hl.2.1 hd8.2
  have hlM := hl.2.2
  have hcap0 : 0 ≤ capacityBytes v.chLen.toNat d.toNat := by
    rw [capacityBytes_eq _ hl.2.1]
    omega
  have hword : ((BitVec.ofInt 64 (capacityBytes v.chLen.toNat d.toNat)).toNat : Int) =
      capacityBytes v.chLen.toNat d.toNat := by
    rw [BitVec.toNat_ofInt]
    omega
  obtain ⟨u, hu, hok, hbits, hcapB, hpay, hcur, hread⟩ :=
    exec_readPayload_ok (s := (readyToRead v d).withScript []) hf hd8 hl hword.le
  refine ⟨u, ?_, hok, hbits, ?_, hpay.trans hcapB.symm, hcur, fun k q hk hq => ?_⟩
  · rw [play_macroRead_prefix hidle hf hd hd8 hl]
    exact play_issue (by decide) rfl hu
  · rw [hcapB]
    exact toInt_ofInt_word (by omega) (by omega)
  · have hlt : k < ((readyToRead v d).withScript []).payLen.toNat := Int.ofNat_lt.1 (hk.trans_eq hword.symm)
    have h := hread k q hlt hq
    simpa [readyToRead, channelBit] using h

/-- On a buffer READ_HEADER does not accept the macro READ stops there (30_encoding.md R81). -/
theorem play_macroRead_error {v : State} (hidle : v.status.busy = false) (hf : v.status.fatal = false)
    (hl : ¬ CursorBuffer v) : play macroRead v = .next ((v.withScript []).ended .lengthInvalid) := by
  have hheader (rest : List HostAction) : exec .readHeader (v.withScript rest) =
      .next ((v.ended .lengthInvalid).withScript rest) := exec_readHeader_error (s := v.withScript rest) hf hl
  rw [macroRead, play_issue_of_exec (by decide) hidle (hheader _)]
  exact play_stopUnlessOk_error ErrCode.noConfusion

theorem SameImage.channelBit_eq {u v : State} (h : SameImage u v) {b n : Nat} (hn : usableIndex (n / b) < u.chLen.toNat) :
    channelBit v b n = channelBit u b n := by
  obtain ⟨-, -, hcell⟩ := h
  rw [channelBit, channelBit, hcell _ hn]

/-- Settles O46: READ sees only the image, and the image the macro WRITE leaves carries the depth and the payload. -/
theorem macroReadReturnsWhatMacroWriteHid : Obligations.MacroReadReturnsWhatMacroWriteHid := by
  intro s b hwf hidle hf hb1 hb8
  refine ⟨fun hl hfit => ?_, play_macroRead_error hidle hf⟩
  obtain ⟨t, hplay, hok, hch, hpa, hheader, hbits⟩ := play_macroWrite hidle hf ⟨hb1, hb8⟩ hl hfit
  refine ⟨t, hplay, hok, fun v hsame hvidle hvf => ?_⟩
  obtain ⟨hvch, hvmax, hvcell⟩ := id hsame
  have hl4 : 4 ≤ t.chLen.toNat := hch ▸ hl.2.1
  have hvl : CursorBuffer v := by
    rw [CursorBuffer, hvch, hch, hvmax, hpa]
    exact hl
  obtain ⟨u, hu, huok, hubits, hucap, hupay, hucur, huread⟩ := play_macroRead (v := v) (d := b)
    (by rw [hvmax, hpa]; exact Params.maxLen_le hwf) hvidle hvf
    (by rw [hvcell 0 (by omega), hvcell 1 (by omega), hvcell 2 (by omega)]; exact hheader) ⟨hb1, hb8⟩ hvl
  rw [hvch, hch] at hucap hucur huread
  refine ⟨u, hu, huok, hubits, hucap, hupay, hucur, fun k hk => BitVec.eq_of_getLsbD_eq fun q hq => ?_⟩
  obtain ⟨hinside, hbit⟩ := hbits (8 * k + (7 - q)) (by omega)
  calc (readCell u .pay k).getLsbD q
      = channelBit v b.toNat (8 * k + (7 - q)) := huread k q (by omega) hq
    _ = channelBit t b.toNat (8 * k + (7 - q)) := hsame.channelBit_eq (hch ▸ hinside)
    _ = payloadBit s (8 * k + (7 - q)) := hbit
    _ = (readCell s .pay k).getLsbD q := by
      rw [payloadBit, show (8 * k + (7 - q)) / 8 = k by omega, show 7 - (8 * k + (7 - q)) % 8 = q by omega]

end Sys2Proof.Machine

/-! PROOFS. The statements of 40_capacity.md: the check of the depth, CAPACITY, what its results depend on, and the fit
law. -/

namespace Sys2Proof.Machine

/-! ### Commands that end with an error -/

/-- A command that cannot complete, and in which only the error `e` is possible, ends with `e` and changes nothing but
`STATUS` (60_exceptions.md R206). -/
theorem Outcome.exec_error {i : Instr} {s : State} {E : ErrCode → Prop} {P : State → Prop} {e : ErrCode}
    (o : Outcome i s E P) (hE : ∀ x, E x → x = e) (hP : ∀ t, ¬ P t) : exec i s = .next (s.ended e) := by
  obtain ⟨t, ht, ⟨x, -, -, hx, rfl⟩ | h⟩ := o
  · rw [ht, hE x hx]
  · exact absurd h (hP t)

/-! ### The check of the depth, in the four commands that read `BITS` (40_capacity.md R100) -/

section
variable {s : State} (hf : s.status.fatal = false)
include hf

theorem exec_validateBits_ok (hb : 1 ≤ s.bits.toNat ∧ s.bits.toNat ≤ 8) :
    exec .validateBits s = .next (s.ended .ok) := by
  obtain ⟨t, ht, -, rfl⟩ := (validateBits_cases hf).ok fun e he => he.2 hb
  exact ht

theorem exec_validateBits_bitsOutOfRange (hb : ¬ (1 ≤ s.bits.toNat ∧ s.bits.toNat ≤ 8)) :
    exec .validateBits s = .next (s.ended .bitsOutOfRange) :=
  (validateBits_cases hf).exec_error (fun _ he => he.1) fun _ ht => hb ht.1

theorem exec_capacity_bitsOutOfRange (hb : ¬ (1 ≤ s.bits.toNat ∧ s.bits.toNat ≤ 8)) :
    exec .capacity s = .next (s.ended .bitsOutOfRange) :=
  (capacity_cases hf).exec_error (fun _ he => he.elim And.left fun h => absurd h.2.1 hb) fun _ ht => hb ht.1

theorem exec_writeHeader_bitsOutOfRange (hb : ¬ (1 ≤ s.bits.toNat ∧ s.bits.toNat ≤ 8)) :
    exec .writeHeader s = .next (s.ended .bitsOutOfRange) :=
  (writeHeader_cases hf).exec_error (fun _ he => he.elim And.left fun h => absurd h.2.1 hb) fun _ ht => hb ht.1

theorem exec_readPayload_bitsOutOfRange (hb : ¬ (1 ≤ s.bits.toNat ∧ s.bits.toNat ≤ 8)) :
    exec .readPayload s = .next (s.ended .bitsOutOfRange) :=
  (readPayload_cases hf).exec_error (fun _ he => he.elim And.left fun h => absurd h.2.1 hb) fun _ ht => hb ht.1

/-- The second error of CAPACITY comes after the first: only with a legal depth (40_capacity.md R103). -/
theorem exec_capacity_lengthInvalid (hb : 1 ≤ s.bits.toNat ∧ s.bits.toNat ≤ 8)
    (hl : ¬ (s.chLen.toNat % 4 = 0 ∧ s.chLen.toNat ≤ s.params.maxLen)) :
    exec .capacity s = .next (s.ended .lengthInvalid) :=
  (capacity_cases hf).exec_error (fun _ he => he.elim (fun h => absurd hb h.2) And.left) fun _ ht => hl ht.2.1

end

/-- Settles O21: the depth is the first condition of every case of the four commands. -/
theorem validateBitsOutcome : Obligations.ValidateBitsOutcome := fun _ hf =>
  ⟨exec_validateBits_ok hf, fun hb => ⟨exec_validateBits_bitsOutOfRange hf hb, exec_capacity_bitsOutOfRange hf hb,
    exec_writeHeader_bitsOutOfRange hf hb, exec_readPayload_bitsOutOfRange hf hb⟩⟩

/-! ### CAPACITY -/

/-- Settles O22: the two errors by the order of the checks; the results are read back from their registers because the
parameters bound the length, and so the capacity (`capacityBits_range`). -/
theorem capacityOutcome : Obligations.CapacityOutcome := by
  intro s hf hwf
  refine ⟨exec_capacity_bitsOutOfRange hf, exec_capacity_lengthInvalid hf, fun hb hl => ?_⟩
  obtain ⟨hlo, hhi⟩ := capacityBits_range (Params.maxLen_le hwf) hl.2 hb.1 hb.2
  have hbytes : capacityBytes s.chLen.toNat s.bits.toNat = capacityBits s.chLen.toNat s.bits.toNat / 8 := rfl
  exact ⟨_, _, exec_capacity_ok hf hb hl, toInt_ofInt_word (by omega) (by omega),
    toInt_ofInt_word (by omega) (by omega)⟩

/-! ### What the capacity depends on -/

/-- CAPACITY reads `CHLEN`, `BITS` and `MAXLEN` and nothing else (40_capacity.md R106): each of its three ends is chosen
by them, and so are the results of the last. -/
theorem exec_capacity_agree {s t s' t' : State} (hs : s.status.fatal = false) (ht : t.status.fatal = false)
    (hlen : s.chLen = t.chLen) (hbits : s.bits = t.bits) (hmax : s.params.maxLen = t.params.maxLen)
    (hxs : exec .capacity s = .next s') (hxt : exec .capacity t = .next t') :
    s'.status.err = t'.status.err ∧
      (s'.status.err = .ok → s'.capBits = t'.capBits ∧ s'.capBytes = t'.capBytes) := by
  by_cases hb : 1 ≤ s.bits.toNat ∧ s.bits.toNat ≤ 8
  · by_cases hl : s.chLen.toNat % 4 = 0 ∧ s.chLen.toNat ≤ s.params.maxLen
    · rw [exec_capacity_ok hs hb hl] at hxs
      rw [exec_capacity_ok ht (hbits ▸ hb) (hlen ▸ hmax ▸ hl)] at hxt
      cases hxs; cases hxt
      exact ⟨rfl, fun _ => by simp [hlen, hbits]⟩
    · rw [exec_capacity_lengthInvalid hs hb hl] at hxs
      rw [exec_capacity_lengthInvalid ht (hbits ▸ hb) (hlen ▸ hmax ▸ hl)] at hxt
      cases hxs; cases hxt
      exact ⟨rfl, nofun⟩
  · rw [exec_capacity_bitsOutOfRange hs hb] at hxs
    rw [exec_capacity_bitsOutOfRange ht (hbits ▸ hb)] at hxt
    cases hxs; cases hxt
    exact ⟨rfl, nofun⟩

theorem usablePixels_mono {L L' : Nat} (h : L ≤ L') : usablePixels L ≤ usablePixels L' := by
  unfold usablePixels
  omega

theorem usablePixels_nonneg {L : Nat} (h : 4 ≤ L) : 0 ≤ usablePixels L := by
  unfold usablePixels
  omega

theorem capacityBits_mono_length {L L' : Nat} (b : Nat) (h : L ≤ L') : capacityBits L b ≤ capacityBits L' b := by
  have := usablePixels_mono h
  exact mul_le_mul_of_nonneg_right (by omega) (Int.natCast_nonneg b)

/-- From one pixel on there is no negative number of pixels for a greater depth to multiply (40_capacity.md R105). -/
theorem capacityBits_mono_depth {L b b' : Nat} (hL : 4 ≤ L) (h : b ≤ b') : capacityBits L b ≤ capacityBits L b' := by
  have := usablePixels_nonneg hL
  exact mul_le_mul_of_nonneg_left (Int.ofNat_le.2 h) (by omega)

theorem capacityBytes_mono {L L' b b' : Nat} (h : capacityBits L b ≤ capacityBits L' b') :
    capacityBytes L b ≤ capacityBytes L' b' := Int.ediv_le_ediv (by decide) h

/-- Settles O23: dependence by the three ends of CAPACITY; growth in the length, then, from one pixel on, in the depth. -/
theorem capacityDependsOnLengthAndDepth : Obligations.CapacityDependsOnLengthAndDepth := by
  refine ⟨fun s t s' t' => exec_capacity_agree, fun L L' b _ _ hL _ _ => ?_, fun L L' b b' _ _ h4 hL _ hb _ => ?_⟩
  · have h := capacityBits_mono_length b hL
    exact ⟨h, capacityBytes_mono h⟩
  · have h := (capacityBits_mono_length b hL).trans (capacityBits_mono_depth (h4.trans hL) hb)
    exact ⟨h, capacityBytes_mono h⟩

/-! ### The fit law (40_capacity.md R104) -/

theorem usableChannels_eq {L : Nat} (hL : 4 ≤ L) : usableChannels L = (3 * (L / 4 - 1) : Nat) := by
  unfold usableChannels usablePixels
  omega

theorem le_capacityBytes_iff {x : Int} (L b : Nat) : x ≤ capacityBytes L b ↔ 8 * x ≤ capacityBits L b := by
  unfold capacityBytes
  omega

/-- A number of bits fits exactly when the channels it takes, `b` bits each, are there. -/
theorem le_capacityBits_iff {L b : Nat} (k : Nat) (hL : 4 ≤ L) (hb : 1 ≤ b) :
    (k : Int) ≤ capacityBits L b ↔ (((k + b - 1) / b : Nat) : Int) ≤ usableChannels L := by
  rw [capacityBits_eq b hL, usableChannels_eq hL, Int.ofNat_le, Int.ofNat_le, ← Nat.ceilDiv_eq_add_pred_div,
    ceilDiv_le_iff_le_mul hb, Nat.mul_comm]

/-- Settles O24: bytes to bits by the floor division, bits to channels by the ceiling division, and the surplus is the
remainder of the former. -/
theorem fitLaw : Obligations.FitLaw := by
  intro L b n _ hL hb _
  have hbytes : capacityBytes L b = capacityBits L b / 8 := rfl
  refine ⟨le_capacityBytes_iff L b, ?_, by omega, by omega, by omega⟩
  simpa using le_capacityBits_iff (8 * n) hL hb

end Sys2Proof.Machine

/-! PROOFS. The statements of 41_filepacker.md: PACK, PACK_PAD, UNPACK, and the laws that join them. -/

namespace Sys2Proof.Machine

/-! ### The checks of PACK and PACK_PAD -/

theorem packTotal_eq (s : State) : packTotal s = 5 + s.nameLen.toNat + s.contLen.toNat := by
  unfold packTotal packedLength
  omega

theorem packCheck_invalidName {s : State} (hn : ¬ (1 ≤ s.nameLen.toNat ∧ s.nameLen.toNat ≤ 255)) :
    packCheck s = some .invalidName := by
  cases h : packCheck s with
  | none =>
    obtain ⟨h1, h255, -⟩ := packCheck_none.1 h
    exact absurd ⟨h1, h255⟩ hn
  | some e =>
    rcases packCheck_some h with ⟨rfl, -⟩ | ⟨-, hn', -⟩
    · rfl
    · exact absurd hn' hn

theorem packCheck_lengthInvalid {s : State} (hn : 1 ≤ s.nameLen.toNat ∧ s.nameLen.toNat ≤ 255)
    (hT : s.params.maxLen < 5 + s.nameLen.toNat + s.contLen.toNat) : packCheck s = some .lengthInvalid := by
  cases h : packCheck s with
  | none =>
    obtain ⟨-, -, hfit⟩ := packCheck_none.1 h
    exact absurd hfit (Nat.not_le.2 hT)
  | some e =>
    rcases packCheck_some h with ⟨-, hn'⟩ | ⟨rfl, -⟩
    · exact absurd hn hn'
    · rfl

theorem packCheck_congr {s t : State} (hmax : s.params.maxLen = t.params.maxLen) (hname : s.nameLen = t.nameLen)
    (hcont : s.contLen = t.contLen) : packCheck s = packCheck t := by
  unfold packCheck packTotal
  rw [hmax, hname, hcont]

/-- The error PACK_PAD raises, if any: `PackCheck()`, then the two tests of `REQLEN` (41_filepacker.md R114). -/
def packPadCheck (s : State) : Option ErrCode :=
  (packCheck s).or
    (if s.reqLen.toInt < packTotal s then some .lengthTooSmall
      else if s.params.maxLen < s.reqLen.toInt then some .lengthInvalid else none)

theorem packPadCheck_of_some {s : State} {e : ErrCode} (h : packCheck s = some e) : packPadCheck s = some e := by
  rw [packPadCheck, h, Option.some_or]

theorem packPadCheck_of_none {s : State} (h : packCheck s = none) :
    packPadCheck s = if s.reqLen.toInt < packTotal s then some .lengthTooSmall
      else if s.params.maxLen < s.reqLen.toInt then some .lengthInvalid else none := by
  rw [packPadCheck, h, Option.none_or]

theorem packPadCheck_congr {s t : State} (hmax : s.params.maxLen = t.params.maxLen) (hname : s.nameLen = t.nameLen)
    (hcont : s.contLen = t.contLen) (hreq : s.reqLen = t.reqLen) : packPadCheck s = packPadCheck t := by
  simp only [packPadCheck, packCheck_congr hmax hname hcont, packTotal_eq, hmax, hname, hcont, hreq]

/-! ### The packed file -/

/-- Byte `k` of the packed file of the operands, padded with zeros without end (30_encoding.md R73). -/
def packedByte (s : State) (k : Nat) : Byte :=
  if k = 0 then BitVec.ofNat 8 s.nameLen.toNat
  else if k < 1 + s.nameLen.toNat then readCell s .name (k - 1)
  else if k < 5 + s.nameLen.toNat then (be32 s.contLen.toNat).getD (k - (1 + s.nameLen.toNat)) 0
  else if k < 5 + s.nameLen.toNat + s.contLen.toNat then readCell s .cont (k - (5 + s.nameLen.toNat))
  else 0

theorem packedByte_padding {s : State} {k : Nat} (hk : 5 + s.nameLen.toNat + s.contLen.toNat ≤ k) :
    packedByte s k = 0 := by
  rw [packedByte, if_neg (by omega), if_neg (by omega), if_neg (by omega), if_neg (by omega)]

theorem packedByte_congr {s t : State} (hname : s.nameLen = t.nameLen) (hcont : s.contLen = t.contLen)
    (hnames : ∀ k, k < s.nameLen.toNat → readCell s .name k = readCell t .name k)
    (hconts : ∀ k, k < s.contLen.toNat → readCell s .cont k = readCell t .cont k) (k : Nat) :
    packedByte s k = packedByte t k := by
  simp only [packedByte, ← hname, ← hcont]
  split
  · rfl
  · split
    · exact hnames _ (by omega)
    · split
      · rfl
      · split
        · exact hconts _ (by omega)
        · rfl

/-- A space `PKT` that holds the bytes of the packed file holds its fields. -/
theorem packedIn_of_packedByte {s t : State}
    (h : ∀ k, k < 5 + s.nameLen.toNat + s.contLen.toNat → readCell t .pkt k = packedByte s k) : PackedIn s t := by
  have hfield : ∀ j, j < 4 → readCell t .pkt (1 + j + s.nameLen.toNat) = (be32 s.contLen.toNat).getD j 0 := by
    intro j hj
    rw [h _ (by omega), packedByte, if_neg (by omega), if_neg (by omega), if_pos (by omega)]
    congr 1
    omega
  refine ⟨?_, fun k hk => ?_, hfield 0 (by decide), hfield 1 (by decide), hfield 2 (by decide), hfield 3 (by decide),
    fun k hk => ?_⟩
  · rw [h _ (by omega), packedByte, if_pos rfl]
  · rw [h _ (by omega), packedByte, if_neg (by omega), if_pos (by omega), Nat.add_sub_cancel_left]
  · rw [h _ (by omega), packedByte, if_neg (by omega), if_neg (by omega), if_neg (by omega), if_pos (by omega),
      Nat.add_sub_cancel_left]

/-- How PACK and PACK_PAD complete: the packed file of `s`, padded to `len` bytes, stands in `PKT`, and nothing but
`PKT`, `PKTLEN` and `STATUS` has changed. -/
structure Packed (s : State) (len : Word) (t : State) : Prop where
  kept : t = { s.ended .ok with pktLen := len, pkt := t.pkt }
  bytes : ∀ k, k < len.toNat → readCell t .pkt k = packedByte s k
  rest : ∀ k, len.toNat ≤ k → readCell t .pkt k = readCell s .pkt k

theorem Packed.pktLen {s t : State} {len : Word} (h : Packed s len t) : t.pktLen = len := by rw [h.kept]
theorem Packed.ok {s t : State} {len : Word} (h : Packed s len t) : t.status.err = .ok := by rw [h.kept]; rfl
theorem Packed.params {s t : State} {len : Word} (h : Packed s len t) : t.params = s.params := by rw [h.kept]; rfl

theorem Packed.packedIn {s t : State} {len : Word} (h : Packed s len t)
    (hlen : 5 + s.nameLen.toNat + s.contLen.toNat ≤ len.toNat) : PackedIn s t :=
  packedIn_of_packedByte fun k hk => h.bytes k (by omega)

@[simp] theorem packedByte_started (s : State) (k : Nat) : packedByte s.started k = packedByte s k := by
  simp only [packedByte, readCell_started]
  rfl

theorem readCell_packBody_packedByte {s : State} {k : Nat} (hk : k < 5 + s.nameLen.toNat + s.contLen.toNat) :
    readCell (packBody s) .pkt k = packedByte s k := by
  rw [readCell_packBody, if_pos rfl, packedByte, if_pos hk, if_pos hk]

/-- `PackBody()` and the padding behind it. -/
theorem packed_packBody {s : State} {len : Word} (hlen : packTotal s ≤ len.toNat) :
    Packed s len (((writeBytes (packBody s.started) .pkt (packTotal s)
      (List.replicate (len.toNat - packTotal s) 0)).withPktLen len).withStatus (s.status.finish .ok)) := by
  have hT := packTotal_eq s
  refine ⟨by rw [writeBytes_eq, packBody_eq]; rfl, fun k hk => ?_, fun k hk => ?_⟩
  · rw [readCell_withStatus, readCell_withPktLen, readCell_writeBytes, List.length_replicate]
    by_cases hpad : packTotal s ≤ k
    · have hend : k < packTotal s + (len.toNat - packTotal s) := by omega
      rw [if_pos ⟨rfl, hpad, hend⟩, List.getD_replicate _ (Nat.sub_lt_sub_right hpad hk), packedByte_padding (hT ▸ hpad)]
    · rw [if_neg fun h => hpad h.2.1, readCell_packBody_packedByte, packedByte_started]
      exact hT ▸ Nat.not_le.1 hpad
  · rw [readCell_withStatus, readCell_withPktLen, readCell_writeBytes, List.length_replicate, if_neg (by omega),
      readCell_packBody_kept, readCell_started]
    exact fun _ => hT ▸ hlen.trans hk

/-! ### PACK and PACK_PAD, whole -/

/-- What command `i` does whose checks give `check` and which builds a packed file of `len` bytes. -/
def PacksWith (i : Instr) (s : State) (check : Option ErrCode) (len : Word) : Prop :=
  match check with
  | some e => e ≠ .ok ∧ exec i s = .next (s.ended e)
  | none   => ∃ t, exec i s = .next t ∧ Packed s len t

/-- With a legal name the packed length is far below `2^64` (41_filepacker.md R111). -/
theorem toNat_ofNat_packTotal {s : State} (hn : s.nameLen.toNat ≤ 255) :
    (BitVec.ofNat 64 (packTotal s)).toNat = 5 + s.nameLen.toNat + s.contLen.toNat := by
  have := s.contLen.isLt
  rw [packTotal_eq, BitVec.toNat_ofNat, Nat.mod_eq_of_lt (by omega)]

theorem toNat_eq_toInt_of_nonneg {w : Word} (h : 0 ≤ w.toInt) : (w.toNat : Int) = w.toInt :=
  (BitVec.toInt_eq_toNat_of_msb (BitVec.msb_eq_false_iff_two_mul_lt.2 (BitVec.toInt_pos_iff.1 h))).symm

theorem pack_packsWith {s : State} (hf : s.status.fatal = false) :
    PacksWith .pack s (packCheck s) (BitVec.ofNat 64 (packTotal s)) := by
  obtain ⟨t, ht, ⟨e, hok, -, he, rfl⟩ | ⟨hp, rfl⟩⟩ := pack_cases hf
  · rw [he]
    exact ⟨hok, ht⟩
  · obtain ⟨-, h255, -⟩ := packCheck_none.1 hp
    have hlen := (toNat_ofNat_packTotal h255).trans (packTotal_eq s).symm
    rw [hp]
    refine ⟨_, ht, ?_⟩
    simpa [hlen, writeBytes] using packed_packBody hlen.ge

theorem packPad_packsWith {s : State} (hf : s.status.fatal = false) :
    PacksWith .packPad s (packPadCheck s) s.reqLen := by
  obtain ⟨t, ht, ⟨e, hok, -, he, rfl⟩ | ⟨hp, hlo, hhi, rfl⟩⟩ := packPad_cases hf
  · have hcheck : packPadCheck s = some e := by
      rcases he with h | ⟨h, ⟨rfl, hlt⟩ | ⟨rfl, hle, hlt⟩⟩
      · exact packPadCheck_of_some h
      · rw [packPadCheck_of_none h, if_pos hlt]
      · rw [packPadCheck_of_none h, if_neg (Int.not_lt.2 hle), if_pos hlt]
    rw [hcheck]
    exact ⟨hok, ht⟩
  · have hcheck : packPadCheck s = none := by
      rw [packPadCheck_of_none hp, if_neg (Int.not_lt.2 hlo), if_neg (Int.not_lt.2 hhi)]
    have hreq := toNat_eq_toInt_of_nonneg (w := s.reqLen) (by omega)
    rw [hcheck]
    refine ⟨_, ht, ?_⟩
    rw [show s.reqLen.toInt.toNat = s.reqLen.toNat by omega]
    exact packed_packBody (by omega)

theorem exec_pack_ok {s : State} (hf : s.status.fatal = false) (hn : 1 ≤ s.nameLen.toNat ∧ s.nameLen.toNat ≤ 255)
    (hT : 5 + s.nameLen.toNat + s.contLen.toNat ≤ s.params.maxLen) :
    ∃ t, exec .pack s = .next t ∧ Packed s (BitVec.ofNat 64 (packTotal s)) t := by
  have h := pack_packsWith hf
  rw [packCheck_none.2 ⟨hn.1, hn.2, hT⟩] at h
  exact h

theorem exec_packPad_ok {s : State} (hf : s.status.fatal = false) (hn : 1 ≤ s.nameLen.toNat ∧ s.nameLen.toNat ≤ 255)
    (hT : 5 + s.nameLen.toNat + s.contLen.toNat ≤ s.params.maxLen)
    (hlo : 5 + (s.nameLen.toNat : Int) + s.contLen.toNat ≤ s.reqLen.toInt) (hhi : s.reqLen.toInt ≤ s.params.maxLen) :
    ∃ t, exec .packPad s = .next t ∧ Packed s s.reqLen t := by
  have hTotal := packTotal_eq s
  have h := packPad_packsWith hf
  rw [packPadCheck_of_none (packCheck_none.2 ⟨hn.1, hn.2, hT⟩), if_neg (by omega), if_neg (by omega)] at h
  exact h

/-- Settles O25: the two errors are the check's; a completed PACK leaves a packed file with no padding. -/
theorem packOutcome : Obligations.PackOutcome := by
  intro s hf
  have h := pack_packsWith hf
  refine ⟨fun hn => ?_, fun hn hT => ?_, fun hn hT => ?_⟩
  · rw [packCheck_invalidName hn] at h
    exact h.2
  · rw [packCheck_lengthInvalid hn hT] at h
    exact h.2
  · obtain ⟨t, ht, hpacked⟩ := exec_pack_ok hf hn hT
    have hlen := toNat_ofNat_packTotal hn.2
    refine ⟨t, ht, ?_, ?_, hpacked.packedIn hlen.ge, fun k hk => hpacked.rest k (hlen.trans_le hk)⟩
    · rw [hpacked.pktLen]
      exact hpacked.kept
    · rw [hpacked.pktLen, hlen]

/-- Settles O26: the errors are the check's, in its order; `REQLEN` is not negative once it is at least `T`, so it is the
length as it stands. -/
theorem packPadOutcome : Obligations.PackPadOutcome := by
  intro s hf
  have h := packPad_packsWith hf
  have hTotal := packTotal_eq s
  refine ⟨fun hn => ?_, fun hn => ⟨fun hT => ?_, fun hT => ⟨fun hlt => ?_, fun hle hlt => ?_, fun hlo hhi => ?_⟩⟩⟩
  · rw [packPadCheck_of_some (packCheck_invalidName hn)] at h
    exact h.2
  · rw [packPadCheck_of_some (packCheck_lengthInvalid hn hT)] at h
    exact h.2
  · rw [packPadCheck_of_none (packCheck_none.2 ⟨hn.1, hn.2, hT⟩), if_pos (by omega)] at h
    exact h.2
  · rw [packPadCheck_of_none (packCheck_none.2 ⟨hn.1, hn.2, hT⟩), if_neg (by omega), if_pos hlt] at h
    exact h.2
  · obtain ⟨t, ht, hpacked⟩ := exec_packPad_ok hf hn hT hlo hhi
    have hreq := toNat_eq_toInt_of_nonneg (w := s.reqLen) (by omega)
    refine ⟨t, ht, hpacked.kept, hpacked.packedIn (by omega), fun k hk hlt => ?_, fun k hk => hpacked.rest k (by omega)⟩
    rw [hpacked.bytes k (by omega), packedByte_padding hk]

/-! ### Purity (41_filepacker.md R116) -/

/-- What R116 lists as untouched. -/
theorem PacksWith.frame {i : Instr} {s s' : State} {check : Option ErrCode} {len : Word}
    (h : PacksWith i s check len) (hx : exec i s = .next s') :
    s'.env = s.env ∧ s'.chan = s.chan ∧ s'.pay = s.pay ∧ s'.cur = s.cur ∧ s'.bt = s.bt ∧ s'.acc = s.acc ∧
      s'.accBits = s.accBits ∧ s'.status.phase = s.status.phase ∧ s'.capBits = s.capBits ∧ s'.capBytes = s.capBytes := by
  cases check with
  | some e =>
    rw [h.2] at hx
    cases hx
    exact ⟨rfl, rfl, rfl, rfl, rfl, rfl, rfl, rfl, rfl, rfl⟩
  | none =>
    obtain ⟨t, ht, hpacked⟩ := h
    rw [ht] at hx
    cases hx
    rw [hpacked.kept]
    exact ⟨rfl, rfl, rfl, rfl, rfl, rfl, rfl, rfl, rfl, rfl⟩

/-- The same checks, the same length and the same packed bytes make the same result. -/
theorem PacksWith.agree {i : Instr} {s t s' t' : State} {check : Option ErrCode} {len : Word}
    (hs : PacksWith i s check len) (ht : PacksWith i t check len) (hbytes : ∀ k, packedByte s k = packedByte t k)
    (hxs : exec i s = .next s') (hxt : exec i t = .next t') :
    s'.status.err = t'.status.err ∧
      (s'.status.err = .ok →
        s'.pktLen = t'.pktLen ∧ ∀ k, k < s'.pktLen.toNat → readCell s' .pkt k = readCell t' .pkt k) := by
  cases check with
  | some e =>
    obtain ⟨hok, hs⟩ := hs
    rw [hs] at hxs
    rw [ht.2] at hxt
    cases hxs; cases hxt
    exact ⟨rfl, fun he => absurd he hok⟩
  | none =>
    obtain ⟨u, hu, hpu⟩ := hs
    obtain ⟨v, hv, hpv⟩ := ht
    rw [hu] at hxs
    rw [hv] at hxt
    cases hxs; cases hxt
    refine ⟨hpu.ok.trans hpv.ok.symm, fun _ => ⟨hpu.pktLen.trans hpv.pktLen.symm, fun k hk => ?_⟩⟩
    rw [hpu.pktLen] at hk
    rw [hpu.bytes k hk, hpv.bytes k hk, hbytes]

/-- Settles O28: the checks, the length and the packed bytes are functions of the operands. -/
theorem packingIsPure : Obligations.PackingIsPure := by
  intro i s t s' t' hi hfs hft hmax hname hcont hreq hnames hconts hxs hxt
  have hbytes := packedByte_congr hname hcont hnames hconts
  obtain ⟨check, len, hs, ht⟩ : ∃ check len, PacksWith i s check len ∧ PacksWith i t check len := by
    rcases hi with rfl | rfl
    · have ht := pack_packsWith hft
      rw [← packCheck_congr hmax hname hcont, packTotal_eq, ← hname, ← hcont, ← packTotal_eq] at ht
      exact ⟨_, _, pack_packsWith hfs, ht⟩
    · have ht := packPad_packsWith hft
      rw [← packPadCheck_congr hmax hname hcont (hreq rfl), ← hreq rfl] at ht
      exact ⟨_, _, packPad_packsWith hfs, ht⟩
  obtain ⟨herr, hsame⟩ := hs.agree ht hbytes hxs hxt
  exact ⟨herr, hsame, hs.frame hxs⟩

/-! ### UNPACK -/

/-- How UNPACK completes, with the decoded lengths `n` and `m` (41_filepacker.md R118). -/
structure Unpacked (s : State) (n m : Nat) (t : State) : Prop where
  kept : t = { s.ended .ok with nameLen := t.nameLen, contLen := t.contLen, name := t.name, cont := t.cont }
  nameLen : t.nameLen.toNat = n
  contLen : t.contLen.toNat = m
  name : ∀ k, k < n → readCell t .name k = readCell s .pkt (1 + k)
  nameRest : ∀ k, n ≤ k → readCell t .name k = readCell s .name k
  cont : ∀ k, k < m → readCell t .cont k = readCell s .pkt (5 + n + k)
  contRest : ∀ k, m ≤ k → readCell t .cont k = readCell s .cont k

theorem Unpacked.ok {s t : State} {n m : Nat} (h : Unpacked s n m t) : t.status.err = .ok := by rw [h.kept]; rfl

theorem unpacked_unpackStore {s : State} {n m : Nat} (hn : n < 2 ^ 8) (hm : m < 2 ^ 32) :
    Unpacked s n m ((unpackStore s.started n m).withStatus (s.status.finish .ok)) where
  kept := by rw [unpackStore_eq]; rfl
  nameLen := by
    rw [unpackStore_eq]
    exact (BitVec.toNat_ofNat n 64).trans (Nat.mod_eq_of_lt (by omega))
  contLen := by
    rw [unpackStore_eq]
    exact (BitVec.toNat_ofNat m 32).trans (Nat.mod_eq_of_lt hm)
  name k hk := by simp [readCell_unpackStore, hk]
  nameRest k hk := by simp [readCell_unpackStore, Nat.not_lt.2 hk]
  cont k hk := by simp [readCell_unpackStore, hk]
  contRest k hk := by simp [readCell_unpackStore, Nat.not_lt.2 hk]

/-- UNPACK as `unpack_cases` has it, with the end state described. -/
theorem unpack_outcome {s : State} {n m : Nat} (hf : s.status.fatal = false) (hn : n = (readCell s .pkt 0).toNat)
    (hm : m = packedContentLength s n) :
    Outcome .unpack s
      (fun e => (e = .lengthInvalid ∧ s.params.maxLen < s.pktLen.toNat) ∨
        (e = .corruptHeader ∧ s.pktLen.toNat ≤ s.params.maxLen ∧ (n = 0 ∨ s.pktLen.toNat < n + 5 + m)))
      (fun t => s.pktLen.toNat ≤ s.params.maxLen ∧ 1 ≤ n ∧ n + 5 + m ≤ s.pktLen.toNat ∧ Unpacked s n m t) := by
  obtain ⟨t, ht, herr | ⟨hle, h1, hfit, rfl⟩⟩ := unpack_cases hf hn hm
  · exact ⟨t, ht, .inl herr⟩
  · have hn8 : n < 2 ^ 8 := hn ▸ (readCell s .pkt 0).isLt
    have hm32 : m < 2 ^ 32 := hm ▸ unbe32_lt _ _ _ _
    exact ⟨_, ht, .inr ⟨hle, h1, hfit, unpacked_unpackStore hn8 hm32⟩⟩

theorem exec_unpack_ok {s : State} {n m : Nat} (hf : s.status.fatal = false) (hn : n = (readCell s .pkt 0).toNat)
    (hm : m = packedContentLength s n) (hle : s.pktLen.toNat ≤ s.params.maxLen) (h1 : 1 ≤ n)
    (hfit : n + 5 + m ≤ s.pktLen.toNat) : ∃ t, exec .unpack s = .next t ∧ Unpacked s n m t := by
  obtain ⟨t, ht, -, -, -, h⟩ := (unpack_outcome hf hn hm).ok fun e he => by omega
  exact ⟨t, ht, h⟩

/-- Settles O27: a buffer too long ends with one error, a buffer too short for its header or its content with the other,
and what is left completes. -/
theorem unpackOutcome : Obligations.UnpackOutcome := by
  intro s n m hf hn hm
  have o := unpack_outcome hf hn hm
  refine ⟨fun hlt => o.exec_error (fun e he => ?_) fun t ht => ?_, fun hle =>
    ⟨fun hbad => o.exec_error (fun e he => ?_) fun t ht => ?_, fun h1 hfit => ?_⟩⟩
  · exact he.elim And.left fun h => absurd h.2.1 (Nat.not_le.2 hlt)
  · exact absurd ht.1 (Nat.not_le.2 hlt)
  · exact he.elim (fun h => absurd hle (Nat.not_le.2 h.2)) And.left
  · obtain ⟨-, h1, hfit, -⟩ := ht
    omega
  · obtain ⟨t, ht, h⟩ := exec_unpack_ok hf hn hm hle h1 hfit
    exact ⟨t, ht, h.kept, h.nameLen, h.contLen, h.name, h.nameRest, h.cont, h.contRest⟩

/-! ### The laws (41_filepacker.md R120, R121) -/

/-- UNPACK on a buffer that holds the packed file of `s`. -/
theorem exec_unpack_packedIn {s v : State} (hf : v.status.fatal = false) (h1 : 1 ≤ s.nameLen.toNat)
    (h255 : s.nameLen.toNat ≤ 255) (hle : v.pktLen.toNat ≤ v.params.maxLen)
    (hfit : 5 + s.nameLen.toNat + s.contLen.toNat ≤ v.pktLen.toNat) (hp : PackedIn s v) :
    ∃ u, exec .unpack v = .next u ∧ u.status.err = .ok ∧ u.nameLen = s.nameLen ∧ u.contLen = s.contLen ∧
      (∀ k, k < s.nameLen.toNat → readCell u .name k = readCell s .name k) ∧
      ∀ k, k < s.contLen.toNat → readCell u .cont k = readCell s .cont k := by
  obtain ⟨hlen, hname, hb0, hb1, hb2, hb3, hcont⟩ := hp
  have hn : s.nameLen.toNat = (readCell v .pkt 0).toNat := by
    rw [hlen, BitVec.toNat_ofNat, Nat.mod_eq_of_lt (by omega)]
  have hm : s.contLen.toNat = packedContentLength v s.nameLen.toNat := by
    rw [packedContentLength, hb0, hb1, hb2, hb3, unbe32_be32 s.contLen.isLt]
  obtain ⟨u, hu, hun⟩ := exec_unpack_ok hf hn hm hle h1 (by omega)
  exact ⟨u, hu, hun.ok, BitVec.eq_of_toNat_eq hun.nameLen, BitVec.eq_of_toNat_eq hun.contLen,
    fun k hk => (hun.name k hk).trans (hname k hk), fun k hk => (hun.cont k hk).trans (hcont k hk)⟩

/-- PACK and PACK_PAD complete on operands that pass their checks, with a length from `T` to `MAXLEN`. -/
theorem exec_packing_ok {i : Instr} {s : State} (hf : s.status.fatal = false) (h1 : 1 ≤ s.nameLen.toNat)
    (h255 : s.nameLen.toNat ≤ 255) (hT : 5 + s.nameLen.toNat + s.contLen.toNat ≤ s.params.maxLen)
    (hi : i = .pack ∨ (i = .packPad ∧ 5 + (s.nameLen.toNat : Int) + s.contLen.toNat ≤ s.reqLen.toInt ∧
      s.reqLen.toInt ≤ (s.params.maxLen : Int))) :
    ∃ (t : State) (len : Word), exec i s = .next t ∧ Packed s len t ∧
      5 + s.nameLen.toNat + s.contLen.toNat ≤ len.toNat ∧ len.toNat ≤ s.params.maxLen := by
  rcases hi with rfl | ⟨rfl, hlo, hhi⟩
  · obtain ⟨t, ht, hp⟩ := exec_pack_ok hf ⟨h1, h255⟩ hT
    have hlen := toNat_ofNat_packTotal h255
    exact ⟨t, _, ht, hp, hlen.ge, hlen.trans_le hT⟩
  · obtain ⟨t, ht, hp⟩ := exec_packPad_ok hf ⟨h1, h255⟩ hT hlo hhi
    have hreq := toNat_eq_toInt_of_nonneg (w := s.reqLen) (by omega)
    exact ⟨t, _, ht, hp, by omega, by omega⟩

/-- Settles O29: whatever holds the packed bytes holds the packed file, and UNPACK reads its fields back. -/
theorem packThenUnpackReturnsTheFile : Obligations.PackThenUnpackReturnsTheFile := by
  intro i s hf h1 h255 hT hi
  obtain ⟨t, len, ht, hp, hlo, hhi⟩ := exec_packing_ok hf h1 h255 hT hi
  refine ⟨t, ht, hp.ok, fun v hfv hmax hlen hcells => ?_⟩
  rw [hp.pktLen] at hlen hcells
  rw [hp.params] at hmax
  refine exec_unpack_packedIn hfv h1 h255 (by rwa [hlen, hmax]) (by rwa [hlen]) (packedIn_of_packedByte fun k hk => ?_)
  rw [hcells k (by omega), hp.bytes k (by omega)]

/-- Settles O30: every cell UNPACK reads lies below `n + 5 + m`, the end of the content. -/
theorem unpackIgnoresThePadding : Obligations.UnpackIgnoresThePadding := by
  intro s t s' hfs hft hxs hok hle hfit hcells
  rcases (unpack_outcome hfs rfl rfl).next hxs with ⟨e, hne, -, -, rfl⟩ | ⟨-, h1, -, hs⟩
  · exact absurd hok hne
  generalize hn : (readCell s .pkt 0).toNat = n at h1 hs
  generalize hm : packedContentLength s n = m at hs
  rw [hs.nameLen, hs.contLen] at hfit hcells
  have hn' : n = (readCell t .pkt 0).toNat := by rw [hcells 0 (by omega), hn]
  have hm' : m = packedContentLength t n := by
    rw [← hm, packedContentLength, packedContentLength, hcells _ (by omega), hcells _ (by omega), hcells _ (by omega),
      hcells _ (by omega)]
  obtain ⟨t', ht', ht⟩ := exec_unpack_ok hft hn' hm' hle h1 hfit
  refine ⟨t', ht', ht.ok, BitVec.eq_of_toNat_eq (ht.nameLen.trans hs.nameLen.symm),
    BitVec.eq_of_toNat_eq (ht.contLen.trans hs.contLen.symm), fun k hk => ?_, fun k hk => ?_⟩
  · rw [hs.nameLen] at hk
    rw [ht.name k hk, hs.name k hk, hcells _ (by omega)]
  · rw [hs.contLen] at hk
    rw [ht.cont k hk, hs.cont k hk, hcells _ (by omega)]

end Sys2Proof.Machine

/-! PROOFS. The statements of 42_cursor_write.md: WRITE_CHANNEL and its invariants, WRITE_HEADER, and WRITE_PAYLOAD with
its sequencing, its errors, its end state and its draws. -/

namespace Sys2Proof.Machine

/-! ### WRITE_CHANNEL (42_cursor_write.md R130, R131) -/

/-- Replacing the low `w` bits of a byte, as numbers: the bits above are kept, the value fills the rest. -/
theorem toNat_replaceLowBits (c v : Byte) {w : Nat} (hv : v.toNat < 2 ^ w) :
    ((c &&& ~~~ mask 8 w) ||| v).toNat = c.toNat / 2 ^ w * 2 ^ w + v.toNat := by
  have hsum : c.toNat / 2 ^ w * 2 ^ w + v.toNat = (c.toNat >>> w) <<< w ||| v.toNat := by
    rw [← Nat.shiftLeft_add_eq_or_of_lt hv, Nat.shiftLeft_eq, Nat.shiftRight_eq_div_pow]
  rw [hsum, BitVec.toNat_or]
  congr 1
  refine Nat.eq_of_testBit_eq fun i => ?_
  rw [BitVec.testBit_toNat, BitVec.getLsbD_and, BitVec.getLsbD_not, Nat.testBit_shiftLeft, Nat.testBit_shiftRight]
  by_cases hi : i < 8
  · rw [getLsbD_mask 8 w i hi, BitVec.getLsbD]
    by_cases hiw : i < w
    · simp [hiw]
    · have hwi : w ≤ i := Nat.not_lt.1 hiw
      simp [hi, hwi]
  · have hbit : c.toNat.testBit i = false := c.getLsbD_of_ge i (Nat.not_lt.1 hi)
    by_cases hwi : w ≤ i
    · simp [hi, hwi, hbit]
    · simp [hi, hwi]

/-- How WRITE_CHANNEL completes: the channel under the cursor takes the value, an alpha channel behind it is blanked and
stepped over, and nothing but the cursor and these cells has changed. -/
structure ChannelWritten (v : Byte) (w : Nat) (s t : State) : Prop where
  kept : t = { s with cur := t.cur, chan := t.chan }
  cur : t.cur.toNat = if (s.cur.toNat + 1) % 4 = 3 then s.cur.toNat + 2 else s.cur.toNat + 1
  cell : readCell t .chan s.cur.toNat = (readCell s .chan s.cur.toNat &&& ~~~ mask 8 w) ||| v
  alpha : (s.cur.toNat + 1) % 4 = 3 → readCell t .chan (s.cur.toNat + 1) = s.params.alphaBlank
  rest : ∀ k, k ≠ s.cur.toNat → ¬ (k = s.cur.toNat + 1 ∧ k % 4 = 3) → readCell t .chan k = readCell s .chan k

theorem writeChannel_channelWritten {s : State} (v : Byte) (w : Nat) (hlt : s.cur.toNat < s.chLen.toNat)
    (hwrap : s.cur.toNat + 2 < 2 ^ 64) : ∃ t, writeChannel v w s = .done t ∧ ChannelWritten v w s t := by
  refine ⟨_, writeChannel_inside v w hlt, ?_⟩
  have hword : ∀ n, n ≤ s.cur.toNat + 2 → (BitVec.ofNat 64 n).toNat = n := fun n hn => by
    rw [BitVec.toNat_ofNat, Nat.mod_eq_of_lt (by omega)]
  by_cases ha : (s.cur.toNat + 1) % 4 = 3
  · rw [if_pos ha]
    refine ⟨rfl, ?_, ?_, fun _ => ?_, fun k hk hka => ?_⟩
    · rw [if_pos ha]
      exact hword _ (Nat.le_refl _)
    · simp [readCell_writeCell]
    · simp
    · have hk1 : k ≠ s.cur.toNat + 1 := fun h => hka ⟨h, h ▸ ha⟩
      simp [readCell_writeCell, hk, hk1]
  · rw [if_neg ha]
    refine ⟨rfl, ?_, ?_, fun h => absurd h ha, fun k hk _ => ?_⟩
    · rw [if_neg ha]
      exact hword _ (Nat.le_succ _)
    · simp
    · simp [readCell_writeCell, hk]

/-- A completed WRITE_CHANNEL started inside the buffer. -/
theorem lt_chLen_of_writeChannel_done {v : Byte} {w : Nat} {s t : State} (h : writeChannel v w s = .done t) :
    s.cur.toNat < s.chLen.toNat := by
  by_contra hlt
  rw [writeChannel_overflow v w (Nat.not_lt.1 hlt)] at h
  cases h

/-- Settles O31: the error at the end of the buffer, and the completed call with the byte it stores as a number. -/
theorem writeChannelOutcome : Obligations.WriteChannelOutcome := by
  intro v width s _ _ hv
  refine ⟨writeChannel_overflow v width, fun hlt hwrap => ?_⟩
  obtain ⟨t, ht, hw⟩ := writeChannel_channelWritten v width hlt hwrap
  refine ⟨t, ht, hw.kept, hw.cur, ?_, hw.alpha, hw.rest⟩
  rw [hw.cell, toNat_replaceLowBits _ _ hv]

/-- Settles O32: the call started inside a buffer of whole pixels, so the cursor cannot wrap, and where it goes next is
arithmetic modulo 4. -/
theorem writeChannelCursorInvariants : Obligations.WriteChannelCursorInvariants := by
  intro v width s t h4 hc h
  have hlt := lt_chLen_of_writeChannel_done h
  have hword := s.chLen.isLt
  obtain ⟨t', ht', hw⟩ := writeChannel_channelWritten v width hlt (by omega)
  obtain rfl : t' = t := by rw [h] at ht'; cases ht'; rfl
  have hcur := hw.cur
  rw [← BitVec.toNat_inj]
  by_cases ha : (s.cur.toNat + 1) % 4 = 3
  · rw [if_pos ha] at hcur
    omega
  · rw [if_neg ha] at hcur
    omega

/-! ### WRITE_HEADER (42_cursor_write.md R136) -/

/-- The second error of WRITE_HEADER comes after the first: only with a legal depth. -/
theorem exec_writeHeader_lengthInvalid {s : State} (hf : s.status.fatal = false)
    (hb : 1 ≤ s.bits.toNat ∧ s.bits.toNat ≤ 8) (hl : ¬ CursorBuffer s) :
    exec .writeHeader s = .next (s.ended .lengthInvalid) :=
  (writeHeader_cases hf).exec_error (fun _ he => he.elim (fun h => absurd hb h.2) And.left) fun _ ht => hl ht.2.1

/-- Settles O33: the two errors by the order of the checks; the header bits are the three low bits of `BITS - 1`, the most
significant in channel 0. -/
theorem writeHeaderOutcome : Obligations.WriteHeaderOutcome := by
  intro s hf
  refine ⟨exec_writeHeader_bitsOutOfRange hf, fun hb => ⟨exec_writeHeader_lengthInvalid hf hb, fun hl => ?_⟩⟩
  obtain ⟨t, ht, -, -, he, -, hcell⟩ := (writeHeader_cases hf).ok fun e he => by
    rcases he with ⟨-, he⟩ | ⟨-, -, he⟩
    · exact he hb
    · exact he hl
  have hbt : t.bt = BitVec.ofNat 4 s.bits.toNat := by rw [he]; rfl
  have hheader : ∀ k, k < 3 → (readCell t .chan k).toNat =
      (readCell s .chan k).toNat / 2 * 2 + (s.bits.toNat - 1) / 2 ^ (2 - k) % 2 := fun k hk => by
    rw [hcell, if_pos hk, toNat_headerChannel]
  refine ⟨t, ht, ?_, ?_, hheader 0 (by decide), hheader 1 (by decide), ?_, ?_, fun k hk => ?_⟩
  · rw [hbt]
    exact he
  · rw [hbt, BitVec.toNat_ofNat, Nat.mod_eq_of_lt (by omega)]
  · simpa using hheader 2 (by decide)
  · exact hcell 3
  · rw [hcell, if_neg (by omega), if_neg (by omega)]

/-! ### The checks of WRITE_PAYLOAD (42_cursor_write.md R141, R142) -/

theorem exec_writePayload_illegalCommand {s : State} (hf : s.status.fatal = false) (hp : s.status.phase = .idle) :
    exec .writePayload s = .next (s.ended .illegalCommand) := by
  have hne : s.status.phase ≠ .hdr := by rw [hp]; decide
  exact (writePayload_cases_any hf).exec_error (fun _ he => he.elim And.left fun h => absurd h.2.1 hne)
    fun _ ht => hne ht.1

theorem exec_writePayload_lengthInvalid {s : State} (hf : s.status.fatal = false) (hp : s.status.phase = .hdr)
    (hl : ¬ CursorBuffer s ∨ s.params.maxLen < s.payLen.toNat) :
    exec .writePayload s = .next (s.ended .lengthInvalid) := by
  have hne : s.status.phase ≠ .idle := by rw [hp]; decide
  refine (writePayload_cases_any hf).exec_error (fun _ he => he.elim (fun h => absurd h.2 hne) And.left) fun t ht => ?_
  obtain ⟨-, hbuffer, hpay, -⟩ := ht
  exact hl.elim (fun h => h hbuffer) (Nat.not_lt.2 hpay)

/-- Settles O34: the check of `PHASE` comes first; the six commands are none of the three that write `PHASE`, `CUR` and
`BT`. -/
theorem writePayloadNeedsAPendingHeader : Obligations.WritePayloadNeedsAPendingHeader := by
  intro s hf
  refine ⟨exec_writePayload_illegalCommand hf, fun i t hi hx => ?_⟩
  obtain ⟨hwh, hwp, hrp⟩ : i ≠ .writeHeader ∧ i ≠ .writePayload ∧ i ≠ .readPayload := by
    refine ⟨?_, ?_, ?_⟩ <;> rintro rfl <;> revert hi <;> decide
  obtain ⟨hcur, hbt, hphase⟩ := (exec_registersKept hf hx).sequence hwh hwp hrp
  exact ⟨hphase, hcur, hbt⟩

/-- Settles O35: the length checks are made before anything is written. -/
theorem writePayloadLengthErrors : Obligations.WritePayloadLengthErrors := fun _ hf hp hl =>
  exec_writePayload_lengthInvalid hf hp hl

/-! ### How WRITE_PAYLOAD ends that may run (42_cursor_write.md R146 to R148) -/

theorem ReadyToWrite.notFatal {s : State} (h : ReadyToWrite s) : s.status.fatal = false := by
  obtain ⟨hf, -⟩ := h
  exact hf

theorem ReadyToWrite.buffer {s : State} (h : ReadyToWrite s) : CursorBuffer s := by
  obtain ⟨-, -, -, -, -, h4, hl4, hlM, -⟩ := h
  exact ⟨h4, hl4, hlM⟩

theorem ReadyToWrite.latched {s : State} (h : ReadyToWrite s) : s.cur = 4 ∧ 1 ≤ s.bt.toNat ∧ s.bt.toNat ≤ 8 := by
  obtain ⟨-, -, hc, hb1, hb8, -, -, -, -⟩ := h
  exact ⟨hc, hb1, hb8⟩

/-- The end of a write sequence, `BT` cleared and `STATUS` set, changes what the write cursor changes and these two. -/
theorem CursorOnly.close {s u : State} (h : CursorOnly s.started u) (st : Status) :
    (u.withBt 0).withStatus st = { s with status := st, cur := u.cur, bt := 0, acc := u.acc, accBits := u.accBits,
                                          chan := u.chan, env := u.env } := by
  rw [h.eq]
  rfl

theorem CursorOnly.forgetPayload {s u : State} (h : CursorOnly s u) : CursorOnly s (forgetPayload u) := by
  rw [forgetPayload_eq]
  refine h.trans ?_
  cases u
  rfl

/-- All checks pass: WRITE_PAYLOAD completes if the payload fits, else it ends in the fatal error; either way the cursor
has reached `CHLEN`. -/
theorem ReadyToWrite.exec_cases {s : State} (h : ReadyToWrite s) :
    ∃ t u, exec .writePayload s = .next t ∧ CursorOnly s.started u ∧ u.cur = s.chLen ∧
      ((8 * s.payLen.toNat ≤ usableCount s * s.bt.toNat ∧ u.acc = 0 ∧ u.accBits = 0 ∧
          u.env = envAfter s (usableCount s - 8 * s.payLen.toNat / s.bt.toNat) ∧
          t = (u.withBt 0).withStatus ((s.status.withPhase .idle).finish .ok)) ∨
        (usableCount s * s.bt.toNat < 8 * s.payLen.toNat ∧ t = raiseError .cursorMismatch u)) := by
  have hl := h.buffer
  have ⟨_, hp, _, _, _, _, _, _, hpay⟩ := h
  obtain ⟨t, ht, -, -, -, u, hu, hw, hend⟩ := (writePayload_cases h.notFatal fun _ => h.latched).ok fun e he => by
    rcases he with ⟨-, he⟩ | ⟨-, -, he | he⟩
    · exact absurd (hp.symm.trans he) (by decide)
    · exact he hl
    · exact Nat.not_lt.2 hpay he
  have hcur : u.cur = s.chLen := BitVec.eq_of_toNat_eq (hw.cur.trans (usableIndex_usableCount hl.1 hl.2.1))
  exact ⟨t, u, ht, hu.only, hcur, hend.imp id fun ⟨hover, _, _, he⟩ => ⟨hover, he⟩⟩

/-- A payload that fits: everything but the channels (42_cursor_write.md R147, R148). -/
theorem ReadyToWrite.exec_fits {s : State} (h : ReadyToWrite s)
    (hfit : 8 * s.payLen.toNat ≤ usableCount s * s.bt.toNat) :
    ∃ t, exec .writePayload s = .next t ∧
      t = { s with status := { s.status with busy := false, done := true, err := .ok, phase := .idle },
                   cur := s.chLen, bt := 0, acc := 0, accBits := 0, chan := t.chan, env := t.env } ∧
      t.env = envAfter s (usableCount s - 8 * s.payLen.toNat / s.bt.toNat) := by
  obtain ⟨t, u, ht, hu, hcur, ⟨-, hacc, hn, henv, rfl⟩ | ⟨hover, -⟩⟩ := h.exec_cases
  · refine ⟨_, ht, ?_, henv⟩
    have hclose := hu.close ((s.status.withPhase .idle).finish .ok)
    rw [hcur, hacc, hn] at hclose
    exact hclose
  · omega

/-- A payload that does not fit: everything but the channels and the accumulator (42_cursor_write.md R146). -/
theorem ReadyToWrite.exec_overflows {s : State} (h : ReadyToWrite s)
    (hover : usableCount s * s.bt.toNat < 8 * s.payLen.toNat) :
    ∃ t, exec .writePayload s = .next t ∧
      t = { s with status := { busy := false, done := true, fatal := true, phase := .idle, err := .cursorMismatch },
                   cur := s.chLen, bt := 0, acc := t.acc, accBits := t.accBits, chan := t.chan, env := t.env } := by
  obtain ⟨t, u, ht, hu, hcur, ⟨hfit, -⟩ | ⟨-, rfl⟩⟩ := h.exec_cases
  · omega
  · refine ⟨_, ht, ?_⟩
    have hcur' : (forgetPayload u).cur = s.chLen := by rw [forgetPayload_eq]; exact hcur
    have hclose := hu.forgetPayload.close
      { busy := false, done := true, fatal := true, phase := .idle, err := .cursorMismatch }
    rw [hcur'] at hclose
    rw [raiseError_cursorMismatch, ← forgetPayload_eq]
    exact hclose

/-- WRITE_PAYLOAD writes no channel outside `CHAN[4 .. CHLEN)`, whichever way it ends. -/
theorem ReadyToWrite.readCell_outside {s t : State} (h : ReadyToWrite s) (hx : exec .writePayload s = .next t) {k : Nat}
    (hk : k < 4 ∨ s.chLen.toNat ≤ k) : readCell t .chan k = readCell s .chan k := by
  refine writePayload_cells h.notFatal (fun _ => h.latched) hx ?_
  rintro ⟨-, h4, hlt⟩
  omega

/-- Settles O36: the end state by `ReadyToWrite.exec_fits`, the cells of the buffer bit by bit by `writePayload_ok`; the
cell of usable channel `j` is the one that is channel number `j` (20_memory.md R57). -/
theorem writePayloadClosedForm : Obligations.WritePayloadClosedForm := by
  intro s h hfit
  obtain ⟨t, ht, heq, -⟩ := h.exec_fits hfit
  have hl := h.buffer
  obtain ⟨hc, hb⟩ := h.latched
  obtain ⟨-, -, -, hbits⟩ := writePayload_ok h.notFatal hc hb ht (by rw [heq])
  refine ⟨t, ht, heq, fun j hj q hq => ?_, fun k h4 hk ha => ?_, fun k hk => h.readCell_outside ht hk⟩
  · have hlt : usableIndex j < s.chLen.toNat :=
      usableIndex_usableCount (s := s) hl.1 hl.2.1 ▸ usableIndex_strictMono hj
    have h4 : 4 ≤ usableIndex j := by unfold usableIndex; omega
    have hbit := hbits (usableIndex j) q hq
    rw [if_pos ⟨h4, hlt⟩, if_neg (usableIndex_mod j), usableNumber_usableIndex] at hbit
    exact hbit
  · refine BitVec.eq_of_getLsbD_eq fun q hq => ?_
    rw [hbits k q hq, if_pos ⟨h4, hk⟩, if_pos ha]

/-- `D` of 42_cursor_write.md R148 counts the channels that the payload does not fill whole. -/
theorem drawCount_eq (N T : Nat) {b : Nat} (hb : 1 ≤ b) :
    (if T % b ≠ 0 then 1 else 0) + N - (T + b - 1) / b = N - T / b := by
  have hdm := Nat.div_add_mod T b
  have hmod := Nat.mod_lt T hb
  by_cases h0 : T % b = 0
  · have hceil : (T + b - 1) / b = T / b := Nat.div_eq_of_lt_le
      (by rw [Nat.mul_comm]; omega) (by rw [Nat.mul_comm, Nat.mul_add]; omega)
    rw [if_neg (not_not.2 h0), hceil, Nat.zero_add]
  · have hceil : (T + b - 1) / b = T / b + 1 := Nat.div_eq_of_lt_le
      (by rw [Nat.mul_comm, Nat.mul_add]; omega) (by rw [Nat.mul_comm, Nat.mul_add, Nat.mul_add]; omega)
    rw [if_pos h0, hceil]
    omega

/-- With less than a byte of the capacity left over, at most 7 channels are not filled whole by the payload. -/
theorem unfilledChannels_le_seven {N T b : Nat} (hb : 1 ≤ b) (h : N * b < T + 8) : N - T / b ≤ 7 := by
  have hmod := Nat.mod_lt T hb
  have hdm := Nat.div_add_mod' T b
  by_contra hc
  have : (T / b + 8) * b ≤ N * b := Nat.mul_le_mul_right b (by omega)
  rw [Nat.add_mul] at this
  omega

/-- Settles O37: a success means the payload fits, and then `N - T div b` draws are made. -/
theorem writePayloadDrawCount : Obligations.WritePayloadDrawCount := by
  intro s t N T b D h hx hok hN hT hb hD
  subst hN hT hb
  have hl := h.buffer
  obtain ⟨hc, hb⟩ := h.latched
  obtain ⟨-, hfit, -, -⟩ := writePayload_ok h.notFatal hc hb hx hok
  obtain ⟨t', ht', -, henv⟩ := h.exec_fits hfit
  obtain rfl : t' = t := by rw [hx] at ht'; cases ht'; rfl
  rw [drawCount_eq _ _ hb.1] at hD
  subst hD
  refine ⟨henv, fun hfull => unfilledChannels_le_seven hb.1 ?_, fun h0 => by simp [h0]⟩
  rw [capacityBytes_eq _ hl.2.1] at hfull
  omega

/-- Settles O38: the two ends of `ReadyToWrite.exec_cases` are told apart by the fit law. -/
theorem writePayloadOverflowIsFatal : Obligations.WritePayloadOverflowIsFatal := by
  intro s h
  have hiff := fits_iff s.bt.toNat h.buffer
  by_cases hfit : 8 * s.payLen.toNat ≤ usableCount s * s.bt.toNat
  · obtain ⟨t, ht, heq, -⟩ := h.exec_fits hfit
    have herr : t.status.err ≠ .cursorMismatch := by rw [heq]; exact ErrCode.noConfusion
    exact ⟨t, ht, ⟨fun he => absurd he herr, fun hlt => absurd (hiff.2 hfit) (Int.not_le.2 hlt)⟩,
      fun he => absurd he herr⟩
  · obtain ⟨t, ht, heq⟩ := h.exec_overflows (Nat.not_le.1 hfit)
    have herr : t.status.err = .cursorMismatch := by rw [heq]
    exact ⟨t, ht, ⟨fun _ => Int.not_le.1 fun hle => hfit (hiff.1 hle), fun _ => herr⟩,
      fun _ => ⟨heq, fun k hk => h.readCell_outside ht hk⟩⟩

end Sys2Proof.Machine

/-! PROOFS. The statements of 43_cursor_read.md: what a whole write changes, READ_HEADER and READ_PAYLOAD, what each of
them sees of the buffer, and the round trip. -/

namespace Sys2Proof.Machine

/-! ### What a whole write changes (43_cursor_read.md R171) -/

/-- Two bytes that agree from bit `b` on are the same number once the `b` bits below are dropped. -/
theorem toNat_div_two_pow_congr {x y : Byte} {b : Nat} (h : ∀ q, b ≤ q → q < 8 → x.getLsbD q = y.getLsbD q) :
    x.toNat / 2 ^ b = y.toNat / 2 ^ b := by
  refine Nat.eq_of_testBit_eq fun i => ?_
  rw [Nat.testBit_div_two_pow, Nat.testBit_div_two_pow, BitVec.testBit_toNat, BitVec.testBit_toNat]
  by_cases hi : i + b < 8
  · exact h _ (Nat.le_add_left b i) hi
  · rw [BitVec.getLsbD_of_ge _ _ (Nat.not_lt.1 hi), BitVec.getLsbD_of_ge _ _ (Nat.not_lt.1 hi)]

/-- Settles O39: the channels of a whole write are known bit by bit (`wholeWrite_ok`); a header channel is also known as a
number. -/
theorem wholeWriteChangesLowBitsAndAlpha : Obligations.WholeWriteChangesLowBitsAndAlpha := by
  intro s t u hf h1 h2 h3 h4
  obtain ⟨-, -, -, ⟨-, -, hlen, -⟩, hheader, hchan⟩ := wholeWrite_ok hf h1 h2 ⟨t.env, rfl, rfl⟩ h3 h4
  refine ⟨hlen, fun k hk => ?_⟩
  by_cases ha : k % 4 = 3
  · rw [if_pos ha]
    refine BitVec.eq_of_getLsbD_eq fun q hq => ?_
    rw [hchan k (by omega) q hq, if_pos hk, if_pos ha]
  · rw [if_neg ha]
    by_cases hk4 : k < 4
    · rw [if_pos hk4, hheader k (by omega), toNat_headerChannel]
      omega
    · rw [if_neg hk4]
      refine toNat_div_two_pow_congr fun q hbq hq => ?_
      rw [hchan k (by omega) q hq, if_pos hk, if_neg ha, if_neg (Nat.not_lt.2 hbq)]

/-! ### READ_HEADER (43_cursor_read.md R160, R161) -/

/-- Settles O40: the one error by the check of `CHLEN`; the depth is at most 8, so its register holds it. -/
theorem readHeaderOutcome : Obligations.ReadHeaderOutcome := by
  intro s hf
  refine ⟨exec_readHeader_error hf, fun hl => ⟨_, exec_readHeader_ok hf hl, ?_⟩⟩
  have hlt := headerValue_lt (readCell s .chan 0) (readCell s .chan 1) (readCell s .chan 2)
  rw [BitVec.toNat_ofNat, Nat.mod_eq_of_lt (by omega), headerValue]
  omega

/-- READ_HEADER sees bit 0 of a header channel only. -/
theorem headerValue_congr {a a' b b' c c' : Byte} (ha : a.getLsbD 0 = a'.getLsbD 0) (hb : b.getLsbD 0 = b'.getLsbD 0)
    (hc : c.getLsbD 0 = c'.getLsbD 0) : headerValue a b c = headerValue a' b' c' := by
  have hlow : ∀ {x y : Byte}, x.getLsbD 0 = y.getLsbD 0 → x.toNat % 2 = y.toNat % 2 := fun {x y} h => by
    rw [BitVec.getLsbD, BitVec.getLsbD, Nat.testBit_zero, Nat.testBit_zero, decide_eq_decide] at h
    omega
  rw [headerValue, headerValue, hlow ha, hlow hb, hlow hc]

/-- READ_HEADER reads `CHLEN`, `MAXLEN` and bit 0 of channels 0, 1, 2 and nothing else: both of its ends are chosen by
them, and so is the depth. -/
theorem exec_readHeader_agree {s t s' t' : State} (hs : s.status.fatal = false) (ht : t.status.fatal = false)
    (hlen : s.chLen = t.chLen) (hmax : s.params.maxLen = t.params.maxLen)
    (hchan : ∀ k, k < 3 → (readCell s .chan k).getLsbD 0 = (readCell t .chan k).getLsbD 0)
    (hxs : exec .readHeader s = .next s') (hxt : exec .readHeader t = .next t') :
    s'.status.err = t'.status.err ∧ (s'.status.err = .ok → s'.bits = t'.bits) := by
  have hiff : CursorBuffer s ↔ CursorBuffer t := by rw [CursorBuffer, CursorBuffer, hlen, hmax]
  by_cases hl : CursorBuffer s
  · rw [exec_readHeader_ok hs hl] at hxs
    rw [exec_readHeader_ok ht (hiff.1 hl)] at hxt
    cases hxs; cases hxt
    refine ⟨rfl, fun _ => ?_⟩
    rw [State.withBits_bits, State.withBits_bits,
      headerValue_congr (hchan 0 (by decide)) (hchan 1 (by decide)) (hchan 2 (by decide))]
  · rw [exec_readHeader_error hs hl] at hxs
    rw [exec_readHeader_error ht (mt hiff.2 hl)] at hxt
    cases hxs; cases hxt
    exact ⟨rfl, nofun⟩

/-- A buffer READ_HEADER accepts, whose header channels carry the depth `b` (43_cursor_read.md R160). -/
structure CarriesDepth (s : State) (b : Nat) : Prop where
  buffer : CursorBuffer s
  header : headerValue (readCell s .chan 0) (readCell s .chan 1) (readCell s .chan 2) + 1 = b

theorem CarriesDepth.exec_readHeader {s : State} {d : Byte} (h : CarriesDepth s d.toNat) (hf : s.status.fatal = false) :
    exec .readHeader s = .next ((s.ended .ok).withBits d) := by
  rw [exec_readHeader_ok hf h.buffer, h.header, BitVec.ofNat_toNat, BitVec.setWidth_eq]

/-- The depth depends on the length, the parameter and the header channels of the state alone. -/
theorem CarriesDepth.congr {s t : State} {b : Nat} (h : CarriesDepth s b) (hlen : t.chLen = s.chLen)
    (hmax : t.params.maxLen = s.params.maxLen) (hchan : ∀ k, k < 4 → readCell t .chan k = readCell s .chan k) :
    CarriesDepth t b := by
  obtain ⟨hl, hd⟩ := h
  refine ⟨?_, ?_⟩
  · rw [CursorBuffer, hlen, hmax]
    exact hl
  · rw [hchan 0 (by decide), hchan 1 (by decide), hchan 2 (by decide), hd]

theorem CarriesDepth.sameImage {u v : State} {b : Nat} (h : CarriesDepth u b) (hs : SameImage u v) : CarriesDepth v b := by
  obtain ⟨hlen, hmax, hcell⟩ := hs
  exact h.congr hlen hmax fun k hk => hcell k (Nat.lt_of_lt_of_le hk h.buffer.2.1)

/-- What a WRITE_HEADER that ends with `OK` leaves: its depth in the header channels, and the cursor and the latched depth
as 10_state.md R28 says. -/
theorem writeHeader_ok {s t : State} (hf : s.status.fatal = false) (hx : exec .writeHeader s = .next t)
    (hok : t.status.err = .ok) :
    CarriesDepth t s.bits.toNat ∧ t.status.fatal = false ∧ t.cur = 4 ∧ 1 ≤ t.bt.toNat ∧ t.bt.toNat ≤ 8 := by
  rcases (writeHeader_cases hf).next hx with ⟨e, he, -, -, rfl⟩ | ⟨hb, hl, he, -, hchan⟩
  · exact absurd hok he
  have hbt : t.bt.toNat = s.bits.toNat := by
    rw [he, State.withStatus_bt, State.withBt_bt, BitVec.toNat_ofNat]
    omega
  refine ⟨⟨?_, ?_⟩, ?_, ?_, hbt ▸ hb⟩
  · rw [he]
    exact hl
  · rw [hchan 0, hchan 1, hchan 2]
    exact headerValue_written hb _ _ _
  · rw [he]
    exact hf
  · rw [he]
    rfl

/-- A WRITE_PAYLOAD leaves the depth in the header channels, whichever way it ends (43_cursor_read.md R161). -/
theorem CarriesDepth.writePayload {t u : State} {b : Nat} (h : CarriesDepth t b) (hf : t.status.fatal = false)
    (hinv : t.cur = 4 ∧ 1 ≤ t.bt.toNat ∧ t.bt.toNat ≤ 8) (hx : exec .writePayload t = .next u) : CarriesDepth u b := by
  obtain ⟨hparams, -⟩ := exec_keeps hf hx
  refine h.congr (exec_registersKept hf hx).chLen (by rw [hparams]) fun k hk => ?_
  refine writePayload_cells hf (fun _ => hinv) hx ?_
  rintro ⟨-, h4, -⟩
  omega

/-- Settles O41: what READ_HEADER reads, and that WRITE_HEADER leaves the depth there and WRITE_PAYLOAD does not touch it. -/
theorem headerIndependence : Obligations.HeaderIndependence := by
  refine ⟨fun _ _ _ _ hs ht hlen hmax hchan hxs hxt => exec_readHeader_agree hs ht hlen hmax hchan hxs hxt, ?_⟩
  intro s t u v hf hwrite hok hu hsame hvf
  obtain ⟨ht, htf, hinv⟩ := writeHeader_ok hf hwrite hok
  have hdepth : CarriesDepth u s.bits.toNat := by
    rcases hu with rfl | hx
    · exact ht
    · exact ht.writePayload htf hinv hx
  exact ⟨_, (hdepth.sameImage hsame).exec_readHeader hvf, rfl, rfl⟩

/-! ### READ_PAYLOAD (43_cursor_read.md R164 to R168) -/

/-- The length errors of READ_PAYLOAD come after the check of the depth. -/
theorem exec_readPayload_lengthInvalid {s : State} (hf : s.status.fatal = false)
    (hb : 1 ≤ s.bits.toNat ∧ s.bits.toNat ≤ 8)
    (hl : ¬ CursorBuffer s ∨ capacityBytes s.chLen.toNat s.bits.toNat < (s.payLen.toNat : Int)) :
    exec .readPayload s = .next (s.ended .lengthInvalid) := by
  refine (readPayload_cases hf).exec_error (fun _ he => he.elim (fun h => absurd hb h.2) And.left) fun t ht => ?_
  obtain ⟨-, hbuffer, hfits, -⟩ := ht
  exact hl.elim (fun h => h hbuffer) (Int.not_lt.2 hfits)

/-- The end of READ_PAYLOAD changes what the read cursor changes, `BT` and `STATUS`. -/
theorem ReadOnly.close {s u : State} (h : ReadOnly s.started u) (st : Status) :
    (u.withBt 0).withStatus st = { s with status := st, cur := u.cur, bt := 0, acc := u.acc, accBits := u.accBits,
                                          pay := u.pay } := by
  rw [h.eq]
  rfl

/-- READ_PAYLOAD completes once all its checks pass: it is the whole loop and the end of the write sequence. -/
theorem exec_readPayload_collected {s : State} (hf : s.status.fatal = false) (hb : 1 ≤ s.bits.toNat ∧ s.bits.toNat ≤ 8)
    (hl : CursorBuffer s) (hc : (s.payLen.toNat : Int) ≤ capacityBytes s.chLen.toNat s.bits.toNat) :
    ∃ u, Collected s.started s.bits.toNat s.chLen.toNat u ∧
      exec .readPayload s = .next ((u.withBt 0).withStatus ((s.status.withPhase .idle).finish .ok)) := by
  obtain ⟨t, ht, -, -, -, u, hu, -, rfl⟩ := (readPayload_cases hf).ok fun e he => by
    rcases he with ⟨-, he⟩ | ⟨-, -, he | he⟩
    · exact he hb
    · exact he hl
    · omega
  exact ⟨u, hu, ht⟩

/-- Settles O42: the errors by the order of the checks; the end state is what the loop has collected when the cursor stands
at `CHLEN` (`readLoop_whole`), where all usable channels lie below it. -/
theorem readPayloadOutcome : Obligations.ReadPayloadOutcome := by
  intro s hf
  refine ⟨exec_readPayload_bitsOutOfRange hf, fun hb =>
    ⟨fun hl => exec_readPayload_lengthInvalid hf hb (.inl hl), fun hl =>
      ⟨fun hc => exec_readPayload_lengthInvalid hf hb (.inr hc), fun hc => ?_⟩⟩⟩
  obtain ⟨u, hu, hx⟩ := exec_readPayload_collected hf hb hl hc
  have hcur : u.cur = s.chLen := BitVec.eq_of_toNat_eq hu.cur
  have hclose := hu.only.close ((s.status.withPhase .idle).finish .ok)
  have hfits := (fits_iff s.bits.toNat hl).1 hc
  obtain ⟨-, hbits, hacc, hpay, -⟩ := hu
  rw [channelsBelow_chLen hl.1 hl.2.1] at hbits hacc hpay
  refine ⟨_, hx, ?_, fun k hk q hq => ?_, fun k hk => BitVec.eq_of_getLsbD_eq fun q hq => ?_, hbits, fun q hq => ?_⟩
  · rw [hcur] at hclose
    exact hclose
  · have hwhole : k < usableCount s * s.bits.toNat / 8 := by omega
    simpa using (hpay k q hq).trans (if_pos ⟨hwhole, hk⟩)
  · simpa using (hpay k q hq).trans (if_neg fun h => Nat.not_lt.2 hk h.2)
  · rw [State.withStatus_accBits, State.withBt_accBits, hbits, State.withStatus_acc, State.withBt_acc, hacc q hq,
      channelBit_started]
    rfl

/-! ### What READ_PAYLOAD sees (43_cursor_read.md R172) -/

/-- The channel bit stream at depth `b` is made of the low `b` bits of the usable channels (43_cursor_read.md R167). -/
theorem channelBit_congr {s t : State} {b n : Nat} (hl : CursorBuffer s) (hb : 1 ≤ b) (hn : n < usableCount s * b)
    (h : ∀ k, 4 ≤ k → k % 4 ≠ 3 → k < s.chLen.toNat → ∀ q, q < b →
      (readCell s .chan k).getLsbD q = (readCell t .chan k).getLsbD q) : channelBit s b n = channelBit t b n := by
  have hinside : usableIndex (n / b) < s.chLen.toNat := by
    rw [← usableIndex_usableCount hl.1 hl.2.1]
    exact usableIndex_strictMono ((Nat.div_lt_iff_lt_mul hb).2 hn)
  exact h _ (by unfold usableIndex; omega) (usableIndex_mod _) hinside _ (by omega)

/-- Settles O43: each end of READ_PAYLOAD is chosen by what the two states agree on, and the bytes of the last are the
channel bit stream. -/
theorem readPayloadSeesOnlyLowBits : Obligations.ReadPayloadSeesOnlyLowBits := by
  intro s t s' t' hs ht hlen hbits hpay hmax hchan hxs hxt
  have hiff : CursorBuffer s ↔ CursorBuffer t := by rw [CursorBuffer, CursorBuffer, hlen, hmax]
  by_cases hb : 1 ≤ s.bits.toNat ∧ s.bits.toNat ≤ 8
  · by_cases hbad : ¬ CursorBuffer s ∨ capacityBytes s.chLen.toNat s.bits.toNat < (s.payLen.toNat : Int)
    · rw [exec_readPayload_lengthInvalid hs hb hbad] at hxs
      rw [exec_readPayload_lengthInvalid ht (hbits ▸ hb) (by rwa [← hiff, ← hlen, ← hbits, ← hpay])] at hxt
      cases hxs; cases hxt
      exact ⟨rfl, nofun⟩
    · obtain ⟨hl, hc⟩ : CursorBuffer s ∧ (s.payLen.toNat : Int) ≤ capacityBytes s.chLen.toNat s.bits.toNat := by
        rwa [not_or, not_not, Int.not_lt] at hbad
      have hfits := (fits_iff s.bits.toNat hl).1 hc
      obtain ⟨x, hx, hxok, -, -, -, -, hxread⟩ := exec_readPayload_ok hs hb hl hc
      obtain ⟨y, hy, hyok, -, -, -, -, hyread⟩ :=
        exec_readPayload_ok ht (hbits ▸ hb) (hiff.1 hl) (by rwa [← hlen, ← hbits, ← hpay])
      obtain rfl : x = s' := by rw [hxs] at hx; cases hx; rfl
      obtain rfl : y = t' := by rw [hxt] at hy; cases hy; rfl
      refine ⟨hxok.trans hyok.symm, fun _ k hk => BitVec.eq_of_getLsbD_eq fun q hq => ?_⟩
      rw [hxread k q hk hq, hyread k q (hpay ▸ hk) hq, ← hbits]
      exact channelBit_congr hl hb.1 (by omega) hchan
  · rw [exec_readPayload_bitsOutOfRange hs hb] at hxs
    rw [exec_readPayload_bitsOutOfRange ht (hbits ▸ hb)] at hxt
    cases hxs; cases hxt
    exact ⟨rfl, nofun⟩

/-! ### The round trip (43_cursor_read.md R170) -/

/-- The payload bits of a byte, the most significant first (30_encoding.md R76). -/
theorem payloadBit_byte (s : State) (k : Nat) {q : Nat} (hq : q < 8) :
    payloadBit s (8 * k + (7 - q)) = (readCell s .pay k).getLsbD q := by
  rw [payloadBit, show (8 * k + (7 - q)) / 8 = k by omega, show 7 - (8 * k + (7 - q)) % 8 = q by omega]

/-- Settles O45: READ_HEADER finds the depth on every state that holds the image (as in O41), and there the channel bits of
the image are the payload bits of the write. -/
theorem cursorRoundTrip : Obligations.CursorRoundTrip := by
  intro s t u v n' hf hheader htok hpayload huok hsame hvf hfit
  have henv : ∃ e : Env, e.resets = t.env.resets ∧ t = t.withEnv e := ⟨t.env, rfl, rfl⟩
  obtain ⟨hb, -, -, ⟨-, -, hlen, -⟩, -⟩ := wholeWrite_ok hf hheader htok henv hpayload huok
  obtain ⟨ht, htf, hinv⟩ := writeHeader_ok hf hheader htok
  have hv := (ht.writePayload htf hinv hpayload).sameImage hsame
  obtain ⟨hvu, -⟩ := id hsame
  have hvlen : v.chLen = s.chLen := hvu.trans hlen
  obtain ⟨y, hy, hyok, -, -, -, -, hread⟩ :=
    exec_readPayload_ok (s := ((v.ended .ok).withBits s.bits).withPayLen n') hvf hb hv.buffer (hvlen ▸ hfit)
  refine ⟨_, y, hv.exec_readHeader hvf, rfl, rfl, hy, hyok, fun k hk hk' => BitVec.eq_of_getLsbD_eq fun q hq => ?_⟩
  obtain ⟨hinside, hbit⟩ := channelBit_wholeWrite hf hheader htok henv hpayload huok
    (n := 8 * k + (7 - q)) (by omega)
  calc (readCell y .pay k).getLsbD q
      = channelBit v s.bits.toNat (8 * k + (7 - q)) := by simpa [channelBit] using hread k q hk' hq
    _ = channelBit u s.bits.toNat (8 * k + (7 - q)) := hsame.channelBit_eq (hlen ▸ hinside)
    _ = payloadBit s (8 * k + (7 - q)) := hbit
    _ = (readCell s .pay k).getLsbD q := payloadBit_byte s k hq

end Sys2Proof.Machine

/-! PROOFS. The statements of 45_host_sequences.md: one channel bit and the payload bit it carries, and the host procedures
`hide` and `reveal`. -/

namespace Sys2Proof.Machine

/-! ### One channel bit, one payload bit (45_host_sequences.md R192) -/

/-- What a READ_PAYLOAD that ended with `OK` shows: its checks held, and the payload is the channel bit stream. -/
theorem readPayload_ok {s t : State} (hf : s.status.fatal = false) (hx : exec .readPayload s = .next t)
    (hok : t.status.err = .ok) :
    (1 ≤ s.bits.toNat ∧ s.bits.toNat ≤ 8) ∧ CursorBuffer s ∧
      (s.payLen.toNat : Int) ≤ capacityBytes s.chLen.toNat s.bits.toNat ∧
      ∀ n, n < 8 * s.payLen.toNat → payloadBit t n = channelBit s s.bits.toNat n := by
  rcases (readPayload_cases hf).next hx with ⟨e, he, -, -, rfl⟩ | ⟨hb, hl, hc, -⟩
  · exact absurd hok he
  obtain ⟨t', ht', -, -, -, -, -, hread⟩ := exec_readPayload_ok hf hb hl hc
  obtain rfl : t = t' := by rw [hx] at ht'; cases ht'; rfl
  refine ⟨hb, hl, hc, fun n hn => ?_⟩
  rw [payloadBit, hread (n / 8) (7 - n % 8) (by omega) (by omega),
    show 8 * (n / 8) + (7 - (7 - n % 8)) = n by omega]

/-- Which bit of which usable channel carries bit `n` of the stream at depth `b` (30_encoding.md R76). -/
theorem streamPosition_iff {b n j q : Nat} (hq : q < b) :
    n / b = j ∧ b - 1 - n % b = q ↔ n = j * b + (b - 1 - q) := by
  have hmod := Nat.mod_lt n (Nat.zero_lt_of_lt hq)
  have hdiv := Nat.div_add_mod' n b
  constructor
  · rintro ⟨rfl, rfl⟩
    omega
  · rintro rfl
    have hlow : b - 1 - q < b := by omega
    rw [Nat.mul_comm, Nat.mul_add_div (by omega), Nat.mul_add_mod, Nat.div_eq_of_lt hlow, Nat.mod_eq_of_lt hlow]
    omega

/-- Settles O44: both payloads are channel bit streams, and the flipped bit stands at one place of the stream. -/
theorem oneChannelBitIsOnePayloadBit : Obligations.OneChannelBitIsOnePayloadBit := by
  intro s t s' t' j q hs ht hlen hbits hpay hmax hq hj hflip hxs hxt hok
  obtain ⟨hb, hl, hc, hsbits⟩ := readPayload_ok hs hxs hok
  have hlt : CursorBuffer t := by rwa [CursorBuffer, ← hlen, ← hmax]
  obtain ⟨x, hx, hxok, -⟩ := exec_readPayload_ok ht (hbits ▸ hb) hlt (by rwa [← hlen, ← hbits, ← hpay])
  obtain rfl : t' = x := by rw [hxt] at hx; cases hx; rfl
  obtain ⟨-, -, -, htbits⟩ := readPayload_ok ht hxt hxok
  refine ⟨hxok, fun n hn => ?_⟩
  have hinside : n / s.bits.toNat < 3 * (s.chLen.toNat / 4 - 1) := by
    have := (fits_iff s.bits.toNat hl).1 hc
    exact (Nat.div_lt_iff_lt_mul hb.1).2 (Nat.lt_of_lt_of_le hn this)
  rw [hsbits n hn, htbits n (hpay ▸ hn), ← hbits, ← decide_eq_decide.2 (streamPosition_iff hq), Bool.decide_and]
  exact hflip _ _ hinside (by omega)

/-! ### The smallest images (45_host_sequences.md R190) -/

/-- The table of R190, depth by depth: the buffer length from which on the capacity is 34 bytes. -/
theorem capacityBytes_ge_34_iff {L b : Nat} (hL : L % 4 = 0) (hb : 1 ≤ b) (hb8 : b ≤ 8) :
    34 ≤ capacityBytes L b ↔ smallestBuffer b ≤ L := by
  rw [le_capacityBytes_iff, capacityBits, usablePixels]
  interval_cases b <;> simp only [smallestBuffer] <;> omega

/-! ### Spaces that begin with a byte string -/

/-- The space `sp` begins with `bytes` (20_memory.md R50). -/
def HoldsBytes (s : State) (sp : Space) (bytes : List Byte) : Prop :=
  ∀ k, k < bytes.length → readCell s sp k = bytes.getD k 0

theorem HoldsBytes.readBytes {s : State} {sp : Space} {bytes : List Byte} (h : HoldsBytes s sp bytes) {n : Nat}
    (hn : n = bytes.length) : readBytes s sp 0 n = bytes := by
  subst hn
  refine List.ext_getElem? fun k => ?_
  rw [readBytes_getElem?, Nat.zero_add]
  split
  · rw [h k ‹_›, List.getD_eq_getElem _ _ ‹_›, List.getElem?_eq_getElem ‹_›]
  · rw [List.getElem?_eq_none (Nat.not_lt.1 ‹_›)]

theorem getD_readBytes (s : State) (sp : Space) {n k : Nat} (hk : k < n) :
    (readBytes s sp 0 n).getD k 0 = readCell s sp k := by
  rw [List.getD_eq_getElem?_getD, readBytes_getElem?, if_pos hk, Nat.zero_add, Option.getD_some]

theorem HoldsBytes.congr {s t : State} {sp : Space} {bytes : List Byte} (h : HoldsBytes s sp bytes)
    (hcells : ∀ k, readCell t sp k = readCell s sp k) : HoldsBytes t sp bytes :=
  fun k hk => (hcells k).trans (h k hk)

theorem holdsBytes_writeBytes (s : State) (sp : Space) (bytes : List Byte) :
    HoldsBytes (writeBytes s sp 0 bytes) sp bytes := fun k hk => by
  rw [readCell_writeBytes, if_pos ⟨rfl, Nat.zero_le k, by omega⟩, Nat.sub_zero]

theorem HoldsBytes.withScript {s : State} {sp : Space} {bytes : List Byte} (h : HoldsBytes s sp bytes)
    (rest : List HostAction) : HoldsBytes (s.withScript rest) sp bytes :=
  h.congr fun k => by rw [readCell_withScript]

/-! ### Machines the host may use -/

/-- No command runs, no fatal error has occurred, and the parameters are `p`. -/
structure Available (p : Params) (s : State) : Prop where
  idle : s.status.busy = false
  notFatal : s.status.fatal = false
  params : s.params = p

theorem Available.congr {p : Params} {s t : State} (h : Available p s) (hstatus : t.status = s.status)
    (hparams : t.params = s.params) : Available p t :=
  ⟨hstatus ▸ h.idle, hstatus ▸ h.notFatal, hparams.trans h.params⟩

/-- Only WRITE_PAYLOAD can end in the fatal state (60_exceptions.md R207). -/
theorem Available.exec {p : Params} {i : Instr} {s t : State} (h : Available p s) (hi : i ≠ .writePayload)
    (hx : exec i s = .next t) : Available p t := by
  obtain ⟨hparams, hidle, -⟩ := exec_keeps h.notFatal hx
  obtain ⟨hfatal, -⟩ := (exec_registersKept h.notFatal hx).env hi
  exact ⟨hidle, hfatal.trans h.notFatal, hparams.trans h.params⟩

/-! ### `LOAD` of a byte string and `SET` of its length -/

/-- The machine after `LOAD sp, bytes` and `SET r, len(bytes)` (45_host_sequences.md R184, R187). -/
def loadWithLength (s : State) (sp : Space) (r : Reg) (bytes : List Byte) : State :=
  storeReg (writeBytes s sp 0 bytes) (BitVec.ofNat 64 bytes.length) r

@[simp] theorem readCell_storeReg (s : State) (v : Word) (r : Reg) : readCell (storeReg s v r) = readCell s := by
  cases r <;> simp [storeReg]

@[simp] theorem readReg_writeBytes (s : State) (sp : Space) (start : Nat) (bytes : List Byte) (r : Reg) :
    readReg (writeBytes s sp start bytes) r = readReg s r := by
  rw [writeBytes_eq]
  cases r <;> simp [readReg]

theorem Available.storeReg {p : Params} {s : State} (h : Available p s) (v : Word) (r : Reg) :
    Available p (storeReg s v r) := by
  obtain ⟨-, -, -, -, hparams, -, hstatus⟩ := storeReg_keeps s v r
  exact h.congr hstatus hparams

theorem Available.writeBytes {p : Params} {s : State} (h : Available p s) (sp : Space) (bytes : List Byte) :
    Available p (writeBytes s sp 0 bytes) := by
  rw [writeBytes_eq]
  exact h.congr (State.withMem_status ..) (State.withMem_params ..)

theorem Available.loadWithLength {p : Params} {s : State} (h : Available p s) (sp : Space) (r : Reg)
    (bytes : List Byte) : Available p (loadWithLength s sp r bytes) :=
  (h.writeBytes sp bytes).storeReg _ r

theorem Available.withScript {p : Params} {s : State} (h : Available p s) (rest : List HostAction) :
    Available p (s.withScript rest) := h.congr rfl rfl

theorem holdsBytes_loadWithLength (s : State) (sp : Space) (r : Reg) (bytes : List Byte) :
    HoldsBytes (loadWithLength s sp r bytes) sp bytes :=
  (holdsBytes_writeBytes s sp bytes).congr fun k => by rw [loadWithLength, readCell_storeReg]

theorem readCell_loadWithLength_other (s : State) {sp sp' : Space} (h : sp' ≠ sp) (r : Reg) (bytes : List Byte)
    (k : Nat) : readCell (loadWithLength s sp r bytes) sp' k = readCell s sp' k := by
  rw [loadWithLength, readCell_storeReg, readCell_writeBytes_space s h]

theorem readReg_loadWithLength_same (s : State) (sp : Space) {r : Reg} {w : Nat} {bytes : List Byte}
    (hw : r.writableWidth = some w) (hlen : bytes.length < 2 ^ w) :
    (readReg (loadWithLength s sp r bytes) r).toNat = bytes.length := by
  have hw64 : w ≤ 64 := by cases r <;> cases hw <;> decide
  have hlen64 : bytes.length < 2 ^ 64 := Nat.lt_of_lt_of_le hlen (Nat.pow_le_pow_right (by decide) hw64)
  rw [loadWithLength, readReg_storeReg_same _ _ hw, BitVec.toNat_ofNat, Nat.mod_eq_of_lt hlen64, Nat.mod_eq_of_lt hlen]

theorem readReg_loadWithLength_other (s : State) (sp : Space) {r r' : Reg} (h : r' ≠ r) (bytes : List Byte) :
    readReg (loadWithLength s sp r bytes) r' = readReg s r' := by
  rw [loadWithLength, readReg_storeReg_other _ _ h, readReg_writeBytes]

theorem bits_eq_of_readReg {s t : State} (h : readReg t .bits = readReg s .bits) : t.bits = s.bits := by
  simpa [readReg] using congrArg (BitVec.setWidth 8) h

theorem bits_loadWithLength (s : State) (sp : Space) {r : Reg} (h : Reg.bits ≠ r) (bytes : List Byte) :
    (loadWithLength s sp r bytes).bits = s.bits :=
  bits_eq_of_readReg (readReg_loadWithLength_other s sp h bytes)

theorem play_loadWithLength {p : Params} {s : State} {sp : Space} {r : Reg} {bytes : List Byte}
    {rest : List HostAction} (h : Available p s) (hr : r ≠ .cmd) (hM : bytes.length ≤ p.maxLen) :
    play (load sp bytes :: setReg r (BitVec.ofNat 64 bytes.length) :: rest) s =
      play rest (loadWithLength s sp r bytes) := by
  rw [play_load h.idle (h.params ▸ hM), play_setReg hr (h.writeBytes sp bytes).idle]
  rfl

/-! ### Images -/

/-- The machine holds the buffer `pixels`: its length in `CHLEN`, its bytes in `CHAN` (45_host_sequences.md R181). -/
structure HoldsImage (pixels : List Byte) (s : State) : Prop where
  len : s.chLen.toNat = pixels.length
  chan : HoldsBytes s .chan pixels

theorem HoldsImage.congr {pixels : List Byte} {s t : State} (h : HoldsImage pixels s) (hlen : t.chLen = s.chLen)
    (hcells : ∀ k, readCell t .chan k = readCell s .chan k) : HoldsImage pixels t :=
  ⟨hlen ▸ h.len, h.chan.congr hcells⟩

theorem HoldsImage.withScript {pixels : List Byte} {s : State} (h : HoldsImage pixels s) (rest : List HostAction) :
    HoldsImage pixels (s.withScript rest) := ⟨h.len, h.chan.withScript rest⟩

theorem holdsImage_loadWithLength (s : State) {pixels : List Byte} (hlen : pixels.length < 2 ^ 64) :
    HoldsImage pixels (loadWithLength s .chan .chLen pixels) :=
  ⟨readReg_loadWithLength_same s .chan (r := .chLen) rfl hlen, holdsBytes_loadWithLength s _ _ _⟩

/-- A buffer of whole pixels inside the memory (45_host_sequences.md R181, 20_memory.md R54). -/
structure LegalImage (p : Params) (pixels : List Byte) : Prop where
  wf : p.wf = true
  whole : pixels.length % 4 = 0
  inside : pixels.length ≤ p.maxLen

theorem LegalImage.length_lt {p : Params} {pixels : List Byte} (h : LegalImage p pixels) : pixels.length < 2 ^ 64 := by
  have := Params.maxLen_le h.wf
  have := h.inside
  omega

theorem LegalImage.cursorBuffer {p : Params} {pixels : List Byte} {s : State} (h : LegalImage p pixels)
    (h4 : 4 ≤ pixels.length) (hs : Available p s) (hi : HoldsImage pixels s) : CursorBuffer s := by
  rw [CursorBuffer, hi.len, hs.params]
  exact ⟨h.whole, h4, h.inside⟩

/-- A number from the capacity less the overhead of the provider up to the capacity is read back from a 64-bit register
(40_capacity.md R102, 45_host_sequences.md R182). -/
theorem LegalImage.toInt_ofInt {p : Params} {pixels : List Byte} (h : LegalImage p pixels) {b : Nat}
    (hb : 1 ≤ b ∧ b ≤ 8) {x : Int} (hlo : capacityBytes pixels.length b - 28 ≤ x)
    (hhi : x ≤ capacityBytes pixels.length b) : (BitVec.ofInt 64 x).toInt = x := by
  obtain ⟨hbits, hbits'⟩ := capacityBits_range (Params.maxLen_le h.wf) h.inside hb.1 hb.2
  have hbytes : capacityBytes pixels.length b = capacityBits pixels.length b / 8 := rfl
  exact toInt_ofInt_word (by omega) (by omega)

/-! ### CAPACITY as a step of both procedures -/

/-- CAPACITY on a machine with a legal image and a legal depth; it touches neither. -/
theorem play_capacity {p : Params} {pixels : List Byte} {s : State} (hs : Available p s) (hp : LegalImage p pixels)
    (hi : HoldsImage pixels s) (hb : 1 ≤ s.bits.toNat ∧ s.bits.toNat ≤ 8) :
    ∃ t, play [issue .capacity] s = .next t ∧ t.status.err = .ok ∧ Available p t ∧ HoldsImage pixels t ∧
      t.bits = s.bits ∧ t.capBytes.toInt = capacityBytes pixels.length s.bits.toNat := by
  have hx := exec_capacity_ok (s := s.withScript []) hs.notFatal hb (by
    show s.chLen.toNat % 4 = 0 ∧ s.chLen.toNat ≤ s.params.maxLen
    rw [hi.len, hs.params]
    exact ⟨hp.whole, hp.inside⟩)
  refine ⟨_, play_issue (by decide) hs.idle hx, rfl, (hs.withScript []).exec (by decide) hx,
    hi.congr rfl fun k => by simp, rfl, ?_⟩
  rw [State.withCap_capBytes, State.withScript_chLen, State.withScript_bits, hi.len]
  exact hp.toInt_ofInt hb (by omega) le_rfl

/-! ### The outcome of one script of a procedure -/

theorem HostRun.after_ok {α : Type} {moves : List HostAction} {rename : ErrCode → HostFailure} {s t : State}
    {k : State → HostRun α} (h : play moves s = .next t) (hok : t.status.err = .ok) :
    HostRun.after moves rename s k = k t := by
  rw [HostRun.after, h]
  exact if_pos hok

theorem HostRun.after_error {α : Type} {moves : List HostAction} {rename : ErrCode → HostFailure} {s t : State}
    {k : State → HostRun α} (h : play moves s = .next t) (hne : t.status.err ≠ .ok) :
    HostRun.after moves rename s k = { state := t, result := .error (rename t.status.err) } := by
  rw [HostRun.after, h]
  exact if_neg hne

/-! ### hide, step 1 (45_host_sequences.md R184) -/

theorem play_hideStep1 {p : Params} {pixels : List Byte} {b : Byte} {s : State} (hs : Available p s)
    (hp : LegalImage p pixels) (hb : 1 ≤ b.toNat ∧ b.toNat ≤ 8) :
    ∃ t, play (hideStep1 pixels b) s = .next t ∧ t.status.err = .ok ∧ Available p t ∧ HoldsImage pixels t ∧
      t.bits = b ∧ t.capBytes.toInt = capacityBytes pixels.length b.toNat := by
  have hload := hs.loadWithLength .chan .chLen pixels
  have hset : storeReg (loadWithLength s .chan .chLen pixels) (b.setWidth 64) .bits =
      (loadWithLength s .chan .chLen pixels).withBits b := by simp [storeReg]
  rw [hideStep1, play_loadWithLength hs (by decide) hp.inside, play_setReg (by decide) hload.idle, hset]
  exact play_capacity (s := (loadWithLength s .chan .chLen pixels).withBits b) (hload.congr rfl rfl) hp
    ((holdsImage_loadWithLength s hp.length_lt).congr rfl fun k => by simp) hb

/-! ### hide, step 2: the file -/

/-- The machine holds the file: its name in `NAME` and its content in `CONT`, with their lengths. -/
structure HoldsFile (name content : List Byte) (s : State) : Prop where
  nameLen : s.nameLen.toNat = name.length
  contLen : s.contLen.toNat = content.length
  name : HoldsBytes s .name name
  cont : HoldsBytes s .cont content

/-- A file the packed form can hold (30_encoding.md R73, 41_filepacker.md R110). -/
structure LegalFile (p : Params) (name content : List Byte) : Prop where
  named : 1 ≤ name.length ∧ name.length ≤ 255
  short : content.length < 2 ^ 32
  inside : 5 + name.length + content.length ≤ p.maxLen

/-- The machine on which the PACK_PAD of `hide` runs, the required length being `required`. -/
def packOperands (s : State) (name content : List Byte) (required : Int) : State :=
  storeReg (loadWithLength (loadWithLength s .name .nameLen name) .cont .contLen content)
    (BitVec.ofInt 64 required) .reqLen

theorem holdsFile_packOperands {p : Params} {name content : List Byte} (h : LegalFile p name content) (s : State)
    (required : Int) : HoldsFile name content (packOperands s name content required) where
  nameLen := by
    have hname := readReg_loadWithLength_same s .name (r := .nameLen) (w := 64) (bytes := name) rfl
      (Nat.lt_of_le_of_lt h.named.2 (by decide))
    rw [← readReg_loadWithLength_other _ .cont (r := .contLen) (by decide) content] at hname
    exact hname
  contLen := by
    have hcont := readReg_loadWithLength_same (loadWithLength s .name .nameLen name) .cont (r := .contLen) rfl h.short
    rw [readReg, BitVec.toNat_setWidth_of_le (by decide)] at hcont
    exact hcont
  name := (holdsBytes_loadWithLength s .name .nameLen name).congr fun k => by
    rw [packOperands, readCell_storeReg, readCell_loadWithLength_other _ (by decide)]
  cont := (holdsBytes_loadWithLength _ .cont .contLen content).congr fun k => by rw [packOperands, readCell_storeReg]

/-- Loading the file touches neither the image nor the depth. -/
theorem packOperands_keeps (s : State) (name content : List Byte) (required : Int) :
    (packOperands s name content required).chLen = s.chLen ∧ (packOperands s name content required).bits = s.bits ∧
      ∀ k, readCell (packOperands s name content required) .chan k = readCell s .chan k := by
  have hreg (r : Reg) (h1 : r ≠ .nameLen) (h2 : r ≠ .contLen) (h3 : r ≠ .reqLen) :
      readReg (packOperands s name content required) r = readReg s r := by
    rw [packOperands, readReg_storeReg_other _ _ h3, readReg_loadWithLength_other _ _ h2,
      readReg_loadWithLength_other _ _ h1]
  refine ⟨hreg .chLen (by decide) (by decide) (by decide),
    bits_eq_of_readReg (hreg .bits (by decide) (by decide) (by decide)), fun k => ?_⟩
  rw [packOperands, readCell_storeReg, readCell_loadWithLength_other _ (by decide),
    readCell_loadWithLength_other _ (by decide)]

theorem Available.packOperands {p : Params} {s : State} (h : Available p s) (name content : List Byte)
    (required : Int) : Available p (packOperands s name content required) :=
  ((h.loadWithLength _ _ _).loadWithLength _ _ _).storeReg _ _

/-- The five moves of step 2 before its command. -/
theorem play_hideStep2_eq {p : Params} {name content : List Byte} {cap : Int} {s : State} (hs : Available p s)
    (hfile : LegalFile p name content) :
    play (hideStep2 name content cap) s = play [issue .packPad] (packOperands s name content (cap - 28)) := by
  have hinside := hfile.inside
  have hname := hs.loadWithLength .name .nameLen name
  rw [hideStep2, play_loadWithLength hs (by decide) (by omega), play_loadWithLength hname (by decide) (by omega),
    play_setReg (by decide) (hname.loadWithLength _ _ _).idle]
  rfl

/-- A required length below the packed length: `LengthTooSmall`, and no cell of the image is touched. -/
theorem play_hideStep2_tooLarge {p : Params} {pixels name content : List Byte} {cap : Int} {s : State}
    (hs : Available p s) (hi : HoldsImage pixels s) (hfile : LegalFile p name content)
    (hreq : (BitVec.ofInt 64 (cap - 28)).toInt = cap - 28) (hlt : cap - 28 < 5 + (name.length : Int) + content.length) :
    ∃ t, play (hideStep2 name content cap) s = .next t ∧ t.status.err = .lengthTooSmall ∧ HoldsImage pixels t := by
  have hu := hs.packOperands name content (cap - 28)
  have hf := holdsFile_packOperands hfile s (cap - 28)
  obtain ⟨hlen, -, hcells⟩ := packOperands_keeps s name content (cap - 28)
  have hu' := hu.withScript []
  obtain ⟨-, hpack⟩ := packPadOutcome ((packOperands s name content (cap - 28)).withScript []) hu'.notFatal
  rw [hu'.params, State.withScript_nameLen, State.withScript_contLen, hf.nameLen, hf.contLen] at hpack
  obtain ⟨hsmall, -⟩ := (hpack hfile.named).2 hfile.inside
  have hx := hsmall (hreq.trans_lt hlt)
  refine ⟨_, (play_hideStep2_eq hs hfile).trans (play_issue (by decide) hu.idle hx), rfl,
    hi.congr hlen fun k => ?_⟩
  rw [readCell_ended, readCell_withScript, hcells]

/-! The packed file as a byte string (30_encoding.md R73). -/

theorem packedFile_length {name content : List Byte} {required : Nat}
    (h : 5 + name.length + content.length ≤ required) : (packedFile name content required).length = required := by
  have hbe : (be32 content.length).length = 4 := rfl
  simp only [packedFile, List.length_cons, List.length_append, List.length_replicate, hbe]
  omega

/-- Byte by byte, the packed file is what PACK_PAD builds of a machine that holds the file. -/
theorem HoldsFile.packedByte_eq {name content : List Byte} {s : State} (h : HoldsFile name content s)
    {required k : Nat} (hk : k < required) : packedByte s k = (packedFile name content required).getD k 0 := by
  have hbe : (be32 content.length).length = 4 := rfl
  rw [packedByte, h.nameLen, h.contLen, packedFile]
  cases k with
  | zero => rfl
  | succ k =>
    rw [if_neg (Nat.succ_ne_zero k), List.getD_cons_succ, Nat.add_sub_cancel]
    by_cases h1 : k < name.length
    · rw [if_pos (by omega), h.name k h1, List.append_assoc, List.append_assoc, List.getD_append _ _ _ _ h1]
    · rw [if_neg (by omega)]
      by_cases h2 : k + 1 < 5 + name.length
      · rw [if_pos h2, List.append_assoc, List.getD_append _ _ _ _ (by rw [List.length_append, hbe]; omega),
          List.getD_append_right _ _ _ _ (by omega), show k + 1 - (1 + name.length) = k - name.length by omega]
      · rw [if_neg h2]
        by_cases h3 : k + 1 < 5 + name.length + content.length
        · rw [if_pos h3, h.cont _ (by omega),
            List.getD_append _ _ _ _ (by rw [List.length_append, List.length_append, hbe]; omega),
            List.getD_append_right _ _ _ _ (by rw [List.length_append, hbe]; omega), List.length_append, hbe,
            show k - (name.length + 4) = k + 1 - (5 + name.length) by omega]
        · rw [if_neg h3, List.getD_append_right _ _ _ _ (by rw [List.length_append, List.length_append, hbe]; omega),
            List.getD_replicate]
          simp only [List.length_append, hbe]
          omega

/-- A required length from the packed length up: step 2 leaves the packed file in `PKT`, and the image and the depth as
they were. -/
theorem play_hideStep2_ok {p : Params} {pixels name content : List Byte} {cap : Int} {s : State}
    (hs : Available p s) (hi : HoldsImage pixels s) (hfile : LegalFile p name content)
    (hreq : (BitVec.ofInt 64 (cap - 28)).toInt = cap - 28) (hle : 5 + (name.length : Int) + content.length ≤ cap - 28)
    (hM : cap - 28 ≤ p.maxLen) :
    ∃ t, play (hideStep2 name content cap) s = .next t ∧ t.status.err = .ok ∧ Available p t ∧ HoldsImage pixels t ∧
      t.bits = s.bits ∧ readBytes t .pkt 0 t.pktLen.toNat = packedFile name content (cap - 28).toNat := by
  have hu := hs.packOperands name content (cap - 28)
  have hf := holdsFile_packOperands hfile s (cap - 28)
  obtain ⟨hlen, hbits, hcells⟩ := packOperands_keeps s name content (cap - 28)
  have hu' := hu.withScript []
  obtain ⟨t, ht, (hpacked : Packed _ (BitVec.ofInt 64 (cap - 28)) t)⟩ :=
    exec_packPad_ok hu'.notFatal (hf.nameLen.symm ▸ hfile.named)
    (by rw [hu'.params, State.withScript_nameLen, State.withScript_contLen, hf.nameLen, hf.contLen]
        exact hfile.inside)
    (by rw [State.withScript_nameLen, State.withScript_contLen, hf.nameLen, hf.contLen]
        exact hle.trans_eq hreq.symm)
    (by rw [hu'.params]
        exact hreq.trans_le hM)
  have hreqNat : (BitVec.ofInt 64 (cap - 28)).toNat = (cap - 28).toNat := by
    have hword := toNat_eq_toInt_of_nonneg (w := BitVec.ofInt 64 (cap - 28)) (by omega)
    omega
  have hplain : (packedFile name content (cap - 28).toNat).length = (cap - 28).toNat :=
    packedFile_length (by omega)
  obtain ⟨tbits, tlen, -⟩ := exec_registersKept hu'.notFatal ht
  refine ⟨t, (play_hideStep2_eq hs hfile).trans (play_issue (by decide) hu.idle ht), hpacked.ok,
    hu'.exec (by decide) ht, hi.congr (tlen.trans hlen) fun k => ?_, (tbits (by decide)).trans hbits, ?_⟩
  · rw [packPad_cells hu'.notFatal ht fun h => Space.noConfusion h.1, readCell_withScript, hcells]
  · refine HoldsBytes.readBytes (fun k hk => ?_) (by rw [hpacked.pktLen, hreqNat, hplain])
    rw [hplain] at hk
    rw [hpacked.bytes k (by rwa [hreqNat]), ← hf.packedByte_eq hk]
    simp [packedByte]

/-! ### hide, steps 1 and 2 (45_host_sequences.md R184, R189, R190) -/

theorem HideInputs.legal {key pixels name content : List Byte} {b : Byte} {s : State}
    (h : HideInputs key pixels name content b s) :
    Available s.params s ∧ LegalImage s.params pixels ∧ LegalFile s.params name content ∧
      (1 ≤ b.toNat ∧ b.toNat ≤ 8) ∧ key.length = 32 := by
  obtain ⟨hwf, hidle, hf, hkey, h4, hM, hb, hb8, h1, h255, hcont, hT⟩ := h
  exact ⟨⟨hidle, hf, rfl⟩, ⟨hwf, h4, hM⟩, ⟨⟨h1, h255⟩, hcont, hT⟩, ⟨hb, hb8⟩, hkey⟩

/-- Settles O47: the script of step 2 ends with `LengthTooSmall` on a machine that still holds the loaded image. -/
theorem hideRejectsTooLargeFiles : Obligations.HideRejectsTooLargeFiles := by
  intro aead pipeline key pixels name content answers b s hin hlt
  obtain ⟨hs, hp, hfile, hb, -⟩ := hin.legal
  obtain ⟨s₁, h₁, ok₁, hs₁, hi₁, -, hcap⟩ := play_hideStep1 hs hp hb
  obtain ⟨t, h₂, err₂, hi₂⟩ :=
    play_hideStep2_tooLarge hs₁ hi₁ hfile (hp.toInt_ofInt hb le_rfl (by omega)) hlt
  rw [hide, HostRun.after_ok h₁ ok₁, hcap, HostRun.after_error h₂ (by rw [err₂]; decide), err₂]
  exact ⟨t, rfl, hi₂.chan⟩

theorem smallestBuffer_ge (b : Nat) : 52 ≤ smallestBuffer b := by
  unfold smallestBuffer
  split <;> decide

/-- Settles O48: below the smallest image not even the smallest file, 6 bytes, fits (O47). -/
theorem hideNeedsTheSmallestImage : Obligations.HideNeedsTheSmallestImage := by
  refine ⟨fun L b => capacityBytes_ge_34_iff, fun aead pipeline key pixels name content answers b s hin hsmall => ?_⟩
  obtain ⟨-, hp, hfile, hb, -⟩ := hin.legal
  have hcap := mt (capacityBytes_ge_34_iff hp.whole hb.1 hb.2).1 (Nat.not_le.2 hsmall)
  have hnamed := hfile.named.1
  obtain ⟨t, ht, -⟩ := hideRejectsTooLargeFiles aead pipeline key pixels name content answers b s hin (by omega)
  exact ⟨t, ht⟩

/-- An image a file fits in has a pixel. -/
theorem HideInputs.four_le {key pixels name content : List Byte} {b : Byte} {s : State}
    (hin : HideInputs key pixels name content b s)
    (hfit : 5 + (name.length : Int) + content.length ≤ capacityBytes pixels.length b.toNat - 28) :
    4 ≤ pixels.length := by
  obtain ⟨-, hp, hfile, hb, -⟩ := hin.legal
  have hnamed := hfile.named.1
  have hsmallest := (capacityBytes_ge_34_iff hp.whole hb.1 hb.2).1 (by omega)
  have h52 := smallestBuffer_ge b.toNat
  omega

/-- A file that fits: the packed file stands in `PKT` when `hide` turns to the provider, on a machine that still holds the
loaded image and the depth. -/
theorem HideInputs.packs {key pixels name content : List Byte} {b : Byte} {s : State}
    (hin : HideInputs key pixels name content b s)
    (hfit : 5 + (name.length : Int) + content.length ≤ capacityBytes pixels.length b.toNat - 28) :
    ∃ s₁ s₂, play (hideStep1 pixels b) s = .next s₁ ∧ s₁.status.err = .ok ∧
      s₁.capBytes.toInt = capacityBytes pixels.length b.toNat ∧
      play (hideStep2 name content (capacityBytes pixels.length b.toNat)) s₁ = .next s₂ ∧ s₂.status.err = .ok ∧
      Available s.params s₂ ∧ HoldsImage pixels s₂ ∧ s₂.bits = b ∧
      readBytes s₂ .pkt 0 s₂.pktLen.toNat =
        packedFile name content (capacityBytes pixels.length b.toNat - 28).toNat := by
  obtain ⟨hs, hp, hfile, hb, -⟩ := hin.legal
  have h4 := hin.four_le hfit
  have hM : capacityBytes pixels.length b.toNat - 28 ≤ s.params.maxLen := by
    have := capacityBytes_le h4 hb.2
    have := hp.inside
    omega
  obtain ⟨s₁, h₁, ok₁, hs₁, hi₁, hb₁, hcap⟩ := play_hideStep1 hs hp hb
  obtain ⟨s₂, h₂, ok₂, hs₂, hi₂, hb₂, hpkt⟩ :=
    play_hideStep2_ok hs₁ hi₁ hfile (hp.toInt_ofInt hb le_rfl (by omega)) hfit hM
  exact ⟨s₁, s₂, h₁, ok₁, hcap, h₂, ok₂, hs₂, hi₂, hb₂.trans hb₁, hpkt⟩

/-! ### hide, step 4: the ciphertext goes into the channels -/

/-- The buffer `pixels` carries `blob`: at the depth its header holds, the whole bytes of its channel bit stream
(43_cursor_read.md R160, R167). -/
structure CarriesBlob (pixels blob : List Byte) : Prop where
  length : (blob.length : Int) = capacityBytes pixels.length (pixelDepth pixels)
  bits : ∀ k, k < blob.length → ∀ q, q < 8 →
    (blob.getD k 0).getLsbD q = pixelBit pixels (pixelDepth pixels) (8 * k + (7 - q))

/-- The depth of a buffer is the depth READ_HEADER finds on a machine that holds it. -/
theorem HoldsImage.headerValue_eq {pixels : List Byte} {s : State} (h : HoldsImage pixels s) (h4 : 4 ≤ pixels.length) :
    headerValue (readCell s .chan 0) (readCell s .chan 1) (readCell s .chan 2) + 1 = pixelDepth pixels := by
  rw [headerValue, pixelDepth, h.chan 0 (by omega), h.chan 1 (by omega), h.chan 2 (by omega)]
  omega

theorem HoldsImage.channelBit_eq {pixels : List Byte} {s : State} (h : HoldsImage pixels s) {b n : Nat}
    (hn : usableIndex (n / b) < pixels.length) : channelBit s b n = pixelBit pixels b n := by
  rw [channelBit, pixelBit, h.chan _ hn]

theorem pixelDepth_range (pixels : List Byte) : 1 ≤ pixelDepth pixels ∧ pixelDepth pixels ≤ 8 := by
  unfold pixelDepth
  omega

theorem holdsImage_readBytes (s : State) : HoldsImage (readBytes s .chan 0 s.chLen.toNat) s where
  len := (readBytes_length ..).symm
  chan k hk := (getD_readBytes s .chan (by rwa [readBytes_length] at hk)).symm

/-- WRITE_HEADER and WRITE_PAYLOAD of a payload as long as the capacity: both end with `OK`, whatever `Draw` answers, and
the buffer they leave carries the payload (43_cursor_read.md R170). -/
theorem exec_wholeWrite {p : Params} {blob : List Byte} {w : State} (hw : Available p w) (hl : CursorBuffer w)
    (hb : 1 ≤ w.bits.toNat ∧ w.bits.toNat ≤ 8) (hpay : w.payLen.toNat = blob.length) (hcells : HoldsBytes w .pay blob)
    (hcap : (blob.length : Int) = capacityBytes w.chLen.toNat w.bits.toNat) (answers : List Byte) :
    ∃ t u, exec .writeHeader w = .next t ∧ t.status.err = .ok ∧ t.status.busy = false ∧
      exec .writePayload ((t.withDraws answers).withScript []) = .next u ∧ u.status.err = .ok ∧ u.chLen = w.chLen ∧
      CarriesBlob (readBytes u .chan 0 u.chLen.toNat) blob := by
  have hfit := (fits_iff w.bits.toNat hl).1 (hpay ▸ hcap.le)
  have hM : w.payLen.toNat ≤ w.params.maxLen := by
    have := capacityBytes_le hl.2.1 hb.2
    have := hl.2.2
    omega
  obtain ⟨t, ht, tok, tidle, tlen, tpay, tbt, hready⟩ := exec_writeHeader_ok hw.notFatal hb hl hM
  have henv : ∃ e : Env, e.resets = t.env.resets ∧ (t.withDraws answers).withScript [] = t.withEnv e :=
    ⟨{ t.env with draws := answers, script := [] }, rfl, rfl⟩
  obtain ⟨u, hu, uok⟩ := exec_writePayload_ok (hready { t.env with draws := answers, script := [] }) (by
    rw [usableCount, State.withEnv_payLen, State.withEnv_chLen, State.withEnv_bt, tlen, tpay, tbt]
    exact hfit)
  obtain ⟨-, -, -, ⟨-, -, ulen, -⟩, -⟩ := wholeWrite_ok hw.notFatal ht tok henv hu uok
  refine ⟨t, u, ht, tok, tidle, hu, uok, ulen, ?_⟩
  have himage := holdsImage_readBytes u
  have hlen := himage.len.symm.trans (congrArg BitVec.toNat ulen)
  have hdepth : pixelDepth (readBytes u .chan 0 u.chLen.toNat) = w.bits.toNat :=
    (himage.headerValue_eq (hlen ▸ hl.2.1)).symm.trans (headerValue_wholeWrite hw.notFatal ht tok henv hu uok)
  refine ⟨by rw [hdepth, hlen, hcap], fun k hk q hq => ?_⟩
  obtain ⟨hinside, hbit⟩ := channelBit_wholeWrite hw.notFatal ht tok henv hu uok (n := 8 * k + (7 - q)) (by omega)
  calc (blob.getD k 0).getLsbD q
      = (readCell w .pay k).getLsbD q := by rw [hcells k hk]
    _ = payloadBit w (8 * k + (7 - q)) := (payloadBit_byte w k hq).symm
    _ = channelBit u w.bits.toNat (8 * k + (7 - q)) := hbit.symm
    _ = pixelBit (readBytes u .chan 0 u.chLen.toNat) w.bits.toNat (8 * k + (7 - q)) :=
      himage.channelBit_eq (hlen ▸ hinside)
    _ = pixelBit (readBytes u .chan 0 u.chLen.toNat) (pixelDepth (readBytes u .chan 0 u.chLen.toNat))
          (8 * k + (7 - q)) := by rw [hdepth]

/-- Step 4 of `hide` with a ciphertext as long as the capacity. -/
theorem play_hideStep4 {p : Params} {pixels cipher : List Byte} {s : State} (hs : Available p s)
    (hp : LegalImage p pixels) (hi : HoldsImage pixels s) (h4 : 4 ≤ pixels.length)
    (hb : 1 ≤ s.bits.toNat ∧ s.bits.toNat ≤ 8)
    (hcap : (cipher.length : Int) = capacityBytes pixels.length s.bits.toNat) (answers : List Byte) :
    ∃ t u, play (hideStep4a cipher) s = .next t ∧ t.status.err = .ok ∧ play (hideStep4b answers) t = .next u ∧
      u.status.err = .ok ∧ u.chLen.toNat = pixels.length ∧ CarriesBlob (readBytes u .chan 0 u.chLen.toNat) cipher := by
  have hM := hp.inside
  have hle := capacityBytes_le h4 hb.2
  have hload := hs.loadWithLength .pay .payLen cipher
  have hbits := bits_loadWithLength s .pay (r := .payLen) (by decide) cipher
  have himage : HoldsImage pixels (loadWithLength s .pay .payLen cipher) :=
    hi.congr (readReg_loadWithLength_other s .pay (r' := .chLen) (by decide) cipher)
      (readCell_loadWithLength_other s (by decide) .payLen cipher)
  obtain ⟨t, u, ht, tok, tidle, hu, uok, ulen, hc⟩ :=
    exec_wholeWrite (w := (loadWithLength s .pay .payLen cipher).withScript []) (blob := cipher) (hload.withScript [])
      (hp.cursorBuffer h4 (hload.withScript []) (himage.withScript []))
      (by rw [State.withScript_bits, hbits]; exact hb)
      (readReg_loadWithLength_same s .pay (r := .payLen) rfl (by have := hp.length_lt; omega))
      ((holdsBytes_loadWithLength s .pay .payLen cipher).withScript [])
      (by rw [State.withScript_bits, State.withScript_chLen, hbits, himage.len]; exact hcap) answers
  have hcells : readBytes (u.withDraws []) .chan 0 u.chLen.toNat = readBytes u .chan 0 u.chLen.toNat :=
    readBytes_congr fun k _ => by rw [readCell_withDraws]
  refine ⟨t, u.withDraws [], ?_, tok, ?_, uok, (congrArg BitVec.toNat ulen).trans himage.len, ?_⟩
  · rw [hideStep4a, play_loadWithLength hs (by decide) (by omega)]
    exact play_issue (by decide) hload.idle ht
  · rw [hideStep4b, play_draws]
    exact play_issue_writePayload (s := t.withDraws answers) tidle hu
  · rw [State.withDraws_chLen, hcells]
    exact hc

/-! ### hide, whole -/

section
variable {key pixels name content : List Byte} {b : Byte} {s : State}
  (hin : HideInputs key pixels name content b s)
  (hfit : 5 + (name.length : Int) + content.length ≤ capacityBytes pixels.length b.toNat - 28)
include hin hfit

/-- A ciphertext of another length than the capacity (45_host_sequences.md R185): no pixel is changed. -/
theorem hide_sizeMismatch (aead : Aead) (answers : List Byte)
    (hne : ((aead.encrypt key (packedFile name content (capacityBytes pixels.length b.toNat - 28).toNat)).length : Int) ≠
      capacityBytes pixels.length b.toNat) (pipeline : List Byte → List Byte) :
    ∃ t, hide aead pipeline key pixels name content b answers s =
        { state := t, result := .error .encryptionSizeMismatch } ∧ HoldsBytes t .chan pixels := by
  obtain ⟨s₁, s₂, h₁, ok₁, hcap, h₂, ok₂, -, hi₂, -, hpkt⟩ := hin.packs hfit
  rw [hide, HostRun.after_ok h₁ ok₁, hcap, HostRun.after_ok h₂ ok₂, hpkt]
  exact ⟨s₂, if_pos hne, hi₂.chan⟩

/-- A ciphertext as long as the capacity (45_host_sequences.md R184, R186): one buffer is made of it, which carries it and
which no pipeline has a part in. -/
theorem hide_encodes (aead : Aead) (answers : List Byte) {cipher : List Byte}
    (hcipher : cipher = aead.encrypt key (packedFile name content (capacityBytes pixels.length b.toNat - 28).toNat))
    (hlen : (cipher.length : Int) = capacityBytes pixels.length b.toNat) :
    ∃ t encoded, encoded.length = pixels.length ∧ CarriesBlob encoded cipher ∧ ∀ pipeline : List Byte → List Byte,
      hide aead pipeline key pixels name content b answers s =
        { state := t, result := if pipeline encoded = encoded then .ok encoded
                                else .error .roundtripVerificationFailed } := by
  obtain ⟨-, hp, -, hb, -⟩ := hin.legal
  obtain ⟨s₁, s₂, h₁, ok₁, hcap, h₂, ok₂, hs₂, hi₂, hb₂, hpkt⟩ := hin.packs hfit
  obtain ⟨t, u, h₃, ok₃, h₄, ok₄, hulen, hc⟩ :=
    play_hideStep4 hs₂ hp hi₂ (hin.four_le hfit) (hb₂ ▸ hb) (hb₂ ▸ hlen) answers
  refine ⟨u, readBytes u .chan 0 u.chLen.toNat, by rw [readBytes_length, hulen], hc, fun pipeline => ?_⟩
  rw [hide, HostRun.after_ok h₁ ok₁, hcap, HostRun.after_ok h₂ ok₂, hpkt, ← hcipher]
  simp only [ne_eq, hlen, not_true_eq_false, if_false]
  rw [HostRun.after_ok h₃ ok₃, HostRun.after_ok h₄ ok₄]
  split <;> rfl

end

/-- Settles O49: the two lengths of the ciphertext are the two lemmas before. -/
theorem hideDetectsFaultyCollaborators : Obligations.HideDetectsFaultyCollaborators := by
  rintro aead key pixels name content answers plain b cap s hin rfl hfit rfl
  refine ⟨fun hne pipeline => hide_sizeMismatch hin hfit aead answers hne pipeline, fun hlen => ?_⟩
  obtain ⟨t, encoded, hsize, -, hrun⟩ := hide_encodes hin hfit aead answers rfl hlen
  exact ⟨t, encoded, hsize, hrun⟩

/-- The contract of the provider makes the ciphertext of the padded file as long as the capacity (45_host_sequences.md
R185). -/
theorem Aead.Lawful.encrypt_length {aead : Aead} (h : aead.Lawful) {key name content : List Byte} {cap : Int}
    (hkey : key.length = 32) (hfit : 5 + (name.length : Int) + content.length ≤ cap - 28) :
    ((aead.encrypt key (packedFile name content (cap - 28).toNat)).length : Int) = cap := by
  obtain ⟨hlen, -⟩ := h key (packedFile name content (cap - 28).toNat) hkey
  rw [packedFile_length (by omega)] at hlen
  omega

/-- Settles O51: by the contract the ciphertext is as long as the capacity, and the pipeline gives the buffer back. -/
theorem hideSucceedsWhenTheFileFits : Obligations.HideSucceedsWhenTheFileFits := by
  intro aead pipeline key pixels name content answers b s hlawful hexact hin hfit
  obtain ⟨-, -, -, -, hkey⟩ := hin.legal
  obtain ⟨t, encoded, hsize, -, hrun⟩ :=
    hide_encodes hin hfit aead answers rfl (hlawful.encrypt_length hkey hfit)
  refine ⟨t, encoded, ?_, hsize⟩
  rw [hrun, if_pos (hexact encoded)]

/-! ### reveal, steps 1 to 3 (45_host_sequences.md R187) -/

theorem play_revealStep1 {p : Params} {pixels : List Byte} {s : State} (hs : Available p s) (hp : LegalImage p pixels)
    (h4 : 4 ≤ pixels.length) :
    ∃ t, play (revealStep1 pixels) s = .next t ∧ t.status.err = .ok ∧ Available p t ∧ HoldsImage pixels t ∧
      t.bits.toNat = pixelDepth pixels := by
  have hload := hs.loadWithLength .chan .chLen pixels
  have himage := holdsImage_loadWithLength s hp.length_lt
  have hw := hload.withScript []
  have hx := exec_readHeader_ok hw.notFatal (hp.cursorBuffer h4 hw (himage.withScript []))
  rw [readCell_withScript, himage.headerValue_eq h4] at hx
  obtain ⟨-, h8⟩ := pixelDepth_range pixels
  refine ⟨_, ?_, rfl, hw.exec (by decide) hx, himage.congr rfl fun k => by simp, ?_⟩
  · rw [revealStep1, play_loadWithLength hs (by decide) hp.inside]
    exact play_issue (by decide) hload.idle hx
  · rw [State.withBits_bits, BitVec.toNat_ofNat, Nat.mod_eq_of_lt (by omega)]

/-- Every bit of the channel bit stream stands in a channel of the buffer (43_cursor_read.md R167). -/
theorem usableIndex_div_lt {s : State} {b n : Nat} (hl : CursorBuffer s) (hb : 1 ≤ b) (hn : n < usableCount s * b) :
    usableIndex (n / b) < s.chLen.toNat := by
  rw [← usableIndex_usableCount hl.1 hl.2.1]
  exact usableIndex_strictMono ((Nat.div_lt_iff_lt_mul hb).2 hn)

/-- READ_PAYLOAD of the whole capacity leaves the blob of the image in `PAY`. -/
theorem play_revealStep3 {p : Params} {pixels blob : List Byte} {s : State} (hs : Available p s)
    (hp : LegalImage p pixels) (hi : HoldsImage pixels s) (h4 : 4 ≤ pixels.length) (hc : CarriesBlob pixels blob)
    (hb : s.bits.toNat = pixelDepth pixels) {cap : Word} (hcap : cap.toInt = blob.length) :
    ∃ t, play (revealStep3 cap) s = .next t ∧ t.status.err = .ok ∧ Available p t ∧
      readBytes t .pay 0 t.payLen.toNat = blob := by
  have hlen : cap.toNat = blob.length := by
    have := toNat_eq_toInt_of_nonneg (w := cap) (by omega)
    omega
  have hu : Available p (s.withPayLen cap) := hs.congr rfl rfl
  have hw := hu.withScript []
  have himage : HoldsImage pixels ((s.withPayLen cap).withScript []) := hi.congr rfl fun k => by simp
  have hl := hp.cursorBuffer h4 hw himage
  have hfits : (cap.toNat : Int) ≤ capacityBytes s.chLen.toNat s.bits.toNat := by
    rw [hi.len, hb, hlen]
    exact hc.length.le
  have hb8 := hb ▸ pixelDepth_range pixels
  have hinside : 8 * blob.length ≤ usableCount ((s.withPayLen cap).withScript []) * s.bits.toNat :=
    hlen ▸ (fits_iff s.bits.toNat hl).1 hfits
  obtain ⟨t, ht, tok, -, -, tpay, -, hread⟩ := exec_readPayload_ok hw.notFatal hb8 hl hfits
  refine ⟨t, ?_, tok, hw.exec (by decide) ht, ?_⟩
  · rw [revealStep3, play_setReg (by decide) hs.idle]
    exact play_issue (s := s.withPayLen cap) (by decide) hu.idle ht
  · refine HoldsBytes.readBytes (fun k hk => BitVec.eq_of_getLsbD_eq fun q hq => ?_) (tpay ▸ hlen)
    rw [hread k q (hk.trans_eq hlen.symm) hq, hc.bits k hk q hq, ← hb]
    exact himage.channelBit_eq (himage.len ▸ usableIndex_div_lt (b := s.bits.toNat) hl hb8.1 (by omega))

/-- What `reveal` returns of the machine UNPACK has left. -/
def revealedFile (s : State) : HostRun (List Byte × List Byte) :=
  { state := s, result := .ok (readBytes s .name 0 s.nameLen.toNat, readBytes s .cont 0 s.contLen.toNat) }

/-- On every image of at least one pixel `reveal` comes to hand the image's blob to the provider (43_cursor_read.md R162,
R172); what the provider answers decides how it goes on. -/
theorem reveal_of_carriesBlob {aead : Aead} {key pixels blob : List Byte} {p : Params} {s : State} (hs : Available p s)
    (hp : LegalImage p pixels) (h4 : 4 ≤ pixels.length) (hc : CarriesBlob pixels blob) :
    ∃ t, Available p t ∧
      (aead.decrypt key blob = none →
        reveal aead key pixels s = { state := t, result := .error .authenticationFailed }) ∧
      ∀ packed, aead.decrypt key blob = some packed →
        reveal aead key pixels s = HostRun.after (revealStep5 packed) .hardware t revealedFile := by
  obtain ⟨s₁, h₁, ok₁, hs₁, hi₁, hb₁⟩ := play_revealStep1 hs hp h4
  obtain ⟨s₂, h₂, ok₂, hs₂, hi₂, hb₂, hcap⟩ := play_capacity hs₁ hp hi₁ (hb₁ ▸ pixelDepth_range pixels)
  rw [hb₁, ← hc.length] at hcap
  obtain ⟨t, h₃, ok₃, ht, hblob⟩ := play_revealStep3 hs₂ hp hi₂ h4 hc (hb₂ ▸ hb₁) hcap
  refine ⟨t, ht, fun h => ?_, fun packed h => ?_⟩
  all_goals
    rw [reveal, HostRun.after_ok h₁ ok₁, revealStep2, HostRun.after_ok h₂ ok₂, HostRun.after_ok h₃ ok₃, hblob, h]
  rfl

/-- A script never fails under a name its renaming does not give. -/
theorem HostRun.after_result_ne {α : Type} {moves : List HostAction} {rename : ErrCode → HostFailure} {s : State}
    {k : State → HostRun α} {f : HostFailure} (hrename : ∀ e, rename e ≠ f) (hstopped : HostFailure.stopped ≠ f)
    (hk : ∀ t, (k t).result ≠ .error f) : (HostRun.after moves rename s k).result ≠ .error f := by
  unfold HostRun.after
  split
  · split
    · exact hk _
    · exact fun h => hrename _ (Except.error.inj h)
  · exact fun h => hstopped (Except.error.inj h)
  · exact fun h => hstopped (Except.error.inj h)

/-- Settles O50: step 5 can fail as the hardware does or stop, but not as the provider. -/
theorem revealRejectsWhatTheAeadRejects : Obligations.RevealRejectsWhatTheAeadRejects := by
  refine ⟨fun aead key pixels blob s hwf hidle hf h4 hl4 hM hlen hbits => ?_, rfl, rfl⟩
  obtain ⟨t, -, hnone, hsome⟩ := reveal_of_carriesBlob (aead := aead) (key := key) (s := s) ⟨hidle, hf, rfl⟩
    ⟨hwf, h4, hM⟩ hl4 ⟨hlen, hbits⟩
  cases hd : aead.decrypt key blob with
  | none => simp [hnone hd]
  | some packed =>
    have hne : (HostRun.after (revealStep5 packed) .hardware t revealedFile).result ≠ .error .authenticationFailed :=
      HostRun.after_result_ne nofun nofun fun _ => nofun
    simpa [hsome packed hd] using hne

/-! ### reveal, step 5, and the round trip (45_host_sequences.md R187, R191) -/

/-- A space `PKT` that begins with the packed file of `s` holds its fields. -/
theorem HoldsFile.packedIn {name content : List Byte} {s v : State} (h : HoldsFile name content s) {required : Nat}
    (hreq : 5 + name.length + content.length ≤ required) (hv : HoldsBytes v .pkt (packedFile name content required)) :
    PackedIn s v := by
  refine packedIn_of_packedByte fun k hk => ?_
  rw [h.nameLen, h.contLen] at hk
  rw [hv k (by rw [packedFile_length hreq]; omega), h.packedByte_eq (required := required) (by omega)]

/-- Step 5 on a packed file inside the memory gives the file back. -/
theorem revealStep5_packedFile {p : Params} {name content : List Byte} {required : Nat} {s : State}
    (hs : Available p s) (hwf : p.wf = true) (hfile : LegalFile p name content)
    (hreq : 5 + name.length + content.length ≤ required) (hM : required ≤ p.maxLen) :
    (HostRun.after (revealStep5 (packedFile name content required)) .hardware s revealedFile).result =
      .ok (name, content) := by
  have hlen := packedFile_length hreq
  have hM64 := Params.maxLen_le hwf
  have hload := hs.loadWithLength .pkt .pktLen (packedFile name content required)
  have hw := hload.withScript []
  have hpkt : ((loadWithLength s .pkt .pktLen (packedFile name content required)).withScript []).pktLen.toNat =
      required :=
    (readReg_loadWithLength_same s .pkt (r := .pktLen) rfl (by omega)).trans hlen
  have hv : HoldsBytes ((loadWithLength s .pkt .pktLen (packedFile name content required)).withScript []) .pkt
      (packedFile name content required) :=
    (holdsBytes_loadWithLength s .pkt .pktLen _).withScript []
  -- any machine that holds the file stands for the one that packed it
  have hf := holdsFile_packOperands hfile s 0
  obtain ⟨u, hu, uok, uname, ucont, hname, hcont⟩ := exec_unpack_packedIn (s := packOperands s name content 0)
    hw.notFatal (hf.nameLen ▸ hfile.named.1) (hf.nameLen ▸ hfile.named.2) (by rw [hpkt, hw.params]; exact hM)
    (by rw [hpkt, hf.nameLen, hf.contLen]; exact hreq) (hf.packedIn hreq hv)
  rw [hf.nameLen] at hname
  rw [hf.contLen] at hcont
  have hplay : play (revealStep5 (packedFile name content required)) s = .next u := by
    rw [revealStep5, play_loadWithLength hs (by decide) (by omega)]
    exact play_issue (by decide) hload.idle hu
  have huname : HoldsBytes u .name name := fun k hk => (hname k hk).trans (hf.name k hk)
  have hucont : HoldsBytes u .cont content := fun k hk => (hcont k hk).trans (hf.cont k hk)
  rw [HostRun.after_ok hplay uok, revealedFile, huname.readBytes (uname ▸ hf.nameLen),
    hucont.readBytes (ucont ▸ hf.contLen)]

/-- Settles O52: a `hide` that succeeded was given a file that fits (O47) and left a buffer that carries the ciphertext;
`reveal` hands that to the provider, which answers the packed file. -/
theorem revealReturnsTheHiddenFile : Obligations.RevealReturnsTheHiddenFile := by
  intro aead pipeline key pixels name content answers encoded b s t s' hlawful hin hhide hparams hidle hf
  obtain ⟨-, hp, hfile, hb, hkey⟩ := hin.legal
  have hfit : 5 + (name.length : Int) + content.length ≤ capacityBytes pixels.length b.toNat - 28 := by
    refine Int.not_lt.1 fun hlt => ?_
    obtain ⟨u, hu, -⟩ := hideRejectsTooLargeFiles aead pipeline key pixels name content answers b s hin hlt
    rw [hhide] at hu
    cases hu
  have h4 := hin.four_le hfit
  have hcap := capacityBytes_le h4 hb.2
  have hM := hp.inside
  obtain ⟨u, encoded', hsize, hc, hrun⟩ := hide_encodes hin hfit aead answers rfl (hlawful.encrypt_length hkey hfit)
  obtain rfl : encoded' = encoded := by
    rw [hrun pipeline] at hhide
    by_cases hpipe : pipeline encoded' = encoded'
    · rw [if_pos hpipe] at hhide
      cases hhide
      rfl
    · rw [if_neg hpipe] at hhide
      cases hhide
  obtain ⟨-, hdecrypt⟩ := hlawful key (packedFile name content (capacityBytes pixels.length b.toNat - 28).toNat) hkey
  obtain ⟨v, hv, -, hsome⟩ := reveal_of_carriesBlob (aead := aead) (key := key) (s := s') ⟨hidle, hf, hparams⟩
    ⟨hp.wf, hsize ▸ hp.whole, hsize ▸ hp.inside⟩ (hsize ▸ h4) hc
  rw [hsome _ hdecrypt]
  exact revealStep5_packedFile hv hp.wf hfile (by omega) (by omega)

end Sys2Proof.Machine

/-! PROOFS. The statements of 60_exceptions.md: how each command ends, what an error leaves, reserved command values, and
the fatal state. -/

namespace Sys2Proof.Machine

/-! ### How a command ends (60_exceptions.md R200, R206, R207, R211) -/

/-- The errors a command can end with (60_exceptions.md R211). -/
def listedErrors : Instr → List ErrCode
  | .validateBits => [.bitsOutOfRange]
  | .capacity     => [.bitsOutOfRange, .lengthInvalid]
  | .pack         => [.invalidName, .lengthInvalid]
  | .packPad      => [.invalidName, .lengthInvalid, .lengthTooSmall]
  | .unpack       => [.lengthInvalid, .corruptHeader]
  | .writeHeader  => [.bitsOutOfRange, .lengthInvalid]
  | .writePayload => [.illegalCommand, .lengthInvalid, .cursorMismatch]
  | .readHeader   => [.lengthInvalid]
  | .readPayload  => [.bitsOutOfRange, .lengthInvalid]

/-- The end of command `i`, begun in a state `s` that is not fatal: it completed, or it raised a recoverable error of its
list, or it is WRITE_PAYLOAD and raised the fatal one. -/
inductive CommandEnd (i : Instr) (s : State) : State → Prop
  | completed {t : State} (err : t.status.err = .ok) (fatal : t.status.fatal = false) : CommandEnd i s t
  | recoverable {e : ErrCode} (listed : e ∈ listedErrors i) (notFatal : e ≠ .cursorMismatch) :
      CommandEnd i s (s.ended e)
  | mismatch {t : State} (command : i = .writePayload) (bt : t.bt = 0)
      (status : t.status = { busy := false, done := true, fatal := true, phase := .idle, err := .cursorMismatch }) :
      CommandEnd i s t

theorem Outcome.commandEnd {i : Instr} {s t : State} {E : ErrCode → Prop} {P : State → Prop} (o : Outcome i s E P)
    (hE : ∀ e, E e → e ∈ listedErrors i) (hP : ∀ t, P t → CommandEnd i s t) (hx : exec i s = .next t) :
    CommandEnd i s t := by
  rcases o.next hx with ⟨e, -, hc, he, rfl⟩ | ht
  · exact .recoverable (hE e he) hc
  · exact hP t ht

theorem packCheck_listed {s : State} {e : ErrCode} (h : packCheck s = some e) : e = .invalidName ∨ e = .lengthInvalid :=
  (packCheck_some h).imp And.left And.left

/-- Every command ends in one of the three ways. -/
theorem exec_commandEnd {i : Instr} {s t : State} (hf : s.status.fatal = false) (hx : exec i s = .next t) :
    CommandEnd i s t := by
  cases i with
  | validateBits =>
    refine (validateBits_cases hf).commandEnd ?_ ?_ hx
    · rintro e ⟨rfl, -⟩
      simp [listedErrors]
    · rintro t ⟨-, rfl⟩
      exact .completed rfl hf
  | capacity =>
    refine (capacity_cases hf).commandEnd ?_ ?_ hx
    · rintro e (⟨rfl, -⟩ | ⟨rfl, -⟩) <;> simp [listedErrors]
    · rintro t ⟨-, -, rfl⟩
      exact .completed rfl hf
  | pack =>
    refine (pack_cases hf).commandEnd ?_ ?_ hx
    · intro e he
      simpa [listedErrors] using packCheck_listed he
    · rintro t ⟨-, rfl⟩
      exact .completed rfl hf
  | packPad =>
    refine (packPad_cases hf).commandEnd ?_ ?_ hx
    · rintro e (he | ⟨-, ⟨rfl, -⟩ | ⟨rfl, -⟩⟩)
      · rcases packCheck_listed he with rfl | rfl <;> simp [listedErrors]
      · simp [listedErrors]
      · simp [listedErrors]
    · rintro t ⟨-, -, -, rfl⟩
      exact .completed rfl hf
  | unpack =>
    refine (unpack_cases hf rfl rfl).commandEnd ?_ ?_ hx
    · rintro e (⟨rfl, -⟩ | ⟨rfl, -⟩) <;> simp [listedErrors]
    · rintro t ⟨-, -, -, rfl⟩
      exact .completed rfl hf
  | writeHeader =>
    refine (writeHeader_cases hf).commandEnd ?_ ?_ hx
    · rintro e (⟨rfl, -⟩ | ⟨rfl, -⟩) <;> simp [listedErrors]
    · rintro t ⟨-, -, ht, -⟩
      rw [ht]
      exact .completed rfl hf
  | writePayload =>
    refine (writePayload_cases_any hf).commandEnd ?_ ?_ hx
    · rintro e (⟨rfl, -⟩ | ⟨rfl, -⟩) <;> simp [listedErrors]
    · rintro t ⟨-, -, -, u, -, ⟨rfl, -⟩ | ⟨rfl, -⟩⟩
      · exact .completed rfl hf
      · rw [raiseError_cursorMismatch]
        exact .mismatch rfl rfl rfl
  | readHeader =>
    refine (readHeader_cases hf).commandEnd ?_ ?_ hx
    · rintro e ⟨rfl, -⟩
      simp [listedErrors]
    · rintro t ⟨-, rfl⟩
      exact .completed rfl hf
  | readPayload =>
    refine (readPayload_cases hf).commandEnd ?_ ?_ hx
    · rintro e (⟨rfl, -⟩ | ⟨rfl, -⟩) <;> simp [listedErrors]
    · rintro t ⟨-, -, -, u, -, -, rfl⟩
      exact .completed rfl hf

/-- An error other than the fatal one leaves the state as the command found it, but for `STATUS`. -/
theorem CommandEnd.eq_ended {i : Instr} {s t : State} (h : CommandEnd i s t) (hok : t.status.err ≠ .ok)
    (hc : t.status.err ≠ .cursorMismatch) : t = s.ended t.status.err := by
  cases h with
  | completed herr _ => exact absurd herr hok
  | recoverable _ _ => rfl
  | mismatch _ _ hst => exact absurd (congrArg Status.err hst) hc

/-- Settles O17: a command by its three ends; a write of `CMD` runs one, or the decoder raises `IllegalCommand`. -/
theorem recoverableErrorsChangeNothingElse : Obligations.RecoverableErrorsChangeNothingElse := by
  intro s t hf hok hc
  have hexec : ∀ i, exec i s = .next t → t = s.ended t.status.err :=
    fun i hx => (exec_commandEnd hf hx).eq_ended hok hc
  refine ⟨hexec, fun w hw => ?_⟩
  rcases startCommand_cases hw with ⟨hfatal, -⟩ | ⟨-, rfl⟩ | ⟨-, i, -, hx⟩
  · exact absurd (hf.symm.trans hfatal) (by decide)
  · rfl
  · exact hexec i hx

/-- Settles O18: each of the three ends carries `OK` or an error of the command's list. -/
theorem errorsOfEachCommand : Obligations.ErrorsOfEachCommand := by
  intro i s t hf hx
  show t.status.err ∈ ErrCode.ok :: listedErrors i
  cases exec_commandEnd hf hx with
  | completed herr _ => exact List.mem_cons.2 (.inl herr)
  | recoverable hlisted _ => exact List.mem_cons_of_mem _ hlisted
  | mismatch hi _ hst =>
    subst hi
    simp [hst, listedErrors]

/-- Settles O19: of the three ends only the fatal one shows `FATAL` or `CursorMismatch`. -/
theorem fatalErrorEntry : Obligations.FatalErrorEntry := by
  intro i s t hf hx hfatal
  cases exec_commandEnd hf hx with
  | completed herr hnot => simp [herr, hnot] at hfatal
  | recoverable _ hrec => simp [State.ended, hf, hrec] at hfatal
  | mismatch hi hbt hst => exact ⟨hi, hbt, hst⟩

/-! ### A write of `CMD` as a step (60_exceptions.md R203, R208) -/

/-- The host's next move is a write of `CMD` and no command runs: the command starts on the machine that has taken the
move off the script. -/
theorem step_writeCmd {v : Word} {rest : List HostAction} {s : State} (hscript : s.env.script = .write 0x00 v :: rest)
    (hidle : s.status.busy = false) :
    step s = dropDraws (v.setWidth 8) (startCommand (v.setWidth 8) (s.withScript rest)) := by
  rw [step_cons hscript, perform, whenIdle_of_idle _ (by simpa using hidle)]
  exact hostWrite_offset .cmd v _

theorem startCommand_reserved {w : Byte} {s : State} (hf : s.status.fatal = false) (hw : ¬ ∃ i, w = encode i) :
    startCommand w s = .next (s.ended .illegalCommand) := by
  obtain ⟨t, ht⟩ := startCommand_next w s
  rcases startCommand_cases ht with ⟨hfatal, -⟩ | ⟨-, rfl⟩ | ⟨-, i, hi, -⟩
  · exact absurd (hf.symm.trans hfatal) (by decide)
  · exact ht
  · exact absurd ⟨i, eq_encode_of_decode hi⟩ hw

/-- Settles O5: a reserved value is no command's code, so it is not WRITE_PAYLOAD's either and the prepared draws stay. -/
theorem reservedCommandValueIsIllegal : Obligations.ReservedCommandValueIsIllegal := by
  intro s v rest hscript hidle hf hv
  have hw : ¬ ∃ i, (v.setWidth 8 : Byte) = encode i := by
    rw [exists_eq_encode_iff]
    omega
  rw [step_writeCmd hscript hidle, startCommand_reserved (s := s.withScript rest) hf hw, dropDraws,
    if_neg fun h => hw ⟨_, h⟩]

/-! ### The fatal state (60_exceptions.md R208, R209) -/

theorem exec_fatal {s : State} (hf : s.status.fatal = true) (i : Instr) : exec i s = .next s := by
  rw [exec_eq, runCommand_fatal _ hf]

theorem startCommand_fatal {s : State} (hf : s.status.fatal = true) (w : Byte) : startCommand w s = .next s := by
  obtain ⟨t, ht⟩ := startCommand_next w s
  rcases startCommand_cases ht with ⟨-, rfl⟩ | ⟨hnot, -⟩ | ⟨hnot, -⟩
  · exact ht
  · exact absurd (hf.symm.trans hnot) (by decide)
  · exact absurd (hf.symm.trans hnot) (by decide)

theorem dropDraws_next (w : Byte) (s : State) : ∃ answers, dropDraws w (.next s) = .next (s.withDraws answers) := by
  by_cases hw : w = encode .writePayload
  · exact ⟨[], by rw [dropDraws, if_pos hw]⟩
  · exact ⟨s.env.draws, by rw [dropDraws, if_neg hw]; rfl⟩

/-- Settles O6: no command and no reserved value starts; the step only takes the move, and maybe the draws, away. -/
theorem fatalStateRefusesEveryCommand : Obligations.FatalStateRefusesEveryCommand := by
  refine fun s hf => ⟨exec_fatal hf, fun v rest hscript hidle => ?_⟩
  rw [step_writeCmd hscript hidle, startCommand_fatal (s := s.withScript rest) hf]
  exact dropDraws_next _ _

/-- `perform_cases` with reset told apart by the move: every other one is quiet or a write of `CMD`. -/
theorem perform_quiet_or_command {a : HostAction} {s t : State} (ha : a ≠ .reset) (h : perform a s = .next t) :
    QuietMove s t ∨ CommandMove s t := by
  cases a with
  | write off v => exact hostWrite_quiet_or_command (whenIdle_next h)
  | copy dst src => exact hostWrite_quiet_or_command (hostCopy_next (whenIdle_next h))
  | store sp start bytes => exact .inl (hostStore_quiet (whenIdle_next h))
  | draws answers =>
    cases h
    exact .inl (.withDraws s answers)
  | stopUnlessOk =>
    cases h
    left
    split
    · exact .refl s
    · exact .withScript s []
  | reset => exact absurd rfl ha

theorem CommandMove.status_eq_of_fatal {s t : State} (h : CommandMove s t) (hf : s.status.fatal = true) :
    t.status = s.status := by
  obtain ⟨w, u, answers, hu, rfl⟩ := h
  rw [startCommand_fatal hf] at hu
  cases hu
  rfl

/-- Settles O11: a quiet move does not write `STATUS`, and in the fatal state no command does. -/
theorem onlyResetClearsFatal : Obligations.OnlyResetClearsFatal := by
  intro s t h hf
  cases hscript : s.env.script with
  | nil =>
    rw [step, hscript] at h
    cases h
    exact .inl hf
  | cons a rest =>
    rw [step_cons hscript] at h
    by_cases ha : a = .reset
    · exact .inr ⟨rest, by rw [ha]⟩
    · left
      rcases perform_quiet_or_command ha h with hq | hc
      · exact (congrArg Status.fatal hq.control.status).trans hf
      · exact (congrArg Status.fatal (hc.status_eq_of_fatal hf)).trans hf

end Sys2Proof.Machine

/-! PROOFS. The statements of 70_reset_and_hazards.md: reset as a move of the platform, the end of every move of the host,
and the moves that leave the block alone. -/

namespace Sys2Proof.Machine

/-! ### Reset (70_reset_and_hazards.md R240) -/

theorem step_reset {rest : List HostAction} {s : State} (hscript : s.env.script = .reset :: rest) :
    step s = .next (applyReset (s.withScript rest)) := step_cons hscript

/-- No cell keeps a known byte over a reset: it reads as the free value of the period that begins. -/
theorem readCell_applyReset (s : State) (sp : Space) (i : Nat) :
    readCell (applyReset s) sp i = Config.unwrittenByte (s.env.resets + 1) sp i := by
  cases sp <;> rfl

/-- Settles O10: the step is `applyReset`, whatever `STATUS` holds. -/
theorem resetMovePutsEveryRegisterAtReset : Obligations.ResetMovePutsEveryRegisterAtReset := fun s rest hscript =>
  ⟨_, step_reset hscript, rfl, rfl, readCell_applyReset (s.withScript rest)⟩

/-! ### Well-formed moves are performed (70_reset_and_hazards.md R260) -/

theorem hostCopy_eq_hostWrite {dst src : Nat} (h : windowOffsetWf src = true) (s : State) :
    hostCopy dst src s = hostWrite dst (hostRead s src) s := by
  simp [hostCopy, h]

theorem hostStore_of_wf {sp : Space} {start : Nat} {bytes : List Byte} {s : State}
    (h : HostAction.wf s.params (.store sp start bytes) = true) :
    hostStore sp start bytes s = .next (writeBytes s sp start bytes) := if_pos h

theorem perform_next_of_wf {a : HostAction} {s : State} (hidle : s.status.busy = false) (h : a.wf s.params = true) :
    ∃ t, perform a s = .next t := by
  cases a with
  | write off v =>
    rw [perform, whenIdle_of_idle _ hidle]
    exact hostWrite_next h
  | copy dst src =>
    obtain ⟨hdst, hsrc⟩ := Bool.and_eq_true_iff.1 h
    rw [perform, whenIdle_of_idle _ hidle, hostCopy_eq_hostWrite hsrc]
    exact hostWrite_next hdst
  | store sp start bytes =>
    rw [perform, whenIdle_of_idle _ hidle]
    exact ⟨_, hostStore_of_wf h⟩
  | draws answers => exact ⟨_, rfl⟩
  | stopUnlessOk => exact ⟨_, rfl⟩
  | reset => exact ⟨_, rfl⟩

theorem startCommand_keeps_idle {w : Byte} {s t : State} (hidle : s.status.busy = false)
    (h : startCommand w s = .next t) : t.status.busy = false := by
  rcases startCommand_cases h with ⟨-, rfl⟩ | ⟨-, rfl⟩ | ⟨hf, i, -, hx⟩
  · exact hidle
  · rfl
  · exact (exec_keeps hf hx).2.1

theorem perform_keeps_idle {a : HostAction} {s t : State} (hidle : s.status.busy = false)
    (h : perform a s = .next t) : t.status.busy = false := by
  rcases perform_cases h with hq | ⟨w, u, answers, hu, rfl⟩ | rfl
  · exact (congrArg Status.busy hq.control.status).trans hidle
  · exact (startCommand_keeps_idle hidle hu :)
  · rfl

/-! ### Ill-formed moves stop (log entries 6 and 9) -/

theorem hostWrite_off_slot {off : Nat} (h : windowOffsetWf off = false) (v : Word) (s : State) :
    hostWrite off v s = .refused .notASlot := by
  simp [hostWrite, h]

theorem hostCopy_off_slot {dst src : Nat} (h : (windowOffsetWf dst && windowOffsetWf src) = false) (s : State) :
    hostCopy dst src s = .refused .notASlot := by
  cases hsrc : windowOffsetWf src with
  | false => simp [hostCopy, hsrc]
  | true =>
    rw [hostCopy_eq_hostWrite hsrc]
    exact hostWrite_off_slot (by simpa [hsrc] using h) _ s

theorem hostStore_of_not_wf {sp : Space} {start : Nat} {bytes : List Byte} {s : State}
    (h : HostAction.wf s.params (.store sp start bytes) = false) :
    hostStore sp start bytes s = .fault .noSuchCell := if_neg (Bool.eq_false_iff.1 h)

theorem perform_stops_of_not_wf {a : HostAction} {s : State} (hidle : s.status.busy = false)
    (h : a.wf s.params = false) : perform a s = .refused .notASlot ∨ perform a s = .fault .noSuchCell := by
  cases a with
  | write off v => exact .inl ((whenIdle_of_idle _ hidle).trans (hostWrite_off_slot h v s))
  | copy dst src => exact .inl ((whenIdle_of_idle _ hidle).trans (hostCopy_off_slot h s))
  | store sp start bytes => exact .inr ((whenIdle_of_idle _ hidle).trans (hostStore_of_not_wf h))
  | draws answers => cases h
  | stopUnlessOk => cases h
  | reset => cases h

/-- Settles O12: a well-formed move is performed, and no move that is performed on an idle block leaves `BUSY` 1. -/
theorem everyHostMoveEnds : Obligations.EveryHostMoveEnds := by
  intro s a rest hscript hidle
  have hidle' : (s.withScript rest).status.busy = false := hidle
  rw [step_cons hscript]
  refine ⟨fun hwf => ?_, perform_stops_of_not_wf hidle'⟩
  obtain ⟨t, ht⟩ := perform_next_of_wf hidle' hwf
  exact ⟨t, ht, perform_keeps_idle hidle' ht⟩

/-! ### Moves that leave the block alone (70_reset_and_hazards.md R240, R241) -/

/-- A write of any slot but that of `CMD` changes at most one operand register. -/
theorem hostWrite_not_cmd {off : Nat} {v : Word} {s t : State} (hoff : off ≠ 0x00) (h : hostWrite off v s = .next t) :
    SameControl s t ∧ t.env = s.env := by
  rcases hostWrite_cases h with ⟨h0, -⟩ | ⟨hst, hcur, hbt, hacc, hn, hcb, hcB, -, hp, henv⟩
  · exact absurd h0 hoff
  · exact ⟨⟨hst, hcur, hbt, hacc, hn, hcb, hcB, hp⟩, henv⟩

theorem writeBytes_env (s : State) (sp : Space) (start : Nat) (bytes : List Byte) :
    (writeBytes s sp start bytes).env = s.env := by
  rw [writeBytes_eq, State.withMem_env]

/-- A move that is no reset and names no write of `CMD`. -/
theorem perform_not_cmd_not_reset {a : HostAction} {s t : State} (hreset : a ≠ .reset) (hwrite : ∀ v, a ≠ .write 0x00 v)
    (hcopy : ∀ src, a ≠ .copy 0x00 src) (h : perform a s = .next t) :
    SameControl s t ∧ t.env.resets = s.env.resets := by
  cases a with
  | write off v =>
    have hoff : off ≠ 0x00 := fun h0 => hwrite v (congrArg (HostAction.write · v) h0)
    exact (hostWrite_not_cmd hoff (whenIdle_next h)).imp_right (congrArg Env.resets)
  | copy dst src =>
    have hdst : dst ≠ 0x00 := fun h0 => hcopy src (congrArg (HostAction.copy · src) h0)
    exact (hostWrite_not_cmd hdst (hostCopy_next (whenIdle_next h))).imp_right (congrArg Env.resets)
  | store sp start bytes =>
    obtain ⟨rfl, -⟩ := hostStore_next (whenIdle_next h)
    exact ⟨(QuietMove.refl s).control.writeBytes sp start bytes,
      congrArg Env.resets (writeBytes_env s sp start bytes)⟩
  | draws answers =>
    cases h
    exact ⟨(QuietMove.withDraws s answers).control, rfl⟩
  | stopUnlessOk =>
    cases h
    split
    · exact ⟨(QuietMove.refl s).control, rfl⟩
    · exact ⟨(QuietMove.withScript s []).control, rfl⟩
  | reset => exact absurd rfl hreset

/-- Settles O14: with no move pending the step is the identity; any other step performs one of the quiet moves. -/
theorem onlyCommandsAndResetRunTheBlock : Obligations.OnlyCommandsAndResetRunTheBlock := by
  intro s t h hmoves
  cases hscript : s.env.script with
  | nil =>
    rw [step, hscript] at h
    cases h
    exact ⟨rfl, rfl, rfl, rfl, rfl, rfl, rfl, rfl, rfl, fun _ => rfl⟩
  | cons a rest =>
    obtain ⟨hreset, hwrite, hcopy⟩ := hmoves a rest hscript
    rw [step_cons hscript] at h
    obtain ⟨hc, hresets⟩ := perform_not_cmd_not_reset hreset hwrite hcopy h
    exact ⟨hc.status, hc.cur, hc.bt, hc.acc, hc.accBits, hc.capBits, hc.capBytes, hc.params, hresets, nofun⟩

end Sys2Proof.Machine

/-! PROOFS. The statement of 10_state.md that a write of `CMD` runs the command its low 8 bits decode to (R22). -/

namespace Sys2Proof.Machine

/-- No two commands share a code (30_encoding.md R71). -/
theorem encode_inj {i j : Instr} : encode i = encode j ↔ i = j := by
  rw [← decode_eq_ok_iff, decode_encode, Except.ok.injEq]

theorem startCommand_encode (i : Instr) (s : State) : startCommand (encode i) s = exec i s := by
  rw [startCommand, decode_encode]

/-- Of the nine codes only that of WRITE_PAYLOAD makes the prepared draws go. -/
theorem dropDraws_encode (i : Instr) (t : State) :
    dropDraws (encode i) (.next t) = .next (if i = .writePayload then t.withDraws [] else t) := by
  simp only [dropDraws, encode_inj]

/-- Settles O4: a byte that decodes to a command is that command's code, so the step is the command's own answer with the
draws dropped after WRITE_PAYLOAD. -/
theorem stepRunsTheDecodedCommand : Obligations.StepRunsTheDecodedCommand := by
  intro s v rest i hscript hidle hdecode
  obtain ⟨t, ht⟩ := exec_next i (s.withScript rest)
  refine ⟨t, ht, ?_⟩
  rw [step_writeCmd hscript hidle, eq_encode_of_decode hdecode, startCommand_encode, ht, dropDraws_encode]

end Sys2Proof.Machine
